-- ==== Sys2Proof/Word.lean ====
section
/-! DEFINITION. The bytes and byte strings of the block (00_scope.md R11, R14), and the two byte strings
of fixed length that the spec gives a type of their own: an address (6 bytes) and a confounder (4 bytes). -/

namespace Sys2Proof

/-- A byte: 8 bits, bit 0 the least significant (R11). -/
abbrev Byte := BitVec 8

/-- A buffer or byte string, lowest offset first (R11, R14). -/
abbrev Bytes := List Byte

/-- `zeros n` of R14: `n` zero bytes. -/
def zeros (n : Nat) : Bytes := List.replicate n 0#8

/-- An address: a string of 6 bytes, byte 0 first, compared by exact equality (20_memory.md R74, D7).
It is no number, so no byte order applies to it. -/
structure Addr where
  b0 : Byte
  b1 : Byte
  b2 : Byte
  b3 : Byte
  b4 : Byte
  b5 : Byte
  deriving DecidableEq, Repr

/-- The six bytes of an address in order. -/
def Addr.bytes (a : Addr) : Bytes := [a.b0, a.b1, a.b2, a.b3, a.b4, a.b5]

/-- The address of six zero bytes. -/
def Addr.zero : Addr := ⟨0, 0, 0, 0, 0, 0⟩

/-- The confounder of a management frame: a string of 4 bytes (42_mac_frame.md R164). -/
structure Confounder where
  c0 : Byte
  c1 : Byte
  c2 : Byte
  c3 : Byte
  deriving DecidableEq, Repr

/-- The four bytes of a confounder in order. -/
def Confounder.bytes (c : Confounder) : Bytes := [c.c0, c.c1, c.c2, c.c3]

/-- The all-zero confounder, which R164 allows. -/
def Confounder.zero : Confounder := ⟨0, 0, 0, 0⟩

end Sys2Proof
end

