-- ==== Sys2Proof/Machine/Bits.lean ====
section
/-! DEFINITION. The bits of a buffer and the loops of 40_bitfield.md R130 to R134, without the bounds
check (Sys2Proof/Machine/BitField.lean adds it). A field of width `w` at offset `o` is buffer bits
`o .. o+w-1`, field bit `j` at buffer bit `o + j` (00_scope.md R11, R12). -/

namespace Sys2Proof.Machine

/-- The bit at bit offset `p`: bit `p mod 8` of byte `p div 8` (R11). -/
def bitAt (buf : Bytes) (p : Nat) : Bool := (buf.getD (p / 8) 0#8).getLsbD (p % 8)

/-- A byte with bit `k` replaced by `b`. -/
def putBit (x : Byte) (k : Nat) (b : Bool) : Byte :=
  (x &&& ~~~(1#8 <<< k)) ||| (if b then 1#8 <<< k else 0#8)

/-- The buffer with the bit at bit offset `p` replaced by `b`. -/
def setBit (buf : Bytes) (p : Nat) (b : Bool) : Bytes :=
  buf.set (p / 8) (putBit (buf.getD (p / 8) 0#8) (p % 8) b)

/-- The loop of R131: the unsigned value of the `w` bits from offset `o`. -/
def readBits (buf : Bytes) (o : Nat) : Nat → Nat
  | 0 => 0
  | w + 1 => readBits buf o w + (if bitAt buf (o + w) then 2 ^ w else 0)

/-- The loop of R130: bits `0 .. w-1` of `v` written from offset `o` up. -/
def writeBits (buf : Bytes) (v o : Nat) : Nat → Bytes
  | 0 => buf
  | w + 1 => setBit (writeBits buf v o w) (o + w) (v.testBit w)

/-- `b[i:j]` of R14: empty when `j <= i`. -/
def slice (b : Bytes) (i j : Nat) : Bytes := (b.take j).drop i

/-- `MemWrite` of R134 within bounds: `s` over the bytes from offset `k`. -/
def overwrite (buf s : Bytes) (k : Nat) : Bytes := buf.take k ++ s ++ buf.drop (k + s.length)

end Sys2Proof.Machine
end

