-- ==== Sys2Proof/Config.lean ====
section
/-! DEFINITION. The parameters of 00_scope.md R9 that an environment fixes before the first event
(10_state.md R32), and the one value the spec leaves free that is no draw of a step. The parameters that
R9 fixes for this hardware are in Sys2Proof/Machine/Params.lean. -/

namespace Sys2Proof

/-- `ROLE` (R9, 46_arq_fsm.md R290). -/
inductive Role where
  | master
  | slave
  deriving DecidableEq, Repr

/-- `SSN_MOD`: 65536, or the alternative reading 65636 (conflict C1, decision D1). -/
inductive SsnMod where
  | m65536
  | m65636
  deriving DecidableEq, Repr

/-- The modulus as a number. -/
def SsnMod.toNat : SsnMod → Nat
  | .m65536 => 65536
  | .m65636 => 65636

/-- `CRC_ALGO`: the five parameters of a CRC-32 (41_crc32.md R150, R151), the polynomial in its normal
(unreflected) form. -/
structure CrcAlgo where
  poly : BitVec 32
  init : BitVec 32
  refIn : Bool
  refOut : Bool
  xorOut : BitVec 32
  deriving DecidableEq, Repr

/-- CRC-32/ISO-HDLC, the default of R9 and R150 (decision D3). -/
def CrcAlgo.isoHdlc : CrcAlgo where
  poly := 0x04C11DB7#32
  init := 0xFFFFFFFF#32
  refIn := true
  refOut := true
  xorOut := 0xFFFFFFFF#32

/-- The configuration of one node. The periods default to 0.5 s and 1 s of `TICK_HZ` (R9); half of an odd
`TICK_HZ` is rounded down (DESIGN CHOICE, log entry 32: R9 gives no rounding). The values of
`SOF_MODULATION` and `SOF_ROBO_MODE` are opaque to the block (decision D30). -/
structure Config where
  role : Role
  localAddr : Addr
  ssnMod : SsnMod := .m65536
  mfhTypeAtLsb : Bool := false
  crc : CrcAlgo := CrcAlgo.isoHdlc
  tickHz : Nat
  sackTimeoutTicks : Nat := tickHz / 2
  soundPeriodTicks : Nat := tickHz
  nStreams : Nat
  sofModulation : Nat
  sofRoboMode : Nat
  mmtypeCe : BitVec 16
  nCarriers : Nat
  deriving DecidableEq, Repr

/-- DESIGN CHOICE (log entry 3, unsafe): the configuration of `State.reset`. R9 leaves these parameters
OPEN; the address, `TICK_HZ` and `N_STREAMS` are the master's of 95_test_vectors.md, the rest are zero. -/
def Config.default : Config where
  role := .master
  localAddr := ⟨0x02, 0, 0, 0, 0, 0x01⟩
  tickHz := 1000
  nStreams := 4
  sofModulation := 0
  sofRoboMode := 0
  mmtypeCe := 0#16
  nCarriers := 0

/-- Free value (log entry 6): what a 64-bit tick register (10_state.md R35, R38) holds after a tick count
of 2^64 or more is written to it. The spec states no such result. -/
opaque Config.tickOverflow : Nat → BitVec 64

end Sys2Proof
end

