-- ==== Sys2Proof/Machine/Params.lean ====
section
/-! DEFINITION. The parameters of 00_scope.md R9 that have one value for this hardware. -/

namespace Sys2Proof.Machine

/-- `MAX_SEGMENTS`: blocks cut per segmentation invocation. -/
def maxSegments : Nat := 3
/-- `BODY_SHORT` in bytes. -/
def bodyShort : Nat := 128
/-- `BODY_LONG` in bytes. -/
def bodyLong : Nat := 512
/-- `SHORT_THRESHOLD`: the short body is chosen when fewer bytes than this are pending. -/
def shortThreshold : Nat := 128
/-- `BLOCK_HDR_LEN` in bytes. -/
def blockHdrLen : Nat := 4
/-- `BLOCK_CHECK_LEN` in bytes. -/
def blockCheckLen : Nat := 4
/-- `BLOCK_OVERHEAD`: header and check. -/
def blockOverhead : Nat := blockHdrLen + blockCheckLen
/-- `LEN_MAX`: the largest value of the 14-bit `len` field. -/
def lenMax : Nat := 16383
/-- `MFH_LEN` in bytes. -/
def mfhSize : Nat := 2
/-- `ICV_LEN` in bytes. -/
def icvLen : Nat := 4
/-- `CONFOUNDER_LEN` in bytes, management frames only. -/
def confounderLen : Nat := 4
/-- `ADDR_LEN` in bytes. -/
def addrLen : Nat := 6
/-- `RESERVED_LEN` in bytes. -/
def reservedLen : Nat := 2
/-- `len` of a frame is its total length less this (R99: MFH width, ICV width and 1). -/
def lenBias : Nat := mfhSize + icvLen + 1
/-- `TYPE_DATA` (R98). -/
def typeData : Nat := 0b01
/-- `TYPE_MGMT` (R98). -/
def typeMgmt : Nat := 0b11
/-- The MFH type that marks padding (R98). -/
def typePad : Nat := 0b00
/-- The reserved MFH type (R98). -/
def typeReserved : Nat := 0b10
/-- `SACK_TAG` (45_sack.md R274). -/
def sackTag : Nat := 0b00010101
/-- `MAX_FRAMES_IN_BUFFER`. -/
def maxFramesInBuffer : Nat := 10
/-- `MM_VERSION`. -/
def mmVersion : Nat := 1
/-- The widest field of the bit-field unit (40_bitfield.md R136). -/
def maxFieldWidth : Nat := 32

end Sys2Proof.Machine
end

