-- ==== Sys2Proof/Syntax.lean ====
section
/-! DEFINITION. The rows of spec/opcode_table.json as one inductive: nine input events (30_encoding.md
R105), seven output events (R106), twelve datapath operations (R108) and six wire tags (R91 to R95). -/

namespace Sys2Proof

/-- The four kinds of message a decoder of this block is given (log entry 9). Events and operations share
one code space (R105, R106, R108); the wire structures have none and are told apart by where they arrive. -/
inductive Port where
  | code         -- an event or operation code and its operands (R105 to R108, R110)
  | mfh          -- a MAC frame, which begins with an MFH (R91, R97)
  | blockHeader  -- a burst, which begins with a PHY block header (R92, R93)
  | sack         -- a SACK payload, which begins with its tag (R95)
  deriving DecidableEq, Repr

/-- The fields of the 32-bit PHY block header (R93), the unnamed bits 29 to 31 as `reserved`. -/
structure BlockHeader where
  ssn : BitVec 16
  macBoundaryOffset : BitVec 9
  valid : Bool
  mgmtQueueFlag : Bool
  macBoundaryFlag : Bool
  oldestSsnFlag : Bool
  reserved : BitVec 3
  deriving DecidableEq, Repr

/-- One constructor per row of the opcode table. -/
inductive Instr where
  -- input events (R105)
  | reset
  | appSubmit (dest : Addr) (payload : Bytes)
  | mgmtSubmit (dest : Addr) (mm : Bytes)
  | phyRxSof (payload : Bytes)
  | phyRxSack (sackd : Bytes)
  | phyRxSound
  | phyRxEnd
  | phyTxEnd
  | timerExpire (gen : BitVec 32)
  -- output events (R106), as the emission of the event (log entry 10)
  | sof (payload : Bytes)
  | sound
  | sack (sackd : Bytes)
  | searchPpdu
  | appRx (payload : Bytes)
  | mgmtRx (mm : Bytes)
  | ready
  -- datapath operations (R108)
  | setField (buffer : Bytes) (value : BitVec 32) (bitOffset bitWidth : Nat)
  | getField (buffer : Bytes) (bitOffset bitWidth : Nat)
  | setBytes (buffer bytes : Bytes) (byteOffset : Nat)
  | getBytes (buffer : Bytes) (byteOffset n : Nat)
  | crc32 (bytes : Bytes)
  | macEncode (dest : Addr) (payload : Bytes) (confounder : Option Confounder)
  | macDecode (frame : Bytes)
  | segment (slot : Nat)
  | reassemble (burst : Bytes)
  | sackEncode (errs : List Bool)
  | sackDecode (sackd : Bytes) (n : Nat)
  | blockBuild (ssn : BitVec 17) (mbo : BitVec 9) (boundary : Bool) (body : Bytes)
  -- wire tags (R91 to R98), as the structure each begins (log entries 11 to 13)
  | mfhData (len : BitVec 14) (rest : Bytes)
  | mfhMgmt (len : BitVec 14) (rest : Bytes)
  | mfhPad (len : BitVec 14) (rest : Bytes)
  | mfhReserved (len : BitVec 14) (rest : Bytes)
  | sackPayload (bitmap : Bytes)
  | phyBlockHeader (hdr : BlockHeader) (rest : Bytes)
  deriving DecidableEq, Repr

/-- The port an instruction arrives on. -/
def Instr.port : Instr → Port
  | .mfhData _ _ | .mfhMgmt _ _ | .mfhPad _ _ | .mfhReserved _ _ => .mfh
  | .phyBlockHeader _ _ => .blockHeader
  | .sackPayload _ => .sack
  | .reset | .appSubmit _ _ | .mgmtSubmit _ _ | .phyRxSof _ | .phyRxSack _ | .phyRxSound | .phyRxEnd
  | .phyTxEnd | .timerExpire _ | .sof _ | .sound | .sack _ | .searchPpdu | .appRx _ | .mgmtRx _ | .ready
  | .setField _ _ _ _ | .getField _ _ _ | .setBytes _ _ _ | .getBytes _ _ _ | .crc32 _ | .macEncode _ _ _
  | .macDecode _ | .segment _ | .reassemble _ | .sackEncode _ | .sackDecode _ _ | .blockBuild _ _ _ _ => .code

end Sys2Proof
end

