-- ==== Sys2Proof/Machine/Operands.lean ====
section
/-! DEFINITION. The wire fields the units read and write as operands: the MFH (30_encoding.md R97, R100,
42_mac_frame.md R175), the PHY block header (R93, R94) and a 32-bit check field (41_crc32.md R152). -/

namespace Sys2Proof.Machine

/-- The 2 MFH bytes with fields `type` and `len` (R163; the order of R175 when `MFH_TYPE_AT_LSB`). -/
def mfhBytes (typeAtLsb : Bool) (type len : Nat) : Bytes :=
  if typeAtLsb then writeBits (writeBits (zeros mfhSize) type 0 2) len 2 14
  else writeBits (writeBits (zeros mfhSize) len 0 14) type 14 2

/-- The `len` field of the MFH at the start of `f` (R97, R175). -/
def mfhLen (typeAtLsb : Bool) (f : Bytes) : Nat :=
  if typeAtLsb then readBits f 2 14 else readBits f 0 14

/-- The `type` field of the MFH at the start of `f` (R97, R175). -/
def mfhType (typeAtLsb : Bool) (f : Bytes) : Nat :=
  if typeAtLsb then readBits f 0 2 else readBits f 14 2

/-- The total length of a frame from its first two bytes, none while there are fewer (R51, R100). -/
def expectedLength (typeAtLsb : Bool) (d : Bytes) : Option Nat :=
  if d.length < mfhSize then none else some (mfhLen typeAtLsb d + lenBias)

/-- A 32-bit check value as its 4-byte field (R152). -/
def checkBytes (v : BitVec 32) : Bytes := writeBits (zeros 4) v.toNat 0 32

/-- The check value read from the first 4 bytes of `b` (R152). -/
def checkValue (b : Bytes) : BitVec 32 := BitVec.ofNat 32 (readBits b 0 32)

/-- The 4 header bytes of a block, field by field as 43_segmenter.md R197 writes them (R93, R94). -/
def headerBytes (h : BlockHeader) : Bytes :=
  let b := writeBits (zeros blockHdrLen) h.ssn.toNat 0 16
  let b := writeBits b h.macBoundaryOffset.toNat 16 9
  let b := writeBits b h.valid.toNat 25 1
  let b := writeBits b h.mgmtQueueFlag.toNat 26 1
  let b := writeBits b h.macBoundaryFlag.toNat 27 1
  let b := writeBits b h.oldestSsnFlag.toNat 28 1
  writeBits b h.reserved.toNat 29 3

/-- The header fields at the start of a block (R93). -/
def headerFields (b : Bytes) : BlockHeader where
  ssn := BitVec.ofNat 16 (readBits b 0 16)
  macBoundaryOffset := BitVec.ofNat 9 (readBits b 16 9)
  valid := readBits b 25 1 == 1
  mgmtQueueFlag := readBits b 26 1 == 1
  macBoundaryFlag := readBits b 27 1 == 1
  oldestSsnFlag := readBits b 28 1 == 1
  reserved := BitVec.ofNat 3 (readBits b 29 3)

end Sys2Proof.Machine
end

