-- ==== Sys2Proof/WellFormed.lean ====
section
/-! DEFINITION. The checks an instruction must pass to have an encoding: the operand ranges the spec gives
(40_bitfield.md R136, 30_encoding.md R92) and those of the model's operand layout (log entry 8). -/

namespace Sys2Proof

/-- Why an instruction has no encoding. -/
inductive IllFormed where
  /-- A field width above 32, which is outside the unit (R136). -/
  | fieldTooWide (width : Nat)
  /-- A block body of neither 128 nor 512 bytes (R92). -/
  | bodyLength (n : Nat)
  /-- A number operand that does not fit the layout's 32 bits (log entry 8). -/
  | numberTooLarge (n : Nat)
  /-- A string operand whose length does not fit the layout's 32-bit length (log entry 8). -/
  | stringTooLong (n : Nat)
  deriving DecidableEq, Repr

/-- The first check of a list that fails. -/
def firstFailure : List (Bool × IllFormed) → Option IllFormed
  | [] => none
  | (ok, e) :: cs => if ok then firstFailure cs else some e

/-- The checks of each instruction, in operand order. -/
def Instr.checks : Instr → List (Bool × IllFormed)
  | .setField buf _ o w =>
    [(buf.length < 2 ^ 32, .stringTooLong buf.length), (o < 2 ^ 32, .numberTooLarge o), (w ≤ 32, .fieldTooWide w)]
  | .getField buf o w =>
    [(buf.length < 2 ^ 32, .stringTooLong buf.length), (o < 2 ^ 32, .numberTooLarge o), (w ≤ 32, .fieldTooWide w)]
  | .setBytes buf s k =>
    [(buf.length < 2 ^ 32, .stringTooLong buf.length), (s.length < 2 ^ 32, .stringTooLong s.length),
     (k < 2 ^ 32, .numberTooLarge k)]
  | .getBytes buf k n =>
    [(buf.length < 2 ^ 32, .stringTooLong buf.length), (k < 2 ^ 32, .numberTooLarge k),
     (n < 2 ^ 32, .numberTooLarge n)]
  | .macEncode _ p _ => [(p.length < 2 ^ 32, .stringTooLong p.length)]
  | .segment slot => [(slot < 2 ^ 32, .numberTooLarge slot)]
  | .sackDecode s n => [(s.length < 2 ^ 32, .stringTooLong s.length), (n < 2 ^ 32, .numberTooLarge n)]
  | .blockBuild _ _ _ body => [(body.length = 128 ∨ body.length = 512, .bodyLength body.length)]
  | .reset | .appSubmit _ _ | .mgmtSubmit _ _ | .phyRxSof _ | .phyRxSack _ | .phyRxSound | .phyRxEnd
  | .phyTxEnd | .timerExpire _ | .sof _ | .sound | .sack _ | .searchPpdu | .appRx _ | .mgmtRx _ | .ready
  | .crc32 _ | .macDecode _ | .reassemble _ | .sackEncode _ | .mfhData _ _ | .mfhMgmt _ _ | .mfhPad _ _
  | .mfhReserved _ _ | .sackPayload _ | .phyBlockHeader _ _ => []

/-- The first reason an instruction is ill-formed, if there is one. -/
def Instr.illFormed (i : Instr) : Option IllFormed := firstFailure i.checks

/-- An instruction is well-formed when it passes every check. -/
def Instr.wellFormed (i : Instr) : Bool := i.checks.all (·.1)

end Sys2Proof
end

