-- ==== Sys2Proof/Decode.lean ====
section
/-! DEFINITION. The decoder, total on any bytes and rejecting by name, and the encoder.

A message on the code port is a code of 30_encoding.md R105 to R108 followed by its fields in the order
those tables list them. R110 fixes this for the input events. For the rest the layout is the model's
(log entry 8): a number is little-endian (32 bits, but 16 for `mbo`), a flag is one byte 0 or 1,
an address and a confounder are their bytes, a byte string that is the last field runs to the end of the
message and any other is preceded by its 32-bit length. On the other ports a message is the wire structure
itself (log entry 9). -/

namespace Sys2Proof

open Machine

/-- Why a message is no instruction. -/
inductive DecodeError where
  /-- A message of no bytes. -/
  | emptyMessage
  /-- An input code 0x09 to 0x0F, refused by R107. -/
  | reservedInputCode (code : Byte)
  /-- An operation code 0x1C to 0x1F, refused by R108. -/
  | reservedOperationCode (code : Byte)
  /-- An output code 0x27 to 0x2F, refused by R107. -/
  | reservedOutputCode (code : Byte)
  /-- A code 0x30 to 0xFF, which no table assigns (log entry 24). -/
  | unassignedCode (code : Byte)
  /-- The message ends inside an operand. -/
  | truncated
  /-- Bytes are left after the last operand. -/
  | trailingBytes (n : Nat)
  /-- A flag byte that is neither 0 nor 1. -/
  | badFlag (b : Byte)
  /-- A sequence counter operand that does not fit the 17 bits of `next_ssn` (43_segmenter.md R203). -/
  | ssnTooLarge (n : Nat)
  /-- A boundary offset operand that does not fit its 9 bits. -/
  | offsetTooLarge (n : Nat)
  /-- A message on the SACK port whose first byte is not the tag 0x15 (R95). -/
  | notASack
  /-- The operands are outside the ranges of WellFormed.lean. -/
  | illFormed (why : IllFormed)
  deriving DecidableEq, Repr

/-! ## Little-endian numbers -/

/-- The `k` low bytes of `n`, least significant first. -/
def leBytes : Nat → Nat → Bytes
  | 0, _ => []
  | k + 1, n => BitVec.ofNat 8 n :: leBytes k (n / 256)

/-- The number whose little-endian bytes are given. -/
def leNat : Bytes → Nat
  | [] => 0
  | b :: bs => b.toNat + 256 * leNat bs

/-! ## Reading operands -/

/-- A 32-bit number. -/
def take32 : Bytes → Except DecodeError (Nat × Bytes)
  | a :: b :: c :: d :: r => .ok (leNat [a, b, c, d], r)
  | _ => .error .truncated

/-- A 16-bit number. -/
def take16 : Bytes → Except DecodeError (Nat × Bytes)
  | a :: b :: r => .ok (leNat [a, b], r)
  | _ => .error .truncated

/-- One flag byte as a Boolean. -/
def flagOf (x : Byte) : Except DecodeError Bool :=
  if x = 0#8 then .ok false else if x = 1#8 then .ok true else .error (.badFlag x)

/-- A flag. -/
def takeFlag : Bytes → Except DecodeError (Bool × Bytes)
  | x :: r => (flagOf x).map fun f => (f, r)
  | [] => .error .truncated

/-- An address. -/
def takeAddr : Bytes → Except DecodeError (Addr × Bytes)
  | a :: b :: c :: d :: e :: f :: r => .ok (⟨a, b, c, d, e, f⟩, r)
  | _ => .error .truncated

/-- A confounder. -/
def takeConfounder : Bytes → Except DecodeError (Confounder × Bytes)
  | a :: b :: c :: d :: r => .ok (⟨a, b, c, d⟩, r)
  | _ => .error .truncated

/-- A byte string with its length before it. -/
def takeString (b : Bytes) : Except DecodeError (Bytes × Bytes) := do
  let (n, r) ← take32 b
  if n ≤ r.length then .ok (r.take n, r.drop n) else .error .truncated

/-- A list of flags to the end of the message. -/
def takeFlags : Bytes → Except DecodeError (List Bool)
  | [] => .ok []
  | x :: r => do
    let f ← flagOf x
    let fs ← takeFlags r
    .ok (f :: fs)

/-- The end of a message. -/
def finish (r : Bytes) (i : Instr) : Except DecodeError Instr :=
  if r = [] then .ok i else .error (.trailingBytes r.length)

/-! ## Operands of each code -/

/-- `dest` and the rest of the message (R105, codes 0x01 and 0x02). -/
def decodeSubmit (mk : Addr → Bytes → Instr) (b : Bytes) : Except DecodeError Instr := do
  let (dest, r) ← takeAddr b
  .ok (mk dest r)

/-- `gen` (R105, code 0x08). -/
def decodeTimerExpire (b : Bytes) : Except DecodeError Instr := do
  let (g, r) ← take32 b
  finish r (.timerExpire (BitVec.ofNat 32 g))

/-- `buffer, value, bitOffset, bitWidth` (R108, code 0x10). -/
def decodeSetField (b : Bytes) : Except DecodeError Instr := do
  let (buf, r) ← takeString b
  let (v, r) ← take32 r
  let (o, r) ← take32 r
  let (w, r) ← take32 r
  finish r (.setField buf (BitVec.ofNat 32 v) o w)

/-- `buffer, bitOffset, bitWidth` (R108, code 0x11). -/
def decodeGetField (b : Bytes) : Except DecodeError Instr := do
  let (buf, r) ← takeString b
  let (o, r) ← take32 r
  let (w, r) ← take32 r
  finish r (.getField buf o w)

/-- `buffer, bytes, byteOffset` (R108, code 0x12). -/
def decodeSetBytes (b : Bytes) : Except DecodeError Instr := do
  let (buf, r) ← takeString b
  let (s, r) ← takeString r
  let (k, r) ← take32 r
  finish r (.setBytes buf s k)

/-- `buffer, byteOffset, n` (R108, code 0x13). -/
def decodeGetBytes (b : Bytes) : Except DecodeError Instr := do
  let (buf, r) ← takeString b
  let (k, r) ← take32 r
  let (n, r) ← take32 r
  finish r (.getBytes buf k n)

/-- `dest, payload, isManagement, confounder` (R108, code 0x15), the confounder for management only. -/
def decodeMacEncode (b : Bytes) : Except DecodeError Instr := do
  let (dest, r) ← takeAddr b
  let (p, r) ← takeString r
  let (mgmt, r) ← takeFlag r
  if mgmt then
    let (c, r) ← takeConfounder r
    finish r (.macEncode dest p (some c))
  else finish r (.macEncode dest p none)

/-- The number of a stream slot (R108, code 0x17). -/
def decodeSegment (b : Bytes) : Except DecodeError Instr := do
  let (slot, r) ← take32 b
  finish r (.segment slot)

/-- The block-error list (R108, code 0x19). -/
def decodeSackEncode (b : Bytes) : Except DecodeError Instr := do
  let errs ← takeFlags b
  .ok (.sackEncode errs)

/-- `SACK payload, n` (R108, code 0x1A). -/
def decodeSackDecode (b : Bytes) : Except DecodeError Instr := do
  let (s, r) ← takeString b
  let (n, r) ← take32 r
  finish r (.sackDecode s n)

/-- `ssn, mbo, boundary flag, body` (R108, code 0x1B), `ssn` a sequence counter value (43_segmenter.md R197),
which has up to 17 bits (R203; log entry 20). -/
def decodeBlockBuild (b : Bytes) : Except DecodeError Instr := do
  let (ssn, r) ← take32 b
  let (mbo, r) ← take16 r
  let (f, r) ← takeFlag r
  if 2 ^ 17 ≤ ssn then .error (.ssnTooLarge ssn)
  else if 512 ≤ mbo then .error (.offsetTooLarge mbo)
  else .ok (.blockBuild (BitVec.ofNat 17 ssn) (BitVec.ofNat 9 mbo) f r)

/-- The instruction of a code and its operand bytes (R105 to R108). -/
def decodeCode (c : Byte) (b : Bytes) : Except DecodeError Instr :=
  match c.toNat with
  | 0x00 => finish b .reset
  | 0x01 => decodeSubmit .appSubmit b
  | 0x02 => decodeSubmit .mgmtSubmit b
  | 0x03 => .ok (.phyRxSof b)
  | 0x04 => .ok (.phyRxSack b)
  | 0x05 => finish b .phyRxSound
  | 0x06 => finish b .phyRxEnd
  | 0x07 => finish b .phyTxEnd
  | 0x08 => decodeTimerExpire b
  | 0x10 => decodeSetField b
  | 0x11 => decodeGetField b
  | 0x12 => decodeSetBytes b
  | 0x13 => decodeGetBytes b
  | 0x14 => .ok (.crc32 b)
  | 0x15 => decodeMacEncode b
  | 0x16 => .ok (.macDecode b)
  | 0x17 => decodeSegment b
  | 0x18 => .ok (.reassemble b)
  | 0x19 => decodeSackEncode b
  | 0x1A => decodeSackDecode b
  | 0x1B => decodeBlockBuild b
  | 0x20 => .ok (.sof b)
  | 0x21 => finish b .sound
  | 0x22 => .ok (.sack b)
  | 0x23 => finish b .searchPpdu
  | 0x24 => .ok (.appRx b)
  | 0x25 => .ok (.mgmtRx b)
  | 0x26 => finish b .ready
  | n =>
    if n < 0x10 then .error (.reservedInputCode c)
    else if n < 0x20 then .error (.reservedOperationCode c)
    else if n < 0x30 then .error (.reservedOutputCode c)
    else .error (.unassignedCode c)

/-- The wire structure an MFH begins, by its `type` field in the table's layout (R97, R98). -/
def decodeMfh (m0 m1 : Byte) (rest : Bytes) : Instr :=
  let len := BitVec.ofNat 14 (mfhLen false [m0, m1])
  match mfhType false [m0, m1] with
  | 0 => .mfhPad len rest
  | 1 => .mfhData len rest
  | 2 => .mfhReserved len rest
  | _ => .mfhMgmt len rest

/-- An instruction that passes its checks. -/
def checked (i : Instr) : Except DecodeError Instr :=
  match i.illFormed with
  | none => .ok i
  | some e => .error (.illFormed e)

/-- The instruction of a message, or the name of what is wrong with it. A message on a wire-tag port that is
too short for its tag, or that has another tag, is no message of that port and is refused (DESIGN CHOICE, log
entry 33): 30_encoding.md R109 gives the reports of the units such bytes reach through the codes. -/
def decode (p : Port) (b : Bytes) : Except DecodeError Instr :=
  match p, b with
  | .code, [] => .error .emptyMessage
  | .code, c :: ops => (decodeCode c ops).bind checked
  | .mfh, m0 :: m1 :: rest => .ok (decodeMfh m0 m1 rest)
  | .mfh, _ => .error .truncated
  | .blockHeader, h0 :: h1 :: h2 :: h3 :: rest => .ok (.phyBlockHeader (headerFields [h0, h1, h2, h3]) rest)
  | .blockHeader, _ => .error .truncated
  | .sack, [] => .error .emptyMessage
  | .sack, t :: bitmap => if t = 0x15#8 then .ok (.sackPayload bitmap) else .error .notASack

/-! ## The encoder -/

/-- A byte string with its length before it. -/
def encodeString (b : Bytes) : Bytes := leBytes 4 b.length ++ b

/-- A flag byte. -/
def encodeFlag (f : Bool) : Byte := if f then 1#8 else 0#8

/-- The message of an instruction, on the port `Instr.port` gives. -/
def encode : Instr → Bytes
  | .reset => [0x00#8]
  | .appSubmit dest payload => 0x01#8 :: (dest.bytes ++ payload)
  | .mgmtSubmit dest mm => 0x02#8 :: (dest.bytes ++ mm)
  | .phyRxSof payload => 0x03#8 :: payload
  | .phyRxSack sackd => 0x04#8 :: sackd
  | .phyRxSound => [0x05#8]
  | .phyRxEnd => [0x06#8]
  | .phyTxEnd => [0x07#8]
  | .timerExpire gen => 0x08#8 :: leBytes 4 gen.toNat
  | .sof payload => 0x20#8 :: payload
  | .sound => [0x21#8]
  | .sack sackd => 0x22#8 :: sackd
  | .searchPpdu => [0x23#8]
  | .appRx payload => 0x24#8 :: payload
  | .mgmtRx mm => 0x25#8 :: mm
  | .ready => [0x26#8]
  | .setField buf v o w => 0x10#8 :: (encodeString buf ++ leBytes 4 v.toNat ++ leBytes 4 o ++ leBytes 4 w)
  | .getField buf o w => 0x11#8 :: (encodeString buf ++ leBytes 4 o ++ leBytes 4 w)
  | .setBytes buf s k => 0x12#8 :: (encodeString buf ++ encodeString s ++ leBytes 4 k)
  | .getBytes buf k n => 0x13#8 :: (encodeString buf ++ leBytes 4 k ++ leBytes 4 n)
  | .crc32 b => 0x14#8 :: b
  | .macEncode dest p none => 0x15#8 :: (dest.bytes ++ encodeString p ++ [encodeFlag false])
  | .macEncode dest p (some c) => 0x15#8 :: (dest.bytes ++ encodeString p ++ [encodeFlag true] ++ c.bytes)
  | .macDecode f => 0x16#8 :: f
  | .segment slot => 0x17#8 :: leBytes 4 slot
  | .reassemble b => 0x18#8 :: b
  | .sackEncode errs => 0x19#8 :: errs.map encodeFlag
  | .sackDecode s n => 0x1A#8 :: (encodeString s ++ leBytes 4 n)
  | .blockBuild ssn mbo f body =>
    0x1B#8 :: (leBytes 4 ssn.toNat ++ leBytes 2 mbo.toNat ++ [encodeFlag f] ++ body)
  | .mfhData len rest => mfhBytes false typeData len.toNat ++ rest
  | .mfhMgmt len rest => mfhBytes false typeMgmt len.toNat ++ rest
  | .mfhPad len rest => mfhBytes false typePad len.toNat ++ rest
  | .mfhReserved len rest => mfhBytes false typeReserved len.toNat ++ rest
  | .sackPayload bitmap => 0x15#8 :: bitmap
  | .phyBlockHeader hdr rest => headerBytes hdr ++ rest

/-! ## The opcode table's words -/

/-- How many operand bytes a code has at least: the operands are then numbers of value 0, empty strings,
and for BLOCK-BUILD a short body of zero bytes. -/
def operandBytes (c : Nat) : Nat :=
  match c with
  | 0x01 => 6
  | 0x02 => 6
  | 0x08 => 4
  | 0x10 => 16
  | 0x11 => 12
  | 0x12 => 12
  | 0x13 => 12
  | 0x15 => 11
  | 0x17 => 4
  | 0x1A => 8
  | 0x1B => 7 + bodyShort
  | _ => 0

/-- The port and message of a table word of `nbits` bits: 16 bits are an MFH, 32 bits a block header, and
any other width is a code with operand bytes of zero. The SACK tag has the width and the value of the
operation code 0x15, which the word is read as (log entry 9). -/
def tableMessage (nbits w : Nat) : Port × Bytes :=
  if nbits = 16 then (.mfh, leBytes 2 w)
  else if nbits = 32 then (.blockHeader, leBytes 4 w)
  else (.code, leBytes 1 w ++ zeros (operandBytes (w % 256)))

/-- The instruction the decoder reads from a table word. -/
def decodeTableWord (nbits w : Nat) : Option Instr :=
  match decode (tableMessage nbits w).1 (tableMessage nbits w).2 with
  | .ok i => some i
  | .error _ => none

end Sys2Proof
end

