-- ==== Sys2Proof/Machine/State.lean ====
section
/-! DEFINITION. Everything the block holds (10_state.md), its ports, the reasons a step can stop, and the
state after reset. INVENTORY.md lists each field with its rule and reset value. -/

namespace Sys2Proof.Machine

/-! ## The reasons a step stops -/

/-- The faults that stop the machine: none. No condition is unrecoverable (46_arq_fsm.md R315,
42_mac_frame.md R173), and the one fault of the spec, BoundsError, ends its operation and not the machine
(60_exceptions.md R372, R384): `State.raiseBounds` takes it (log entry 14). -/
inductive Fault where
  deriving DecidableEq, Repr

/-- The inputs a model refuses (93_implementation_defined.md). Each is safe: nothing is claimed of what
the block would do with such an input. -/
inductive Refusal where
  /-- `exec` refuses by name an instruction that has no meaning yet. Safe. -/
  | notModelled (mnemonic : String)
  /-- `step` refuses a message that is no instruction: a reserved code (30_encoding.md R107, R108) or
  operands outside their layout. Safe. -/
  | undecodable (why : DecodeError)
  /-- `step` refuses an input earlier than the one before it (decision D49). Safe. -/
  | timeWentBack (previous given : Nat)
  /-- SETFIELD and GETFIELD refuse a width above 32 (40_bitfield.md R136). Safe. -/
  | fieldTooWide (width : Nat)
  /-- SEGMENT refuses an operand that names no slot of the stream table (log entry 16). Safe. -/
  | noSuchStream (slot : Nat)
  deriving DecidableEq, Repr

/-! ## Events, reports and results -/

/-- The output events of 30_encoding.md R106. -/
inductive OutEvent where
  | sof (modulation roboMode : Nat) (payload : Bytes)
  | sound
  | sack (sackd : Bytes)
  | searchPpdu
  | appRx (payload : Bytes)
  | mgmtRx (mm : Bytes)
  | ready
  deriving DecidableEq, Repr

/-- The reports of 60_exceptions.md R373, one constructor per kind and sub-cause, with the info recorded. -/
inductive Report where
  | frameTooLong (len : Nat)
  | shortFrame (frameLength : Nat)
  | badType (type : Nat)
  | badLength (expected frameLength : Nat)
  | badBoundary (ssn : BitVec 16) (macBoundaryOffset : Nat)
  | badSackTag (firstByte : Option Byte)
  | shortSack (sackLength n : Nat)
  | macIcv (computed received : BitVec 32)
  | block (ssn : BitVec 16) (index : Nat)
  | gap (expected received : BitVec 16)
  | queueFull (dest : Addr)
  | noStream (dest : Addr)
  | sackTimeout (gen : BitVec 32)
  | sackResult (e : Nat)
  deriving DecidableEq, Repr

/-- What a BoundsError records: the bit offset, the width and the buffer length (R372). -/
structure BoundsError where
  bitOffset : Nat
  width : Nat
  bufferLength : Nat
  deriving DecidableEq, Repr

/-- The result of a datapath operation (30_encoding.md R108). -/
inductive OpResult where
  | none
  | buffer (buf : Bytes) (next : Nat)
  | value (v : BitVec 32)
  | bytes (b : Bytes)
  | frame (f : Option Bytes)
  | payload (p : Option (Bytes × Bool))
  | burst (b : Bytes) (n k : Nat)
  | blockErrors (errs : List Bool)
  | count (e : Option Nat)
  deriving DecidableEq, Repr

/-! ## State -/

/-- The state-machine register (10_state.md R31). -/
inductive Fsm where
  | waitingForApp
  | sendingSofOrSound
  | sendingSack
  | waitingForSack
  | waitingForSof
  deriving DecidableEq, Repr

/-- One slot of the stream table (10_state.md R40 to R43). -/
structure Stream where
  inUse : Bool
  dest : Addr
  nextSsn : BitVec 17
  pendingFrames : List Bytes
  remainder : Bytes
  deriving DecidableEq, Repr

/-- The incomplete-frame entry while it is valid (10_state.md R50). -/
structure Entry where
  key : BitVec 16
  data : Bytes
  deriving DecidableEq, Repr

/-- The status counters (10_state.md R47), each wrapping modulo 2^32. -/
structure Counters where
  format : BitVec 32
  integrityMac : BitVec 32
  integrityBlock : BitVec 32
  sequence : BitVec 32
  capacity : BitVec 32
  timeout : BitVec 32
  deriving DecidableEq, Repr

/-- The draws of one step (00_scope.md R16): the confounder (42_mac_frame.md R164) and the stream choice
(46_arq_fsm.md R302). Free inputs: nothing constrains them (log entries 4 and 19). -/
structure Draw where
  confounder : Confounder
  pick : Nat
  deriving DecidableEq, Repr

/-- One input event as the environment delivers it: its time (10_state.md R34), its draws, and the message
that is decoded (log entry 1). -/
structure Input where
  now : Nat
  draw : Draw
  port : Port
  bytes : Bytes
  deriving DecidableEq, Repr

/-- The state of the block, its configuration, and the model's own fields for its ports and inputs. -/
structure State where
  /-- The parameters of R9, written by no rule (10_state.md R32, log entry 3). -/
  cfg : Config
  /-- `state` (R31). -/
  fsm : Fsm
  /-- `last_sound_time`, `none` being NEVER (R35). -/
  lastSoundTime : Option (BitVec 64)
  /-- `last_received_ssn`, `none` being NONE (R36). -/
  lastReceivedSsn : Option (BitVec 16)
  /-- `last_frame_block_count` (R37). -/
  lastFrameBlockCount : BitVec 2
  /-- `timer_armed` (R38). -/
  timerArmed : Bool
  /-- `timer_gen` (R38). -/
  timerGen : BitVec 32
  /-- `timer_deadline` (R38). -/
  timerDeadline : BitVec 64
  /-- `rx_block_errors` (R39). -/
  rxBlockErrors : List Bool
  /-- `last_sack_errored` (R46). -/
  lastSackErrored : BitVec 32
  /-- The stream table (R40). -/
  streams : List Stream
  /-- `inflight` (R45). -/
  inflight : Nat
  /-- `full` (R45). -/
  full : Bool
  /-- The incomplete entry, `none` being `entry_valid = 0` (R50). -/
  entry : Option Entry
  /-- The counters (R47). -/
  counters : Counters
  /-- The model's: the time of the input being handled, or of the last one handled (R34). -/
  now : Nat
  /-- The model's: the draws of the input being handled, or of the last one handled. -/
  draw : Draw
  /-- The model's: the inputs delivered and not handled yet, in arrival order (20_memory.md R81). -/
  inbox : List Input
  /-- The model's: the output events of the last step, in order (R78). -/
  outputs : List OutEvent
  /-- The model's: the report port's records of the last step, in order (60_exceptions.md R371). -/
  reports : List Report
  /-- The model's: the result of the last step's datapath operation. -/
  result : OpResult
  /-- The model's: the record of a BoundsError raised in the last step (R372). -/
  boundsFault : Option BoundsError
  deriving DecidableEq, Repr

/-! ## Reset -/

/-- A free slot, and a slot just allocated but for its key (R40 to R43). The key of a free slot is never
read (DESIGN CHOICE, log entry 5). -/
def Stream.free : Stream where
  inUse := false
  dest := Addr.zero
  nextSsn := 0
  pendingFrames := []
  remainder := []

/-- Every counter at 0 (R47). -/
def Counters.zero : Counters := ⟨0, 0, 0, 0, 0, 0⟩

/-- `state` after reset, by role (R31). -/
def resetFsm : Role → Fsm
  | .master => .waitingForApp
  | .slave => .waitingForSof

/-- The state after power-up of a node with configuration `cfg` (70_reset_and_hazards.md R400, R401).
`timer_deadline` is unspecified there and never read while the timer is not armed (DESIGN CHOICE, log
entry 5); the environment has delivered nothing yet (log entries 1, 4 and 7). -/
def State.resetOf (cfg : Config) : State where
  cfg := cfg
  fsm := resetFsm cfg.role
  lastSoundTime := none
  lastReceivedSsn := none
  lastFrameBlockCount := 0
  timerArmed := false
  timerGen := 0
  timerDeadline := 0
  rxBlockErrors := []
  lastSackErrored := 0
  streams := List.replicate cfg.nStreams Stream.free
  inflight := 0
  full := false
  entry := none
  counters := Counters.zero
  now := 0
  draw := ⟨Confounder.zero, 0⟩
  inbox := []
  outputs := []
  reports := []
  result := .none
  boundsFault := none

/-- The state after reset of the default configuration (log entry 3). -/
def State.reset : State := State.resetOf Config.default

end Sys2Proof.Machine
end

