-- ==== Sys2Proof/Machine/Ops.lean ====
section
/-! DEFINITION. The operations every unit shares: emitting an output event, reporting, taking the one
fault, and the ports of a step (00_scope.md R15, 60_exceptions.md R370 to R373). -/

namespace Sys2Proof.Machine

/-! ## Output events and results -/

/-- The code of an output event (30_encoding.md R106). -/
def OutEvent.code : OutEvent → Byte
  | .sof _ _ _ => 0x20#8
  | .sound => 0x21#8
  | .sack _ => 0x22#8
  | .searchPpdu => 0x23#8
  | .appRx _ => 0x24#8
  | .mgmtRx _ => 0x25#8
  | .ready => 0x26#8

/-- `emit E` (R15): the event is appended to the step's output list. -/
def State.emit (s : State) (e : OutEvent) : State := { s with outputs := s.outputs ++ [e] }

/-- The `sof` event of a burst: modulation and robo mode are the configuration's (R106, decision D30). -/
def State.emitSof (s : State) (burst : Bytes) : State :=
  s.emit (.sof s.cfg.sofModulation s.cfg.sofRoboMode burst)

/-- A datapath operation's result on the result port (30_encoding.md R108, log entry 15). -/
def State.setResult (s : State) (r : OpResult) : State := { s with result := r }

/-! ## Reports -/

/-- The code of a report (R373). -/
def Report.code : Report → BitVec 4
  | .frameTooLong _ | .shortFrame _ | .badType _ | .badLength _ _ | .badBoundary _ _ | .badSackTag _
  | .shortSack _ _ => 0x1#4
  | .macIcv _ _ | .block _ _ => 0x2#4
  | .gap _ _ => 0x3#4
  | .queueFull _ | .noStream _ => 0x4#4
  | .sackTimeout _ => 0x5#4
  | .sackResult _ => 0x6#4

/-- The code of the one fault (R373). -/
def BoundsError.code : BitVec 4 := 0xF#4

/-- The counters after a report: its kind's counter plus one, wrapping; SackResult has none (R47, R373). -/
def Counters.bump (c : Counters) : Report → Counters
  | .frameTooLong _ | .shortFrame _ | .badType _ | .badLength _ _ | .badBoundary _ _ | .badSackTag _
  | .shortSack _ _ => { c with format := c.format + 1 }
  | .macIcv _ _ => { c with integrityMac := c.integrityMac + 1 }
  | .block _ _ => { c with integrityBlock := c.integrityBlock + 1 }
  | .gap _ _ => { c with sequence := c.sequence + 1 }
  | .queueFull _ | .noStream _ => { c with capacity := c.capacity + 1 }
  | .sackTimeout _ => { c with timeout := c.timeout + 1 }
  | .sackResult _ => c

/-- `report K(info)` (R15, R370, R371): the counter of the kind and the report port, nothing else. -/
def State.report (s : State) (r : Report) : State :=
  { s with counters := s.counters.bump r, reports := s.reports ++ [r] }

/-- Reports made in order. -/
def State.reportAll (s : State) (rs : List Report) : State := rs.foldl State.report s

/-! ## The one fault -/

/-- `raise BoundsError(info)` (R372, R384): the operation is abandoned with no result and no state
changed; the offset, the width and the buffer length are recorded. There is no vector, no saved state and
no mode, and so no return from it (R385). -/
def State.raiseBounds (s : State) (b : BoundsError) : State := { s with boundsFault := some b }

/-! ## Time and the ports of a step -/

/-- A tick count written to a 64-bit tick register (10_state.md R35, R38). A count of 2^64 or more does not
fit and the spec states no result for it: a free value (log entry 6). -/
def tick64 (n : Nat) : BitVec 64 := if n < 2 ^ 64 then BitVec.ofNat 64 n else Config.tickOverflow n

/-- The ports of a step before it has put anything on them. -/
def State.clearPorts (s : State) : State :=
  { s with outputs := [], reports := [], result := .none, boundsFault := none }

/-- The state in which the oldest input, taken from the inbox, is handled: its time and draws are latched
and the ports are clear (log entry 1). -/
def State.beginStep (s : State) (i : Input) (later : List Input) : State :=
  { s.clearPorts with now := i.now, draw := i.draw, inbox := later }

/-! ## Reset -/

/-- The state a RESET leaves (70_reset_and_hazards.md R400, R401): every piece of the block's state at its
reset value; the configuration, the environment's side and the ports as they are (log entry 28). -/
def State.resetBlock (s : State) : State :=
  { State.resetOf s.cfg with
    now := s.now, draw := s.draw, inbox := s.inbox,
    outputs := s.outputs, reports := s.reports, result := s.result, boundsFault := s.boundsFault }

/-! ## The observation port -/

/-- The read-only view of 10_state.md R48. -/
structure Observation where
  state : Fsm
  inflight : Nat
  full : Bool
  lastSackErrored : BitVec 32
  lastFrameBlockCount : BitVec 2
  lastReceivedSsn : Option (BitVec 16)
  timerArmed : Bool
  counters : Counters
  deriving DecidableEq, Repr

/-- What the observation port exposes (R48). -/
def State.observe (s : State) : Observation where
  state := s.fsm
  inflight := s.inflight
  full := s.full
  lastSackErrored := s.lastSackErrored
  lastFrameBlockCount := s.lastFrameBlockCount
  lastReceivedSsn := s.lastReceivedSsn
  timerArmed := s.timerArmed
  counters := s.counters

/-- The numeric code of `state` (10_state.md R31). -/
def Fsm.code : Fsm → BitVec 3
  | .waitingForApp => 0#3
  | .sendingSofOrSound => 1#3
  | .sendingSack => 2#3
  | .waitingForSack => 3#3
  | .waitingForSof => 4#3

end Sys2Proof.Machine
end

