-- ==== Sys2Proof/Machine/Crc.lean ====
section
/-! DEFINITION. The CRC32 generator (41_crc32.md), with the five parameters of R151. The default parameters
give the loop of R150. For the others the model reads the parameters as the usual CRC catalogue does
(PRESUMED, log entry 21). -/

namespace Sys2Proof.Machine

/-- `k` shifts of the reflected register with the reversed polynomial (R150). -/
def crcShiftRight (poly : BitVec 32) : Nat → BitVec 32 → BitVec 32
  | 0, c => c
  | k + 1, c => crcShiftRight poly k (if c.getLsbD 0 then (c >>> 1) ^^^ poly else c >>> 1)

/-- One byte into the reflected register (R150). -/
def crcByteRight (poly c : BitVec 32) (x : Byte) : BitVec 32 :=
  crcShiftRight poly 8 (c ^^^ x.setWidth 32)

/-- `k` shifts of the unreflected register. -/
def crcShiftLeft (poly : BitVec 32) : Nat → BitVec 32 → BitVec 32
  | 0, c => c
  | k + 1, c => crcShiftLeft poly k (if c.getLsbD 31 then (c <<< 1) ^^^ poly else c <<< 1)

/-- One byte into the unreflected register, most significant bit first. -/
def crcByteLeft (poly c : BitVec 32) (x : Byte) : BitVec 32 :=
  crcShiftLeft poly 8 (c ^^^ (x.setWidth 32 <<< 24))

/-- `k c`, written so that Lean's kernel evaluates `c` first and a long string does not pile up unevaluated
registers (`withRegister_eq`). -/
def withRegister {α : Type} (c : BitVec 32) (k : BitVec 32 → α) : α :=
  match c.toNat with
  | 0 => k 0#32
  | n + 1 => k (BitVec.ofNat 32 (n + 1))

/-- The register after the bytes of `b`, lowest offset first: a left fold (`crcFold_eq`). -/
def crcFold (byteStep : BitVec 32 → Byte → BitVec 32) : Bytes → BitVec 32 → BitVec 32
  | [], c => c
  | x :: b, c => withRegister (byteStep c x) (crcFold byteStep b)

/-- The register after every byte, before the output reflection and XOR. -/
def crcRegister (a : CrcAlgo) (b : Bytes) : BitVec 32 :=
  if a.refIn then crcFold (crcByteRight a.poly.reverse) b a.init.reverse
  else crcFold (crcByteLeft a.poly) b a.init

/-- `crc32(b)` under `CRC_ALGO` (R150, R151). The reflected register already holds a reflected output. -/
def crc32 (a : CrcAlgo) (b : Bytes) : BitVec 32 :=
  (if a.refIn = a.refOut then crcRegister a b else (crcRegister a b).reverse) ^^^ a.xorOut

/-- CRC32 (R150). -/
def execCrc32 (b : Bytes) (s : State) : Host.Outcome State Fault Refusal :=
  .next (s.setResult (.value (crc32 s.cfg.crc b)))

end Sys2Proof.Machine
end

