-- ==== Sys2Proof/Machine/MacFrame.lean ====
section
/-! DEFINITION. The MAC-frame encoder and decoder (42_mac_frame.md), the delivery of a received frame
(44_reassembler.md R249), and the wire tags that begin a MAC frame (30_encoding.md R97, R98). -/

namespace Sys2Proof.Machine

/-- `C` of R91: the length of the confounder, if there is one. -/
def confounderLength (confounder : Option Confounder) : Nat :=
  match confounder with
  | none => 0
  | some _ => confounderLen

/-- The bytes of a frame that its ICV covers: confounder, dest, src, reserved, payload (R91, R153). -/
def macCovered (cfg : Config) (dest : Addr) (payload : Bytes) (confounder : Option Confounder) : Bytes :=
  ((confounder.map Confounder.bytes).getD []) ++ dest.bytes ++ cfg.localAddr.bytes ++ zeros reservedLen ++ payload

/-- `len` of a frame (R99): `P + C + 13`. -/
def macLen (payload : Bytes) (confounder : Option Confounder) : Nat :=
  payload.length + confounderLength confounder + (mfhSize + 2 * addrLen + reservedLen + icvLen) - lenBias

/-- `MAC-ENCODE` (R160 to R167): a management frame when there is a confounder, else a data frame. -/
def macEncode (cfg : Config) (dest : Addr) (payload : Bytes) (confounder : Option Confounder) :
    Except Report Bytes :=
  if macLen payload confounder > lenMax then .error (.frameTooLong (macLen payload confounder))
  else
    .ok (mfhBytes cfg.mfhTypeAtLsb (if confounder.isSome then typeMgmt else typeData) (macLen payload confounder)
      ++ macCovered cfg dest payload confounder
      ++ checkBytes (crc32 cfg.crc (macCovered cfg dest payload confounder)))

/-- `MAC-DECODE` (R168 to R172): the payload and whether it is management, or the first check that fails. -/
def macDecode (cfg : Config) (f : Bytes) : Except Report (Bytes × Bool) :=
  if f.length < mfhSize then .error (.shortFrame f.length)
  else if mfhType cfg.mfhTypeAtLsb f ≠ typeData ∧ mfhType cfg.mfhTypeAtLsb f ≠ typeMgmt then
    .error (.badType (mfhType cfg.mfhTypeAtLsb f))
  else
    let t := mfhLen cfg.mfhTypeAtLsb f + lenBias
    let mgmt := mfhType cfg.mfhTypeAtLsb f == typeMgmt
    let c := if mgmt then confounderLen else 0
    if f.length ≠ t then .error (.badLength t f.length)
    else if t < c + 20 then .error (.shortFrame f.length)
    else
      let computed := crc32 cfg.crc (slice f mfhSize (t - icvLen))
      let received := checkValue (f.drop (t - icvLen))
      if computed ≠ received then .error (.macIcv computed received)
      else .ok (slice f (16 + c) (t - icvLen), mgmt)

/-- `deliver` (44_reassembler.md R249): a decoded frame goes to the APP peer or the management port, a
rejected one is only reported. There is no address filtering (R172). -/
def State.deliver (s : State) (f : Bytes) : State :=
  match macDecode s.cfg f with
  | .ok (p, false) => s.emit (.appRx p)
  | .ok (p, true) => s.emit (.mgmtRx p)
  | .error r => s.report r

/-- MAC-ENCODE (R160): the frame, or none and its report. -/
def execMacEncode (dest : Addr) (payload : Bytes) (confounder : Option Confounder) (s : State) :
    Host.Outcome State Fault Refusal :=
  match macEncode s.cfg dest payload confounder with
  | .ok f => .next (s.setResult (.frame (some f)))
  | .error r => .next ((s.report r).setResult (.frame none))

/-- MAC-DECODE (R168): payload and kind, or none and the report. -/
def execMacDecode (f : Bytes) (s : State) : Host.Outcome State Fault Refusal :=
  match macDecode s.cfg f with
  | .ok p => .next (s.setResult (.payload (some p)))
  | .error r => .next ((s.report r).setResult (.payload none))

/-! The wire tags of a MAC frame (log entry 11): the frame that the MFH begins is received, "decoded;
payload delivered" or rejected by the decoder (30_encoding.md R98, R246). The MFH is the table's word,
which the decoder reads in the configured layout (log entry 25). -/

/-- MFH-DATA (R97, R98): the frame is decoded and its payload delivered to the APP peer. -/
def execMfhData (len : BitVec 14) (rest : Bytes) (s : State) : Host.Outcome State Fault Refusal :=
  .next (s.deliver (mfhBytes false typeData len.toNat ++ rest))

/-- MFH-MGMT (R97, R98): the frame is decoded and its payload delivered to the management port. -/
def execMfhMgmt (len : BitVec 14) (rest : Bytes) (s : State) : Host.Outcome State Fault Refusal :=
  .next (s.deliver (mfhBytes false typeMgmt len.toNat ++ rest))

/-- MFH-PAD (R98): a decode of such a frame reports FormatError. -/
def execMfhPad (len : BitVec 14) (rest : Bytes) (s : State) : Host.Outcome State Fault Refusal :=
  .next (s.deliver (mfhBytes false typePad len.toNat ++ rest))

/-- MFH-RESERVED (R98, R169): rejected as FormatError. -/
def execMfhReserved (len : BitVec 14) (rest : Bytes) (s : State) : Host.Outcome State Fault Refusal :=
  .next (s.deliver (mfhBytes false typeReserved len.toNat ++ rest))

end Sys2Proof.Machine
end

