-- ==== Sys2Proof/Machine/Reassembler.lean ====
section
/-! DEFINITION. The block-boundary reassembler (44_reassembler.md), the operation REASSEMBLE and the wire
tag PHY-BLOCK-HEADER (30_encoding.md R93). -/

namespace Sys2Proof.Machine

/-! ## Blocks of a burst -/

/-- The body size of a burst of `l` bytes (R231, 30_encoding.md R101). -/
def burstBodySize (l : Nat) : Nat := if l > bodyShort + blockOverhead then bodyLong else bodyShort

/-- The first `n` pieces of `size` bytes. -/
def chunks (size : Nat) : Nat → Bytes → List Bytes
  | 0, _ => []
  | n + 1, b => b.take size :: chunks size n (b.drop size)

/-- The whole blocks of a burst; trailing bytes are ignored (R231). -/
def burstBlocks (burst : Bytes) : List Bytes :=
  let size := burstBodySize burst.length + blockOverhead
  chunks size (burst.length / size) burst

/-- The sequence number of a block. -/
def blockSsn (blk : Bytes) : BitVec 16 := (headerFields blk).ssn

/-- Whether a block with body size `size` passes its block check (R232, 41_crc32.md R154, R155). -/
def blockOk (a : CrcAlgo) (size : Nat) (blk : Bytes) : Bool :=
  crc32 a (slice blk 0 (size + blockHdrLen)) == checkValue (blk.drop (size + blockHdrLen))

/-! ## One block -/

/-- Continuity (R233): a gap is reported, and nothing is checked before the first block. -/
def State.checkSequence (s : State) (ssn : BitVec 16) : State :=
  match s.lastReceivedSsn with
  | none => s
  | some l => if ssn = l + 1 then s else s.report (.gap (l + 1) ssn)

/-- The entry is discarded when its key satisfies `p` (R235, R238). -/
def State.dropEntryIf (s : State) (p : BitVec 16 → Bool) : State :=
  match s.entry with
  | none => s
  | some e => if p e.key then { s with entry := none } else s

/-- The continuation region of a block given to the entry waiting for it (R239 to R243): completion, or
discard at a boundary, or carrying over to the next sequence number. -/
def State.continueEntry (s : State) (ssn : BitVec 16) (boundary : Bool) (region : Bytes) : State :=
  match s.entry with
  | none => s
  | some e =>
    let data := e.data ++ region
    match expectedLength s.cfg.mfhTypeAtLsb data with
    | some t =>
      if t ≤ data.length then { s.deliver (data.take t) with entry := none }
      else { s with entry := if boundary then none else some ⟨ssn + 1, data⟩ }
    | none => { s with entry := if boundary then none else some ⟨ssn + 1, data⟩ }

/-- The scan of R244 to R248 over `rest`, the body from `p` on: a single byte or a partial frame becomes an
entry with key `key`, padding ends the scan, a whole frame is delivered. Each frame takes 7 bytes or more,
so `fuel` of `rest.length` is never used up. -/
def scanFrames (key : BitVec 16) : Nat → Bytes → State → State
  | 0, _, s => s
  | _ + 1, [], s => s
  | _ + 1, [b], s => { s with entry := some ⟨key, [b]⟩ }
  | fuel + 1, b0 :: b1 :: r, s =>
    let rest := b0 :: b1 :: r
    if mfhType s.cfg.mfhTypeAtLsb rest = typePad then s
    else
      let t := mfhLen s.cfg.mfhTypeAtLsb rest + lenBias
      if t ≤ rest.length then scanFrames key fuel (rest.drop t) (s.deliver (rest.take t))
      else { s with entry := some ⟨key, rest⟩ }

/-- The body of a block that passed its check (R236 to R248). -/
def State.receiveBody (s : State) (h : BlockHeader) (body : Bytes) : State :=
  let mbo := h.macBoundaryOffset.toNat
  if h.macBoundaryFlag ∧ mbo ≥ body.length then
    { s.report (.badBoundary h.ssn mbo) with entry := none }
  else
    let region := if h.macBoundaryFlag then body.take mbo else body
    let s := s.dropEntryIf (fun key => key != h.ssn)
    let s := s.continueEntry h.ssn h.macBoundaryFlag region
    if h.macBoundaryFlag then scanFrames (h.ssn + 1) body.length (body.drop mbo) s else s

/-- One whole block, the `index`-th of its burst (the loop body of R230). -/
def State.receiveBlock (s : State) (size index : Nat) (blk : Bytes) : State :=
  let h := headerFields blk
  let s := { s.checkSequence h.ssn with lastReceivedSsn := some h.ssn }
  if blockOk s.cfg.crc size blk then s.receiveBody h (slice blk blockHdrLen (blockHdrLen + size))
  else (s.report (.block h.ssn index)).dropEntryIf (fun key => key == h.ssn)

/-- The blocks of a burst from the `index`-th on, in order. -/
def State.receiveBlocks (size : Nat) : Nat → List Bytes → State → State
  | _, [], s => s
  | index, blk :: blks, s => receiveBlocks size (index + 1) blks (s.receiveBlock size index blk)

/-- The block-error list of a burst, `true` for a block that fails its check (R250). -/
def burstErrors (a : CrcAlgo) (burst : Bytes) : List Bool :=
  (burstBlocks burst).map fun blk => !blockOk a (burstBodySize burst.length) blk

/-- `REASSEMBLE(payload)` (R230). -/
def State.reassemble (s : State) (burst : Bytes) : State :=
  { State.receiveBlocks (burstBodySize burst.length) 0 (burstBlocks burst) s with
    rxBlockErrors := burstErrors s.cfg.crc burst }

/-- REASSEMBLE (R230) on the receive registers, its deliveries emitted (log entry 17). -/
def execReassemble (burst : Bytes) (s : State) : Host.Outcome State Fault Refusal :=
  .next ((s.reassemble burst).setResult (.blockErrors (burstErrors s.cfg.crc burst)))

/-- The PHY-BLOCK-HEADER wire tag (30_encoding.md R92, R93): the burst it begins is received (log entry 13).
The flags `valid`, `mgmt_queue_flag`, `oldest_ssn_flag` and the reserved bits are ignored (R93, R109). -/
def execPhyBlockHeader (hdr : BlockHeader) (rest : Bytes) (s : State) : Host.Outcome State Fault Refusal :=
  .next ((s.reassemble (headerBytes hdr ++ rest)).setResult
    (.blockErrors (burstErrors s.cfg.crc (headerBytes hdr ++ rest))))

end Sys2Proof.Machine
end

