-- ==== Sys2Proof/Machine/Sack.lean ====
section
/-! DEFINITION. The SACK bitmap encoder and decoder (45_sack.md) and the SACK wire tag (30_encoding.md
R95). -/

namespace Sys2Proof.Machine

/-- The bytes of a bitmap of `n` flags: `ceil(n/8)` (R95). -/
def bitmapLength (n : Nat) : Nat := (n + 7) / 8

/-- The flags written one bit each from bit offset `p` up (the loop of R270). -/
def writeFlags (buf : Bytes) (p : Nat) : List Bool → Bytes
  | [] => buf
  | e :: es => writeFlags (writeBits buf e.toNat p 1) (p + 1) es

/-- `SACK-ENCODE(errs)` (R270 to R272). -/
def sackEncode (errs : List Bool) : Bytes :=
  writeFlags (writeBits (zeros (1 + bitmapLength errs.length)) sackTag 0 8) 8 errs

/-- The number of flags set among the first `n` (the loop of R273). -/
def countFlags (s : Bytes) : Nat → Nat
  | 0 => 0
  | n + 1 => countFlags s n + readBits s (8 + n) 1

/-- `SACK-DECODE(s, n)` (R273 to R275): the errored count, or the report of a malformed SACK. -/
def sackDecode (s : Bytes) (n : Nat) : Except Report Nat :=
  if s.length < 1 ∨ readBits s 0 8 ≠ sackTag then .error (.badSackTag s.head?)
  else if s.length < 1 + bitmapLength n then .error (.shortSack s.length n)
  else .ok (countFlags s n)

/-- The reports of SACK-DECODE: the malformed SACK's, or `SackResult(e)` when `e > 0` (R273, R276). -/
def sackReports (r : Except Report Nat) : List Report :=
  match r with
  | .error e => [e]
  | .ok e => if e > 0 then [.sackResult e] else []

/-- SACK-ENCODE (R270). -/
def execSackEncode (errs : List Bool) (s : State) : Host.Outcome State Fault Refusal :=
  .next (s.setResult (.bytes (sackEncode errs)))

/-- SACK-DECODE (R273): the count or none, and its reports. -/
def execSackDecode (sackd : Bytes) (n : Nat) (s : State) : Host.Outcome State Fault Refusal :=
  .next ((s.reportAll (sackReports (sackDecode sackd n))).setResult (.count (sackDecode sackd n).toOption))

/-- The SACK wire tag (R95): the SACK it begins is decoded for the block count of the last transmission
(R277, log entry 12). -/
def execSackPayload (bitmap : Bytes) (s : State) : Host.Outcome State Fault Refusal :=
  let r := sackDecode (0x15#8 :: bitmap) s.lastFrameBlockCount.toNat
  .next ((s.reportAll (sackReports r)).setResult (.count r.toOption))

end Sys2Proof.Machine
end

