-- ==== Sys2Proof/Machine/Flags.lean ====
section
/-! DEFINITION. The single-bit status flags of 10_state.md R53 and the conditions that set and clear them:
`full` (47_txqueue_mgmt_interface.md R340 to R345), `timer_armed` (46_arq_fsm.md R308, R309) and the
sounding condition (R300, R301). `sound_valid`, `rx_ssn_valid` and `entry_valid` are the options of their
registers. -/

namespace Sys2Proof.Machine

/-- The count and the flag after a submission is accepted (R340, R341, R343): `inflight` plus one, then
`full` at the limit and READY below it. -/
def State.countAccepted (s : State) : State :=
  if s.inflight + 1 ≥ maxFramesInBuffer then { s with inflight := s.inflight + 1, full := true }
  else { s with inflight := s.inflight + 1 }.emit .ready

/-- Clearing backpressure after a drain (R345). -/
def State.clearBackpressure (s : State) : State :=
  if s.full ∧ s.inflight < maxFramesInBuffer then { s with full := false }.emit .ready else s

/-- `ARM-TIMER()` (46_arq_fsm.md R308). -/
def State.armTimer (s : State) : State :=
  { s with
    timerGen := s.timerGen + 1
    timerArmed := true
    timerDeadline := tick64 (s.now + s.cfg.sackTimeoutTicks) }

/-- `DISARM-TIMER()` (R309). -/
def State.disarmTimer (s : State) : State := { s with timerArmed := false }

/-- Whether an expiry with generation `gen` takes effect now (R306, R307). -/
def State.expiryValid (s : State) (gen : BitVec 32) : Bool :=
  s.timerArmed && gen == s.timerGen && decide (s.timerDeadline.toNat ≤ s.now)

/-- Whether a sound is due (R300, R301): never sounded, or strictly more than the period has passed. -/
def State.soundDue (s : State) : Bool :=
  match s.lastSoundTime with
  | none => true
  | some t => decide (t.toNat + s.cfg.soundPeriodTicks < s.now)

end Sys2Proof.Machine
end

