-- ==== Sys2Proof/Machine/Segmenter.lean ====
section
/-! DEFINITION. The PHY-block segmenter (43_segmenter.md): block building, the pending byte count, one
block cut, one segmentation invocation, and the operations SEGMENT and BLOCK-BUILD. -/

namespace Sys2Proof.Machine

/-! ## Blocks -/

/-- The header fields the segmenter writes (R197, 30_encoding.md R93): `ssn` its low 16 bits, the boundary
or 0, `valid` 1, the other flags and the reserved bits 0. -/
def segmentHeader (ssn : Nat) (boundary : Option Nat) : BlockHeader where
  ssn := BitVec.ofNat 16 ssn
  macBoundaryOffset := BitVec.ofNat 9 (boundary.getD 0)
  valid := true
  mgmtQueueFlag := false
  macBoundaryFlag := boundary.isSome
  oldestSsnFlag := false
  reserved := 0

/-- A block of a header and a body with its block check over both (R198, 41_crc32.md R154). -/
def blockBytes (a : CrcAlgo) (h : BlockHeader) (body : Bytes) : Bytes :=
  headerBytes h ++ body ++ checkBytes (crc32 a (headerBytes h ++ body))

/-- `BLOCK-BUILD(ssn, boundary, body)` (R197). -/
def blockBuild (a : CrcAlgo) (ssn : Nat) (boundary : Option Nat) (body : Bytes) : Bytes :=
  blockBytes a (segmentHeader ssn boundary) body

/-! ## Streams -/

/-- The bytes a stream will still emit, in order (10_state.md R44). -/
def Stream.pendingBytes (st : Stream) : Bytes := st.remainder ++ st.pendingFrames.flatten

/-- `pending(s)` (R191). -/
def Stream.pending (st : Stream) : Nat := st.remainder.length + (st.pendingFrames.map List.length).sum

/-- Stream append (R190). -/
def Stream.append (st : Stream) (f : Bytes) : Stream := { st with pendingFrames := st.pendingFrames ++ [f] }

/-! ## Cutting one block -/

/-- A block body being filled: the stream's queue and remainder, the body so far, the first boundary, and
the frames fully consumed. -/
structure Fill where
  queue : List Bytes
  remainder : Bytes
  body : Bytes
  boundary : Option Nat
  k : Nat
  deriving DecidableEq, Repr

/-- The start of a block: what fits of the remainder (R192 step 1, R200). -/
def fillRemainder (size : Nat) (st : Stream) : Fill where
  queue := st.pendingFrames
  remainder := st.remainder.drop size
  body := st.remainder.take size
  boundary := none
  k := if st.remainder ≠ [] ∧ st.remainder.drop size = [] then 1 else 0

/-- Whole queued frames, and the part that fits of the last, while the body is not full (R192, R194): the
frames are `queue`, in order. -/
def fillFrames (size : Nat) (queue : List Bytes) (a : Fill) : Fill :=
  match queue with
  | [] => { a with queue := [] }
  | f :: fs =>
    if a.body.length < size then
      fillFrames size fs
        { queue := fs
          remainder := f.drop (size - a.body.length)
          body := a.body ++ f.take (size - a.body.length)
          boundary := a.boundary.or (some a.body.length)
          k := if f.drop (size - a.body.length) = [] then a.k + 1 else a.k }
    else { a with queue := f :: fs }

/-- The filled body of the next block, not yet padded (R192). -/
def fillBlock (size : Nat) (st : Stream) : Fill := fillFrames size st.pendingFrames (fillRemainder size st)

/-- A body padded with zero bytes to the body size (R196). -/
def padBody (size : Nat) (body : Bytes) : Bytes := body ++ zeros (size - body.length)

/-- `next_ssn` after a block (R199, R203). -/
def nextSsn (m : SsnMod) (ssn : BitVec 17) : BitVec 17 := BitVec.ofNat 17 ((ssn.toNat + 1) % m.toNat)

/-- The block a stream emits next (R192, R197). -/
def cutBlock (cfg : Config) (size : Nat) (st : Stream) : Bytes :=
  blockBuild cfg.crc st.nextSsn.toNat (fillBlock size st).boundary (padBody size (fillBlock size st).body)

/-- The stream after its next block is cut (R192, R199). -/
def afterCut (cfg : Config) (size : Nat) (st : Stream) : Stream :=
  { st with
    remainder := (fillBlock size st).remainder
    pendingFrames := (fillBlock size st).queue
    nextSsn := nextSsn cfg.ssnMod st.nextSsn }

/-! ## One invocation -/

/-- The results of SEGMENT and the stream it leaves (R192). -/
structure Segmented where
  stream : Stream
  burst : Bytes
  n : Nat
  k : Nat
  deriving DecidableEq, Repr

/-- The loop of R192: at most `m` more blocks of body size `size`, stopping early when nothing is pending. -/
def segmentLoop (cfg : Config) (size : Nat) : Nat → Segmented → Segmented
  | 0, r => r
  | m + 1, r =>
    if r.stream.pending = 0 then r
    else segmentLoop cfg size m
      { stream := afterCut cfg size r.stream
        burst := r.burst ++ cutBlock cfg size r.stream
        n := r.n + 1
        k := r.k + (fillBlock size r.stream).k }

/-- The body size of an invocation (R193). -/
def bodySize (st : Stream) : Nat := if st.pending < shortThreshold then bodyShort else bodyLong

/-- `SEGMENT(s)` (R192): a stream with nothing pending gives an empty result. -/
def segment (cfg : Config) (st : Stream) : Segmented :=
  segmentLoop cfg (bodySize st) maxSegments ⟨st, [], 0, 0⟩

/-- SEGMENT (R192) on the stream of one slot. It writes the stream only: `inflight` follows the drains of
the send path (log entry 16). -/
def execSegment (slot : Nat) (s : State) : Host.Outcome State Fault Refusal :=
  match s.streams[slot]? with
  | none => .refused (.noSuchStream slot)
  | some st =>
    let r := segment s.cfg st
    .next ({ s with streams := s.streams.set slot r.stream }.setResult (.burst r.burst r.n r.k))

/-- BLOCK-BUILD (R197): the boundary operand is NONE when the flag is 0, and of the counter value `ssn` the
header holds the low 16 bits (R203). -/
def execBlockBuild (ssn : BitVec 17) (mbo : BitVec 9) (boundary : Bool) (body : Bytes) (s : State) :
    Host.Outcome State Fault Refusal :=
  .next (s.setResult (.bytes
    (blockBuild s.cfg.crc ssn.toNat (if boundary then some mbo.toNat else none) body)))

end Sys2Proof.Machine
end

