-- ==== Sys2Proof/Machine/TxQueue.lean ====
section
/-! DEFINITION. The transmission queue at the block's interface (47_txqueue_mgmt_interface.md R340 to R346):
stream allocation, the acceptance of a submission and the drain. -/

namespace Sys2Proof.Machine

/-! ## Streams -/

/-- The slot in use for `dest`, else the lowest-numbered free slot (R346). -/
def streamFor (streams : List Stream) (dest : Addr) : Option Nat :=
  (streams.findIdx? fun st => st.inUse && st.dest == dest).or (streams.findIdx? fun st => !st.inUse)

/-- A slot allocated to `dest` (R346). -/
def Stream.allocate (dest : Addr) : Stream := { Stream.free with inUse := true, dest := dest }

/-- A slot as `stream_for(dest)` returns it: allocated if it was free (R346). -/
def Stream.claim (st : Stream) (dest : Addr) : Stream := if st.inUse then st else Stream.allocate dest

/-- A frame appended to the stream of a slot, which is allocated to `dest` if it was free (R190, R346). -/
def State.enqueue (s : State) (slot : Nat) (dest : Addr) (f : Bytes) : State :=
  { s with streams := s.streams.modify slot fun st => (st.claim dest).append f }

/-! ## Submissions -/

/-- Why a submission is rejected, or its frame and slot: the full flag, the encoder, the stream table, in
this order (46_arq_fsm.md R293, R342, R346). -/
def State.acceptable (s : State) (dest : Addr) (payload : Bytes) (confounder : Option Confounder) :
    Except Report (Bytes × Nat) :=
  if s.full then .error (.queueFull dest)
  else match macEncode s.cfg dest payload confounder with
    | .error r => .error r
    | .ok f => match streamFor s.streams dest with
      | none => .error (.noStream dest)
      | some slot => .ok (f, slot)

/-! ## The drain -/

/-- The slots whose stream has queued data (43_segmenter.md R191), in slot order. -/
def State.readySlots (s : State) : List Nat :=
  (List.range s.streams.length).filter fun i => decide (0 < ((s.streams[i]?).map Stream.pending).getD 0)

/-- The slot a burst serves: a draw over the slots with queued data (46_arq_fsm.md R302, log entry 19). -/
def State.drawSlot (s : State) : Option Nat := s.readySlots[s.draw.pick % s.readySlots.length]?

/-- The segmenter's results taken into the queue (R344): the stream left, and `inflight` less the frames
fully consumed, which are never more (R344, log entry 18). -/
def State.drain (s : State) (slot : Nat) (r : Segmented) : State :=
  { s with streams := s.streams.set slot r.stream, inflight := s.inflight - r.k }

end Sys2Proof.Machine
end

