-- ==== Sys2Proof/Machine/Arq.lean ====
section
/-! DEFINITION. The ARQ state machine (46_arq_fsm.md): the send path and the handler of every input event
(30_encoding.md R105), dispatched on `state` as R292 says. An event with no handler in a state is ignored
(R310). -/

namespace Sys2Proof.Machine

/-! ## The send path -/

/-- `SEND-SOUND()` (R301). -/
def State.sendSound (s : State) : State :=
  { s with
    lastSoundTime := some (tick64 s.now)
    lastFrameBlockCount := 0
    fsm := .sendingSofOrSound }.emit .sound

/-- `SEND-SOF(s)` on the stream of a slot (R303): drain, `sof`, then the READY that clears backpressure. -/
def State.sendSof (s : State) (slot : Nat) : State :=
  match s.streams[slot]? with
  | none => s
  | some st =>
    let r := segment s.cfg st
    State.clearBackpressure
      { (s.drain slot r).emitSof r.burst with
        lastFrameBlockCount := BitVec.ofNat 2 r.n
        fsm := .sendingSofOrSound }

/-- `SEND-PATH()` (R300): nothing to send, a sound when one is due, else a burst of a drawn stream. -/
def State.sendPath (s : State) : State :=
  match s.drawSlot with
  | none => { s with fsm := .waitingForApp }
  | some slot => if s.soundDue then s.sendSound else s.sendSof slot

/-! ## RESET -/

/-- RESET (70_reset_and_hazards.md R400, R401). -/
def execReset (s : State) : Host.Outcome State Fault Refusal := .next s.resetBlock

/-! ## Submissions -/

/-- APP-SUBMIT (R293): a data frame is enqueued; in `WaitingForApp` it starts a send cycle. -/
def execAppSubmit (dest : Addr) (payload : Bytes) (s : State) : Host.Outcome State Fault Refusal :=
  match s.acceptable dest payload none with
  | .error r => .next (s.report r)
  | .ok (f, slot) =>
    let s := (s.enqueue slot dest f).countAccepted
    .next (if s.fsm = .waitingForApp then s.sendPath else s)

/-- MGMT-SUBMIT (R294): a management frame with a drawn confounder is enqueued; no cycle starts. -/
def execMgmtSubmit (dest : Addr) (mm : Bytes) (s : State) : Host.Outcome State Fault Refusal :=
  match s.acceptable dest mm (some s.draw.confounder) with
  | .error r => .next (s.report r)
  | .ok (f, slot) => .next (s.enqueue slot dest f).countAccepted

/-! ## PHY events -/

/-- PHY-RXSOF (R304). -/
def execPhyRxSof (payload : Bytes) (s : State) : Host.Outcome State Fault Refusal :=
  match s.fsm with
  | .waitingForSof => .next (s.reassemble payload)
  | .waitingForApp | .sendingSofOrSound | .sendingSack | .waitingForSack => .next s

/-- PHY-RXSACK (R297): the timer is disarmed even by a malformed SACK. -/
def execPhyRxSack (sackd : Bytes) (s : State) : Host.Outcome State Fault Refusal :=
  match s.fsm with
  | .waitingForSack =>
    let r := sackDecode sackd s.lastFrameBlockCount.toNat
    let t := s.disarmTimer.reportAll (sackReports r)
    .next { t with lastSackErrored := match r with
      | .ok e => BitVec.ofNat 32 e
      | .error _ => t.lastSackErrored }
  | .waitingForApp | .sendingSofOrSound | .sendingSack | .waitingForSof => .next s

/-- PHY-RXSOUND (R305). -/
def execPhyRxSound (s : State) : Host.Outcome State Fault Refusal :=
  match s.fsm with
  | .waitingForSof => .next { s with rxBlockErrors := [] }
  | .waitingForApp | .sendingSofOrSound | .sendingSack | .waitingForSack => .next s

/-- PHY-RXEND: the SACK window closes (R298), or a received burst or sound is answered (R299). -/
def execPhyRxEnd (s : State) : Host.Outcome State Fault Refusal :=
  match s.fsm with
  | .waitingForSack => .next (s.disarmTimer.sendPath.emit .searchPpdu)
  | .waitingForSof =>
    .next ({ s.emit (.sack (sackEncode s.rxBlockErrors)) with
      rxBlockErrors := [], fsm := .sendingSack }.emit .searchPpdu)
  | .waitingForApp | .sendingSofOrSound | .sendingSack => .next s

/-- PHY-TXEND: the end of a sof or sound (R295) or of a SACK (R296). -/
def execPhyTxEnd (s : State) : Host.Outcome State Fault Refusal :=
  match s.fsm with
  | .sendingSofOrSound => .next { s.armTimer with fsm := .waitingForSack }
  | .sendingSack => .next { s with fsm := .waitingForSof }
  | .waitingForApp | .waitingForSack | .waitingForSof => .next s

/-! ## The SACK timer -/

/-- TIMER-EXPIRE, in any state (R306, R307): a stale expiry changes nothing. -/
def execTimerExpire (gen : BitVec 32) (s : State) : Host.Outcome State Fault Refusal :=
  if s.expiryValid gen then
    let t := s.disarmTimer.report (.sackTimeout s.timerGen)
    .next { t with lastSackErrored := s.lastFrameBlockCount.setWidth 32 }.sendPath
  else .next s

end Sys2Proof.Machine
end

