-- ==== Sys2Proof/Machine/BitField.lean ====
section
/-! DEFINITION. The bit-field packer/unpacker (40_bitfield.md): setField, getField, setBytes, getBytes with
their bounds check, and the operations 0x10 to 0x13 that use them on their own. -/

namespace Sys2Proof.Machine

/-- `setField` (R130): the bounds check comes before any write; the result is the buffer and the offset
after the field. -/
def setField (buf : Bytes) (v : BitVec 32) (o w : Nat) : Except BoundsError (Bytes × Nat) :=
  if o + w > 8 * buf.length then .error ⟨o, w, buf.length⟩
  else .ok (writeBits buf v.toNat o w, o + w)

/-- `getField` (R131), the value zero-extended to 32 bits. -/
def getField (buf : Bytes) (o w : Nat) : Except BoundsError (BitVec 32) :=
  if o + w > 8 * buf.length then .error ⟨o, w, buf.length⟩
  else .ok (BitVec.ofNat 32 (readBits buf o w))

/-- `setBytes` (R132). -/
def setBytes (buf s : Bytes) (k : Nat) : Except BoundsError (Bytes × Nat) :=
  if k + s.length > buf.length then .error ⟨8 * k, 8 * s.length, buf.length⟩
  else .ok (overwrite buf s k, k + s.length)

/-- `getBytes`, also `MemRead` (R133). -/
def getBytes (buf : Bytes) (k n : Nat) : Except BoundsError Bytes :=
  if k + n > buf.length then .error ⟨8 * k, 8 * n, buf.length⟩
  else .ok (slice buf k (k + n))

/-- SETFIELD (R130, R135, R136, R139). -/
def execSetField (buf : Bytes) (v : BitVec 32) (o w : Nat) (s : State) : Host.Outcome State Fault Refusal :=
  if w > maxFieldWidth then .refused (.fieldTooWide w)
  else match setField buf v o w with
    | .ok (buf', next) => .next (s.setResult (.buffer buf' next))
    | .error e => .next (s.raiseBounds e)

/-- GETFIELD (R131, R135, R136). -/
def execGetField (buf : Bytes) (o w : Nat) (s : State) : Host.Outcome State Fault Refusal :=
  if w > maxFieldWidth then .refused (.fieldTooWide w)
  else match getField buf o w with
    | .ok v => .next (s.setResult (.value v))
    | .error e => .next (s.raiseBounds e)

/-- SETBYTES (R132, R135). -/
def execSetBytes (buf bytes : Bytes) (k : Nat) (s : State) : Host.Outcome State Fault Refusal :=
  match setBytes buf bytes k with
  | .ok (buf', next) => .next (s.setResult (.buffer buf' next))
  | .error e => .next (s.raiseBounds e)

/-- GETBYTES (R133, R135). -/
def execGetBytes (buf : Bytes) (k n : Nat) (s : State) : Host.Outcome State Fault Refusal :=
  match getBytes buf k n with
  | .ok b => .next (s.setResult (.bytes b))
  | .error e => .next (s.raiseBounds e)

end Sys2Proof.Machine
end

