-- ==== Sys2Proof/Machine/OutputEvents.lean ====
section
/-! DEFINITION. The output-event rows of the opcode table (30_encoding.md R106) as instructions: each is
the primitive `emit` of 00_scope.md R15 for its event (log entry 10). -/

namespace Sys2Proof.Machine

/-- sof (R106, R303): modulation and robo mode are the configuration's. -/
def execSof (payload : Bytes) (s : State) : Host.Outcome State Fault Refusal := .next (s.emitSof payload)

/-- sound (R106). -/
def execSound (s : State) : Host.Outcome State Fault Refusal := .next (s.emit .sound)

/-- sack (R106). -/
def execSack (sackd : Bytes) (s : State) : Host.Outcome State Fault Refusal := .next (s.emit (.sack sackd))

/-- search-ppdu (R106). -/
def execSearchPpdu (s : State) : Host.Outcome State Fault Refusal := .next (s.emit .searchPpdu)

/-- APP-RX (R106). -/
def execAppRx (payload : Bytes) (s : State) : Host.Outcome State Fault Refusal := .next (s.emit (.appRx payload))

/-- MGMT-RX (R106). -/
def execMgmtRx (mm : Bytes) (s : State) : Host.Outcome State Fault Refusal := .next (s.emit (.mgmtRx mm))

/-- READY (R106). -/
def execReady (s : State) : Host.Outcome State Fault Refusal := .next (s.emit .ready)

end Sys2Proof.Machine
end

