-- ==== Sys2Proof/Machine/Dispatch.lean ====
section
/-! DEFINITION. One arm per row of the opcode table. -/

namespace Sys2Proof.Machine

def exec (i : Instr) (s : State) : Host.Outcome State Fault Refusal :=
  match i with
  -- input events (30_encoding.md R105)
  | .reset => Sys2Proof.Machine.execReset s
  | .appSubmit dest payload => Sys2Proof.Machine.execAppSubmit dest payload s
  | .mgmtSubmit dest mm => Sys2Proof.Machine.execMgmtSubmit dest mm s
  | .phyRxSof payload => Sys2Proof.Machine.execPhyRxSof payload s
  | .phyRxSack sackd => Sys2Proof.Machine.execPhyRxSack sackd s
  | .phyRxSound => Sys2Proof.Machine.execPhyRxSound s
  | .phyRxEnd => Sys2Proof.Machine.execPhyRxEnd s
  | .phyTxEnd => Sys2Proof.Machine.execPhyTxEnd s
  | .timerExpire gen => Sys2Proof.Machine.execTimerExpire gen s
  -- output events (R106)
  | .sof payload => Sys2Proof.Machine.execSof payload s
  | .sound => Sys2Proof.Machine.execSound s
  | .sack sackd => Sys2Proof.Machine.execSack sackd s
  | .searchPpdu => Sys2Proof.Machine.execSearchPpdu s
  | .appRx payload => Sys2Proof.Machine.execAppRx payload s
  | .mgmtRx mm => Sys2Proof.Machine.execMgmtRx mm s
  | .ready => Sys2Proof.Machine.execReady s
  -- datapath operations (R108)
  | .setField buffer value bitOffset bitWidth => Sys2Proof.Machine.execSetField buffer value bitOffset bitWidth s
  | .getField buffer bitOffset bitWidth => Sys2Proof.Machine.execGetField buffer bitOffset bitWidth s
  | .setBytes buffer bytes byteOffset => Sys2Proof.Machine.execSetBytes buffer bytes byteOffset s
  | .getBytes buffer byteOffset n => Sys2Proof.Machine.execGetBytes buffer byteOffset n s
  | .crc32 bytes => Sys2Proof.Machine.execCrc32 bytes s
  | .macEncode dest payload confounder => Sys2Proof.Machine.execMacEncode dest payload confounder s
  | .macDecode frame => Sys2Proof.Machine.execMacDecode frame s
  | .segment slot => Sys2Proof.Machine.execSegment slot s
  | .reassemble burst => Sys2Proof.Machine.execReassemble burst s
  | .sackEncode errs => Sys2Proof.Machine.execSackEncode errs s
  | .sackDecode sackd n => Sys2Proof.Machine.execSackDecode sackd n s
  | .blockBuild ssn mbo boundary body => Sys2Proof.Machine.execBlockBuild ssn mbo boundary body s
  -- wire tags (R91 to R98)
  | .mfhData len rest => Sys2Proof.Machine.execMfhData len rest s
  | .mfhMgmt len rest => Sys2Proof.Machine.execMfhMgmt len rest s
  | .mfhPad len rest => Sys2Proof.Machine.execMfhPad len rest s
  | .mfhReserved len rest => Sys2Proof.Machine.execMfhReserved len rest s
  | .sackPayload bitmap => Sys2Proof.Machine.execSackPayload bitmap s
  | .phyBlockHeader hdr rest => Sys2Proof.Machine.execPhyBlockHeader hdr rest s

end Sys2Proof.Machine
end

