-- ==== Sys2Proof/Machine/Step.lean ====
section
/-! DEFINITION. One step: the oldest input of the inbox, decoded and handled atomically (20_memory.md R78,
46_arq_fsm.md R291). -/

namespace Sys2Proof.Machine

/-- One step. With nothing delivered the block waits: it holds its state and puts nothing on its ports
(60_exceptions.md R391, 70_reset_and_hazards.md R402, log entry 2). An input earlier than the last one is
refused (decision D49, log entry 7), and so is a message that is no instruction (30_encoding.md R107). -/
def step (s : State) : Host.Outcome State Fault Refusal :=
  match s.inbox with
  | [] => .next s.clearPorts
  | i :: later =>
    if i.now < s.now then .refused (.timeWentBack s.now i.now)
    else match decode i.port i.bytes with
      | .error e => .refused (.undecodable e)
      | .ok instr => exec instr (s.beginStep i later)

/-- The state with a word of the opcode table as its oldest input, at the time and with the draws the
state holds, so that the next step handles it (log entries 1 and 9). -/
def State.withFetchWord (s : State) (nbits w : Nat) : State :=
  { s with inbox :=
      { now := s.now, draw := s.draw, port := (tableMessage nbits w).1, bytes := (tableMessage nbits w).2 }
        :: s.inbox }

end Sys2Proof.Machine
end

