-- ==== Sys2Proof/Machine/Mgmt.lean ====
section
/-! DEFINITION. The management message layout (47_txqueue_mgmt_interface.md R347 to R349), which R6 lets a
model implement. The block carries messages unexamined (R347), so no instruction's meaning uses this file:
it builds and reads the `mm` of MGMT-SUBMIT and MGMT-RX for an environment (log entry 26). -/

namespace Sys2Proof.Machine

/-- A management message: version, `mmtype` least significant byte first, entry (R347). -/
def mgmtMessage (mmtype : BitVec 16) (entry : Bytes) : Bytes :=
  BitVec.ofNat 8 mmVersion :: (writeBits (zeros 2) mmtype.toNat 0 16 ++ entry)

/-- `mmtype` and entry of a message, none if it is malformed (R347, R350). R350 names the malformed message
and no rule says which messages are malformed: that one of fewer than 3 bytes and one whose version byte is
not 1 are, and no other, is the model's (DESIGN CHOICE, log entry 36). -/
def readMgmtMessage : Bytes → Option (BitVec 16 × Bytes)
  | v :: t0 :: t1 :: entry =>
    if v = BitVec.ofNat 8 mmVersion then some (BitVec.ofNat 16 (readBits [t0, t1] 0 16), entry) else none
  | _ => none

/-- The fields of a channel-estimation entry (R348), the reserved field left out. -/
structure ChannelEstimation where
  ntmi : BitVec 8
  tmi : BitVec 8
  nint : BitVec 8
  newTmi : BitVec 8
  cbdEnc : BitVec 8
  cbd : List (BitVec 4)
  deriving DecidableEq, Repr

/-- The length of an entry with `c` carriers: `ceil((80 + 4c) / 8)` (R349). -/
def ceLength (c : Nat) : Nat := (80 + 4 * c + 7) / 8

/-- The bit loadings written 4 bits each from bit offset `p` up (R348). -/
def writeCbd (buf : Bytes) (p : Nat) : List (BitVec 4) → Bytes
  | [] => buf
  | v :: vs => writeCbd (writeBits buf v.toNat p 4) (p + 4) vs

/-- The bytes of an entry (R348, R349): the reserved field and a spare high nibble are 0. An entry of 65536
or more `cbd`, which the 16-bit `cbd_len` cannot count, gets the low 16 bits of the count and all its nibbles
(DESIGN CHOICE, log entry 35). -/
def ceBytes (e : ChannelEstimation) : Bytes :=
  let b := zeros (ceLength e.cbd.length)
  let b := writeBits b e.ntmi.toNat 0 8
  let b := writeBits b e.tmi.toNat 8 8
  let b := writeBits b e.nint.toNat 16 8
  let b := writeBits b e.newTmi.toNat 24 8
  let b := writeBits b e.cbdEnc.toNat 56 8
  let b := writeBits b e.cbd.length 64 16
  writeCbd b 80 e.cbd

/-- The bit loadings read from bit offset `p` up. -/
def readCbd (b : Bytes) (p : Nat) : Nat → List (BitVec 4)
  | 0 => []
  | c + 1 => BitVec.ofNat 4 (readBits b p 4) :: readCbd b (p + 4) c

/-- The fields of an entry, none when it is shorter than its own `cbd_len` needs (R348, R349). Bytes after
those R349 counts, and a spare high nibble, are ignored (DESIGN CHOICE, log entry 34). -/
def readCe (b : Bytes) : Option ChannelEstimation :=
  if b.length < ceLength 0 ∨ b.length < ceLength (readBits b 64 16) then none
  else some
    { ntmi := BitVec.ofNat 8 (readBits b 0 8)
      tmi := BitVec.ofNat 8 (readBits b 8 8)
      nint := BitVec.ofNat 8 (readBits b 16 8)
      newTmi := BitVec.ofNat 8 (readBits b 24 8)
      cbdEnc := BitVec.ofNat 8 (readBits b 56 8)
      cbd := readCbd b 80 (readBits b 64 16) }

/-- The channel-estimation message under the parameter `MMTYPE_CE` (R350). -/
def ceMessage (cfg : Config) (e : ChannelEstimation) : Bytes := mgmtMessage cfg.mmtypeCe (ceBytes e)

/-- The entry has one bit loading per carrier, `N_CARRIERS` of them (R348, R350). -/
def ChannelEstimation.fitsCarriers (cfg : Config) (e : ChannelEstimation) : Bool := e.cbd.length == cfg.nCarriers

end Sys2Proof.Machine
end

