-- ==== Sys2Proof/Safety.lean ====
section
/-! DEFINITION. What holds of every state the block can be in, and the environment's duties that a state
can show. Each part of the invariant is a rule of spec/. -/

namespace Sys2Proof.Machine

/-! ## The invariant -/

/-- Frames of a stream not yet wholly cut into blocks: the queued ones and the one in `remainder` (R340). -/
def Stream.outstanding (st : Stream) : Nat :=
  st.pendingFrames.length + (if st.remainder = [] then 0 else 1)

/-- Frames of every stream not yet wholly cut into blocks. -/
def State.outstanding (s : State) : Nat := (s.streams.map Stream.outstanding).sum

/-- A slot: `next_ssn` within `SSN_MOD` (10_state.md R41), queued frames of 20 to 16390 bytes (R42,
42_mac_frame.md R161, R167), a remainder of at most 16389 bytes (R43), a free slot as at reset (R40). -/
abbrev Stream.Ok (cfg : Config) (st : Stream) : Prop :=
  st.nextSsn.toNat < cfg.ssnMod.toNat ∧
  (∀ f ∈ st.pendingFrames, 20 ≤ f.length ∧ f.length ≤ 16390) ∧
  st.remainder.length ≤ 16389 ∧
  (st.inUse = false → st.pendingFrames = [] ∧ st.remainder = [] ∧ st.nextSsn = 0)

/-- The stream table: `N_STREAMS` slots, each as `Stream.Ok` says, and no two for one destination (R40). -/
abbrev State.StreamsOk (s : State) : Prop :=
  s.streams.length = s.cfg.nStreams ∧
  (∀ st ∈ s.streams, st.Ok s.cfg) ∧
  s.streams.Pairwise fun a b => a.inUse = true → b.inUse = true → a.dest ≠ b.dest

/-- The queue: every outstanding frame is counted, the counter is within its range, and `full` says that it
is at the limit (47_txqueue_mgmt_interface.md R340, R341, R344). -/
abbrev State.QueueOk (s : State) : Prop :=
  s.outstanding ≤ s.inflight ∧ s.inflight ≤ maxFramesInBuffer ∧
  (s.full = true ↔ s.inflight = maxFramesInBuffer)

/-- The timer is armed only in `WaitingForSack` (46_arq_fsm.md R313). -/
abbrev State.TimerOk (s : State) : Prop := s.timerArmed = true → s.fsm = .waitingForSack

/-- Turn-taking: the states of each role (46_arq_fsm.md R311). -/
abbrev State.RoleOk (s : State) : Prop :=
  (s.cfg.role = .master → s.fsm ≠ .sendingSack ∧ s.fsm ≠ .waitingForSof) ∧
  (s.cfg.role = .slave → s.fsm = .waitingForSof ∨ s.fsm = .sendingSack)

/-- The incomplete entry is not empty and its frame is not complete (10_state.md R50, R51,
44_reassembler.md R240, R247, R248). -/
abbrev State.EntryOk (s : State) : Prop :=
  ∀ e ∈ s.entry, e.data ≠ [] ∧ ∀ t ∈ expectedLength s.cfg.mfhTypeAtLsb e.data, e.data.length < t

/-- The errored count is one of at most `MAX_SEGMENTS` blocks (10_state.md R37, R46). -/
abbrev State.SackOk (s : State) : Prop := s.lastSackErrored.toNat ≤ maxSegments

/-- The invariant of the block. -/
abbrev State.Inv (s : State) : Prop :=
  s.StreamsOk ∧ s.QueueOk ∧ s.TimerOk ∧ s.RoleOk ∧ s.EntryOk ∧ s.SackOk

/-! ## The send path as a relation -/

/-- What the send path leaves from `s` (46_arq_fsm.md R300 to R303): with no data, `WaitingForApp`; with data
and a sound due, the sound; with data and no sound due, a burst of one of the streams that have data, the
`READY` that clears backpressure (47_txqueue_mgmt_interface.md R345) after it. A sound is due when none was
sent or strictly more than the period has passed. A time of 2^64 or more leaves the tick register open (log
entry 6). -/
def State.Sends (s t : State) : Prop :=
  ((∀ st ∈ s.streams, st.pending = 0) ∧ t = { s with fsm := .waitingForApp }) ∨
  ((∃ st ∈ s.streams, 0 < st.pending) ∧
    (∀ l, s.lastSoundTime = some l → l.toNat + s.cfg.soundPeriodTicks < s.now) ∧
    ∃ tick : BitVec 64, (s.now < 2 ^ 64 → tick.toNat = s.now) ∧
      t = { s with
        lastSoundTime := some tick
        lastFrameBlockCount := 0
        fsm := .sendingSofOrSound
        outputs := s.outputs ++ [.sound] }) ∨
  (∃ i st, s.streams[i]? = some st ∧ 0 < st.pending ∧
    (∃ l, s.lastSoundTime = some l ∧ s.now ≤ l.toNat + s.cfg.soundPeriodTicks) ∧
    t = { s with
      streams := s.streams.set i (segment s.cfg st).stream
      inflight := s.inflight - (segment s.cfg st).k
      full := s.full && decide (maxFramesInBuffer ≤ s.inflight - (segment s.cfg st).k)
      lastFrameBlockCount := BitVec.ofNat 2 (segment s.cfg st).n
      fsm := .sendingSofOrSound
      outputs := s.outputs ++ [.sof s.cfg.sofModulation s.cfg.sofRoboMode (segment s.cfg st).burst]
        ++ (if s.full = true ∧ s.inflight - (segment s.cfg st).k < maxFramesInBuffer then [.ready] else []) })

/-! ## Submissions -/

/-- Slot `slot`, holding `st`, is the one a submission to `dest` uses: the first in use for `dest`, or, where
no slot is, the lowest-numbered free slot (47_txqueue_mgmt_interface.md R346). -/
def State.SlotFor (s : State) (dest : Addr) (slot : Nat) (st : Stream) : Prop :=
  s.streams[slot]? = some st ∧
  ((st.inUse = true ∧ st.dest = dest ∧
      ∀ j < slot, ∀ st', s.streams[j]? = some st' → ¬ (st'.inUse = true ∧ st'.dest = dest)) ∨
    (st.inUse = false ∧ (∀ st' ∈ s.streams, st'.inUse = true → st'.dest ≠ dest) ∧
      ∀ j < slot, ∀ st', s.streams[j]? = some st' → st'.inUse = true))

/-- The state after frame `f` to `dest` is accepted into slot `slot`, which held `st`: the frame is appended,
a free slot being allocated first; it is counted; `full` is set at the limit and `READY` emitted below it
(43_segmenter.md R190, 47_txqueue_mgmt_interface.md R340, R341, R343, R346). -/
def State.queued (s : State) (dest : Addr) (slot : Nat) (st : Stream) (f : Bytes) : State :=
  { s with
    streams := s.streams.set slot
      { inUse := true
        dest := dest
        nextSsn := if st.inUse then st.nextSsn else 0
        pendingFrames := (if st.inUse then st.pendingFrames else []) ++ [f]
        remainder := if st.inUse then st.remainder else [] }
    inflight := s.inflight + 1
    full := decide (maxFramesInBuffer ≤ s.inflight + 1)
    outputs := s.outputs ++ if maxFramesInBuffer ≤ s.inflight + 1 then [] else [.ready] }

/-! ## Reception -/

/-- The total length of the frame that begins with `d` (30_encoding.md R100, 42_mac_frame.md R175), by the
arithmetic of its first two bytes. -/
def frameTotal (cfg : Config) (d : Bytes) : Nat :=
  (if cfg.mfhTypeAtLsb then leNat (d.take 2) / 4 else leNat (d.take 2) % 16384) + 7

/-- The type of the frame that begins with `d` (30_encoding.md R97, 42_mac_frame.md R175). -/
def frameType (cfg : Config) (d : Bytes) : Nat :=
  if cfg.mfhTypeAtLsb then leNat (d.take 2) % 4 else leNat (d.take 2) / 16384

/-- The gap report that the continuity check of a block with sequence number `ssn` makes, if any
(44_reassembler.md R233). -/
def gapReports (last : Option (BitVec 16)) (ssn : BitVec 16) : List Report :=
  match last with
  | none => []
  | some l => if ssn = l + 1 then [] else [.gap (l + 1) ssn]

/-- The state after a block's sequence number is examined (44_reassembler.md R233, R234). -/
def State.examined (s : State) (ssn : BitVec 16) : State :=
  { s with
    lastReceivedSsn := some ssn
    reports := s.reports ++ gapReports s.lastReceivedSsn ssn
    counters := { s.counters with
      sequence := s.counters.sequence + BitVec.ofNat 32 (gapReports s.lastReceivedSsn ssn).length } }

/-- `blk` is the last block of `burst`, its number `index`, with a body of `size` bytes, and `u` is what
receiving the blocks before it leaves from `s` (44_reassembler.md R230, R231). -/
def LastBlock (s u : State) (burst blk : Bytes) (size index : Nat) : Prop :=
  ∃ before, burst = before ++ blk ∧ blk.length = size + 8 ∧
    ((size = 128 ∧ index = 0 ∧ before = []) ∨ (size = 512 ∧ before.length = index * 520)) ∧
    exec (.phyRxSof before) s = .next u

/-- A block with a body of `size` bytes passes its check (41_crc32.md R154, R155). -/
abbrev BlockPasses (a : CrcAlgo) (size : Nat) (blk : Bytes) : Prop :=
  crc32 a (blk.take (size + 4)) = BitVec.ofNat 32 (leNat ((blk.drop (size + 4)).take 4))

/-- Some number of rounds, each one invocation of the segmenter on slot `slot` of the sender and its burst
received by the receiver (43_segmenter.md R205). -/
inductive Carried (slot : Nat) : State → State → State → State → Prop where
  | done (s r : State) : Carried slot s r s r
  | round {s r s1 r1 s2 r2 : State} {burst : Bytes} {n k : Nat} (cut : exec (.segment slot) s = .next s1)
      (sent : s1.result = .burst burst n k) (received : exec (.phyRxSof burst) r = .next r1)
      (rest : Carried slot s1 r1 s2 r2) : Carried slot s r s2 r2

/-! ## The environment's duties (70_reset_and_hazards.md, log entry 27) -/

/-- Times that never decrease, from `t` on. -/
def timesFrom (t : Nat) : List Input → Bool
  | [] => true
  | i :: later => decide (t ≤ i.now) && timesFrom i.now later

/-- The delivered inputs have non-decreasing `now` (R403). -/
def State.inboxTimed (s : State) : Bool := timesFrom s.now s.inbox

/-- Whether an input ends the wait of an armed timer: its expiry at or after the deadline, a SACK, or the
end of the window (R406). -/
def State.endsWait (s : State) (i : Input) : Bool :=
  match decode i.port i.bytes with
  | .ok (.timerExpire gen) => gen == s.timerGen && decide (s.timerDeadline.toNat ≤ i.now)
  | .ok (.phyRxSack _) => true
  | .ok .phyRxEnd => true
  | _ => false

/-- While the timer is armed, an input that ends the wait has been delivered (R406). -/
def State.timerServed (s : State) : Bool := !s.timerArmed || s.inbox.any s.endsWait

end Sys2Proof.Machine
end

