-- ==== Sys2Proof/Certificates/Slice0/Obligations.lean ====
section
/-! DEFINITION. The statements for the provers. Each says which rules of spec/ it formalises; a next state
is written as an update of the state before, which is also the frame: every field not named is unchanged. -/

section

open Sys2Proof Sys2Proof.Machine

/-! ## Encoding -/

/-- Decoding an encoded well-formed instruction gives it back, with every operand. The operand layout behind
the codes is the model's (log entry 8). -/
def Obligations.DecodeInvertsEncode : Prop :=
  ∀ i : Instr, i.wellFormed = true → decode i.port (encode i) = .ok i

/-- A message that decodes is the encoding of a well-formed instruction of its port: nothing else is
accepted, and no bit of a message is dropped (log entries 8 and 9). -/
def Obligations.DecodedMessageIsAnEncoding : Prop :=
  ∀ (p : Port) (b : Bytes) (i : Instr), decode p b = .ok i → i.wellFormed = true ∧ i.port = p ∧ encode i = b

/-- A few words of the opcode table, one or more of each kind, decode to their instructions
(30_encoding.md R105, R106, R108, R93, R97). The codes are the spec's decision D34, the order of the MFH its
decision D2, and the operands of zero bytes the model's (log entries 8 and 9). -/
def Obligations.OpcodeTableWordsDecode : Prop :=
  decodeTableWord 8 0x00 = some .reset ∧
  decodeTableWord 8 0x08 = some (.timerExpire 0) ∧
  decodeTableWord 8 0x14 = some (.crc32 []) ∧
  decodeTableWord 8 0x21 = some .sound ∧
  decodeTableWord 16 0x4012 = some (.mfhData 0x12 []) ∧
  decodeTableWord 16 0xC005 = some (.mfhMgmt 5 []) ∧
  decodeTableWord 32 0x0BFF1234 = some (.phyBlockHeader
    { ssn := 0x1234, macBoundaryOffset := 511, valid := true, mgmtQueueFlag := false
      macBoundaryFlag := true, oldestSsnFlag := false, reserved := 0 } [])

/-- A message with a reserved event or operation code is refused by name (30_encoding.md R107, R108). The spec's
decision D34; that the output codes are refused as inputs is the model's (log entry 9). -/
def Obligations.ReservedCodesAreRefused : Prop :=
  ∀ (s : State) (i : Input) (later : List Input) (c : Byte) (operands : Bytes),
    s.inbox = i :: later → s.now ≤ i.now → i.port = .code → i.bytes = c :: operands →
    (0x09 ≤ c.toNat ∧ c.toNat ≤ 0x0F → step s = .refused (.undecodable (.reservedInputCode c))) ∧
    (0x1C ≤ c.toNat ∧ c.toNat ≤ 0x1F → step s = .refused (.undecodable (.reservedOperationCode c))) ∧
    (0x27 ≤ c.toNat ∧ c.toNat ≤ 0x2F → step s = .refused (.undecodable (.reservedOutputCode c)))

/-! ## The step -/

/-- A step takes the oldest input, latches its time and draws, clears the ports, and runs the instruction
its message decodes to (20_memory.md R78, R81, 46_arq_fsm.md R291, the spec's decision D47). That inputs wait
as messages and that results stand on ports is the model's (log entries 1 and 15). -/
def Obligations.StepRunsTheDecodedInstruction : Prop :=
  ∀ (s : State) (i : Input) (later : List Input) (instr : Instr),
    s.inbox = i :: later → s.now ≤ i.now → decode i.port i.bytes = .ok instr →
    step s = exec instr { s with
      now := i.now, draw := i.draw, inbox := later
      outputs := [], reports := [], result := .none, boundsFault := none }

/-- What a step does when it runs no instruction: it waits with nothing delivered, and it refuses an input
earlier than the last one and a message that is no instruction (log entries 2, 7 and 9). -/
def Obligations.StepWithoutAnInstruction : Prop :=
  ∀ s : State,
    (s.inbox = [] →
      step s = .next { s with outputs := [], reports := [], result := .none, boundsFault := none }) ∧
    ∀ (i : Input) (later : List Input), s.inbox = i :: later →
      (i.now < s.now → step s = .refused (.timeWentBack s.now i.now)) ∧
      (s.now ≤ i.now → ∀ e, decode i.port i.bytes = .error e → step s = .refused (.undecodable e))

/-- No instruction writes the configuration, the time, the draws or the inputs still to come, and no step
writes the configuration (10_state.md R32). The spec's decision D40; the fields of the time, the draws and the
inputs are the model's (log entries 1, 4 and 7). -/
def Obligations.NothingWritesTheConfiguration : Prop :=
  (∀ (i : Instr) (s t : State), exec i s = .next t →
    t.cfg = s.cfg ∧ t.now = s.now ∧ t.draw = s.draw ∧ t.inbox = s.inbox) ∧
  ∀ s t : State, step s = .next t → t.cfg = s.cfg

/-! ## Bit fields -/

/-- SETFIELD writes the low bits of the value into the field and nothing else, and returns the next offset;
past the end it raises BoundsError (40_bitfield.md R130). -/
def Obligations.SetFieldWritesTheFieldBits : Prop :=
  ∀ (s : State) (buf : Bytes) (v : BitVec 32) (o w : Nat), w ≤ 32 →
    (encode (.setField buf v o w)).head? = some 0x10#8 ∧
    (8 * buf.length < o + w →
      exec (.setField buf v o w) s = .next { s with boundsFault := some ⟨o, w, buf.length⟩ }) ∧
    (o + w ≤ 8 * buf.length →
      ∃ buf' : Bytes, buf'.length = buf.length ∧
        (∀ p, bitAt buf' p = if o ≤ p ∧ p < o + w then v.getLsbD (p - o) else bitAt buf p) ∧
        exec (.setField buf v o w) s = .next { s with result := .buffer buf' (o + w) })

/-- GETFIELD reads the field's bits, zero-extended; past the end it raises BoundsError
(40_bitfield.md R131). -/
def Obligations.GetFieldReadsTheFieldBits : Prop :=
  ∀ (s : State) (buf : Bytes) (o w : Nat), w ≤ 32 →
    (encode (.getField buf o w)).head? = some 0x11#8 ∧
    (8 * buf.length < o + w →
      exec (.getField buf o w) s = .next { s with boundsFault := some ⟨o, w, buf.length⟩ }) ∧
    (o + w ≤ 8 * buf.length →
      ∃ v : BitVec 32, v.toNat < 2 ^ w ∧ (∀ j, v.getLsbD j = (decide (j < w) && bitAt buf (o + j))) ∧
        exec (.getField buf o w) s = .next { s with result := .value v })

/-- SETBYTES writes the bytes from the offset and nothing else, and returns the next offset; for at most 4
bytes it is SETFIELD of their little-endian value; past the end it raises BoundsError
(40_bitfield.md R132). The spec's decision D44. -/
def Obligations.SetBytesWritesTheBytes : Prop :=
  ∀ (s : State) (buf bytes : Bytes) (k : Nat),
    (buf.length < k + bytes.length →
      exec (.setBytes buf bytes k) s
        = .next { s with boundsFault := some ⟨8 * k, 8 * bytes.length, buf.length⟩ }) ∧
    (k + bytes.length ≤ buf.length →
      ∃ buf' : Bytes, buf'.length = buf.length ∧
        (∀ i, buf'[i]? = if k ≤ i ∧ i < k + bytes.length then bytes[i - k]? else buf[i]?) ∧
        exec (.setBytes buf bytes k) s = .next { s with result := .buffer buf' (k + bytes.length) } ∧
        (bytes.length ≤ 4 →
          exec (.setField buf (BitVec.ofNat 32 (leNat bytes)) (8 * k) (8 * bytes.length)) s
            = .next { s with result := .buffer buf' (8 * k + 8 * bytes.length) }))

/-- GETBYTES reads the bytes from the offset; past the end it raises BoundsError (40_bitfield.md R133). -/
def Obligations.GetBytesReadsTheBytes : Prop :=
  ∀ (s : State) (buf : Bytes) (k n : Nat),
    (encode (.getBytes buf k n)).head? = some 0x13#8 ∧
    (buf.length < k + n →
      exec (.getBytes buf k n) s = .next { s with boundsFault := some ⟨8 * k, 8 * n, buf.length⟩ }) ∧
    (k + n ≤ buf.length →
      ∃ b : Bytes, b.length = n ∧ (∀ i < n, b[i]? = buf[k + i]?) ∧
        exec (.getBytes buf k n) s = .next { s with result := .bytes b })

/-- BoundsError ends its operation with no result, records the offset, the width and the length, and changes
no other state; no other instruction raises it (60_exceptions.md R372, 40_bitfield.md R135). The spec's decision
D51; log entry 14. -/
def Obligations.BoundsErrorEndsItsOperation : Prop :=
  (∀ (s : State) (buf : Bytes) (v : BitVec 32) (o w : Nat), w ≤ 32 → 8 * buf.length < o + w →
    exec (.setField buf v o w) s = .next { s with boundsFault := some ⟨o, w, buf.length⟩ } ∧
    exec (.getField buf o w) s = .next { s with boundsFault := some ⟨o, w, buf.length⟩ }) ∧
  (∀ (s : State) (buf bytes : Bytes) (k : Nat), buf.length < k + bytes.length →
    exec (.setBytes buf bytes k) s
      = .next { s with boundsFault := some ⟨8 * k, 8 * bytes.length, buf.length⟩ } ∧
    exec (.getBytes buf k bytes.length) s
      = .next { s with boundsFault := some ⟨8 * k, 8 * bytes.length, buf.length⟩ }) ∧
  ∀ (i : Instr) (s t : State), (∀ buf v o w, i ≠ .setField buf v o w) → (∀ buf o w, i ≠ .getField buf o w) →
    (∀ buf b k, i ≠ .setBytes buf b k) → (∀ buf k n, i ≠ .getBytes buf k n) →
    exec i s = .next t → t.boundsFault = s.boundsFault

/-- Width 0 is legal, touches no bit and is still bounds-checked; a width above 32 is refused
(40_bitfield.md R136). The spec's decision D44. -/
def Obligations.FieldWidthZeroAndAboveThirtyTwo : Prop :=
  ∀ (s : State) (buf : Bytes) (v : BitVec 32) (o w : Nat),
    (o ≤ 8 * buf.length →
      exec (.setField buf v o 0) s = .next { s with result := .buffer buf o } ∧
      exec (.getField buf o 0) s = .next { s with result := .value 0 }) ∧
    (8 * buf.length < o →
      exec (.setField buf v o 0) s = .next { s with boundsFault := some ⟨o, 0, buf.length⟩ } ∧
      exec (.getField buf o 0) s = .next { s with boundsFault := some ⟨o, 0, buf.length⟩ }) ∧
    (32 < w →
      exec (.setField buf v o w) s = .refused (.fieldTooWide w) ∧
      exec (.getField buf o w) s = .refused (.fieldTooWide w))

/-- Reading back a field set in a zero buffer gives the value's low bits, for every offset and width within
bounds (40_bitfield.md R137). -/
def Obligations.SetThenGetReturnsTheLowBits : Prop :=
  ∀ (s : State) (n : Nat) (v : BitVec 32) (o w : Nat), w ≤ 32 → o + w ≤ 8 * n →
    ∃ (buf : Bytes) (x : BitVec 32),
      exec (.setField (zeros n) v o w) s = .next { s with result := .buffer buf (o + w) } ∧
      exec (.getField buf o w) s = .next { s with result := .value x } ∧
      x.toNat = v.toNat % 2 ^ w

/-- Setting a field leaves every bit outside it, and so what GETFIELD returns for every field that does not
overlap it (40_bitfield.md R138). -/
def Obligations.SettingAFieldLeavesTheOthers : Prop :=
  ∀ (s : State) (buf : Bytes) (v : BitVec 32) (o w : Nat), w ≤ 32 → o + w ≤ 8 * buf.length →
    ∃ buf' : Bytes, exec (.setField buf v o w) s = .next { s with result := .buffer buf' (o + w) } ∧
      (∀ p, p < o ∨ o + w ≤ p → bitAt buf' p = bitAt buf p) ∧
      ∀ o2 w2, o2 + w2 ≤ o ∨ o + w ≤ o2 → exec (.getField buf' o2 w2) s = exec (.getField buf o2 w2) s

/-! ## CRC32 -/

/-- CRC32 completes on every string, and under the default algorithm its result is the loop of
41_crc32.md R150. The spec's decision D3. -/
def Obligations.CrcIsTheReflectedLoop : Prop :=
  ∀ (s : State) (b : Bytes),
    let shift := fun d : BitVec 32 => if d.getLsbD 0 then (d >>> 1) ^^^ 0xEDB88320#32 else d >>> 1
    let register := b.foldl (fun c x => Nat.iterate shift 8 (c ^^^ x.setWidth 32)) 0xFFFFFFFF#32
    exec (.crc32 b) s = .next { s with result := .value (crc32 s.cfg.crc b) } ∧
    (s.cfg.crc = CrcAlgo.isoHdlc →
      exec (.crc32 b) s = .next { s with result := .value (register ^^^ 0xFFFFFFFF#32) })

/-- Flipping any single bit of the body of a block that passes its check makes a received burst report that
block as errored, and flipping any single covered bit of a MAC frame that decodes makes its decode report
the ICV (41_crc32.md R156, under the algorithm of R150). -/
def Obligations.SingleBitErrorsAreDetected : Prop :=
  (∀ (s t : State) (burst : Bytes) (i p : Nat), s.cfg.crc = CrcAlgo.isoHdlc → s.fsm = .waitingForSof →
    exec (.phyRxSof burst) s = .next t → t.rxBlockErrors[i]? = some false →
    p < 8 * (if burst.length > 136 then 512 else 128) →
    ∀ q, q = 8 * (i * ((if burst.length > 136 then 512 else 128) + 8) + 4) + p →
      ∃ u, exec (.phyRxSof (setBit burst q (!bitAt burst q))) s = .next u ∧ u.rxBlockErrors[i]? = some true) ∧
  ∀ (s : State) (f p : Bytes) (mgmt : Bool) (q : Nat), s.cfg.crc = CrcAlgo.isoHdlc →
    exec (.macDecode f) s = .next { s with result := .payload (some (p, mgmt)) } →
    16 ≤ q → q < 8 * (f.length - 4) →
    ∃ computed received : BitVec 32,
      exec (.macDecode (setBit f q (!bitAt f q))) s = .next { s with
        counters := { s.counters with integrityMac := s.counters.integrityMac + 1 }
        reports := s.reports ++ [.macIcv computed received]
        result := .payload none }

/-! ## MAC frames -/

/-- MAC-ENCODE is the pseudocode of 42_mac_frame.md R160, written field by field over a buffer of zeros, with
the MFH order of R175 where that is configured. Both orders are the spec's decision D2. -/
def Obligations.MacEncodeIsThePseudocode : Prop :=
  ∀ (s : State) (dest : Addr) (p : Bytes) (confounder : Option Confounder),
    (encode (.macEncode dest p confounder)).head? = some 0x15#8 ∧
    let c := if confounder.isSome then 4 else 0
    let total := p.length + c + 20
    let len := total - 7
    let type := if confounder.isSome then 3 else 1
    exec (.macEncode dest p confounder) s =
      if 16383 < len then
        .next { s with
          counters := { s.counters with format := s.counters.format + 1 }
          reports := s.reports ++ [.frameTooLong len]
          result := .frame none }
      else
        let f := zeros total
        let f := if s.cfg.mfhTypeAtLsb then writeBits (writeBits f type 0 2) len 2 14
          else writeBits (writeBits f len 0 14) type 14 2
        let f := match confounder with
          | none => f
          | some x => overwrite f x.bytes 2
        let f := overwrite f dest.bytes (2 + c)
        let f := overwrite f s.cfg.localAddr.bytes (8 + c)
        let f := overwrite f p (16 + c)
        let f := writeBits f (crc32 s.cfg.crc (slice f 2 (total - 4))).toNat (8 * (total - 4)) 32
        .next { s with result := .frame (some f) }

/-- The layout of an encoded frame: its length, its MFH, and each field at its offset, the ICV over everything
between the MFH and itself (30_encoding.md R91, 42_mac_frame.md R161, R162, R165, R166, in the MFH order of
R163 or R175). The spec's decisions D2, D6 and D7. -/
def Obligations.MacFrameLayout : Prop :=
  ∀ (s : State) (dest : Addr) (p : Bytes) (confounder : Option Confounder),
    let c := if confounder.isSome then 4 else 0
    let type := if confounder.isSome then 3 else 1
    p.length + c + 13 ≤ 16383 →
    ∃ f : Bytes, exec (.macEncode dest p confounder) s = .next { s with result := .frame (some f) } ∧
      f.length = p.length + c + 20 ∧
      leNat (f.take 2) = (if s.cfg.mfhTypeAtLsb then 4 * (p.length + c + 13) + type
        else p.length + c + 13 + 16384 * type) ∧
      (∀ x, confounder = some x → slice f 2 6 = x.bytes) ∧
      slice f (2 + c) (8 + c) = dest.bytes ∧
      slice f (8 + c) (14 + c) = s.cfg.localAddr.bytes ∧
      slice f (14 + c) (16 + c) = [0#8, 0#8] ∧
      slice f (16 + c) (f.length - 4) = p ∧
      leNat (f.drop (f.length - 4)) = (crc32 s.cfg.crc (slice f 2 (f.length - 4))).toNat

/-- A payload too long for the 14-bit length makes no frame: the encoder reports it, and a submission that
asked for the frame enqueues nothing (42_mac_frame.md R167). The spec's decision D8. -/
def Obligations.FrameTooLongIsRefused : Prop :=
  ∀ (s : State) (dest : Addr) (p : Bytes),
    (∀ confounder : Option Confounder, ∀ len,
      len = p.length + (if confounder.isSome then 4 else 0) + 13 → 16383 < len →
      exec (.macEncode dest p confounder) s = .next { s with
        counters := { s.counters with format := s.counters.format + 1 }
        reports := s.reports ++ [.frameTooLong len]
        result := .frame none }) ∧
    (s.full = false → 16383 < p.length + 13 →
      exec (.appSubmit dest p) s = .next { s with
        counters := { s.counters with format := s.counters.format + 1 }
        reports := s.reports ++ [.frameTooLong (p.length + 13)] }) ∧
    (s.full = false → 16383 < p.length + 17 →
      exec (.mgmtSubmit dest p) s = .next { s with
        counters := { s.counters with format := s.counters.format + 1 }
        reports := s.reports ++ [.frameTooLong (p.length + 17)] })

/-- Decoding an encoded frame gives the payload and the kind back, for every payload within the limit, every
address and every confounder, at any node with the same layout and algorithm (42_mac_frame.md R174). -/
def Obligations.MacDecodeInvertsEncode : Prop :=
  ∀ (s t : State) (dest : Addr) (p : Bytes) (confounder : Option Confounder),
    t.cfg.crc = s.cfg.crc → t.cfg.mfhTypeAtLsb = s.cfg.mfhTypeAtLsb →
    p.length + (if confounder.isSome then 4 else 0) + 13 ≤ 16383 →
    ∃ f : Bytes, exec (.macEncode dest p confounder) s = .next { s with result := .frame (some f) } ∧
      exec (.macDecode f) t = .next { t with result := .payload (some (p, confounder.isSome)) }

/-- MAC-DECODE makes the checks of 42_mac_frame.md R168 in their order, the first that fails being the one
report, and returns the payload and the kind of a frame that passes (R169, R171). The spec's decision D9; the
order of R175 is decision D2. -/
def Obligations.MacDecodeChecksInOrder : Prop :=
  ∀ (s : State) (f : Bytes),
    let type := frameType s.cfg f
    let total := frameTotal s.cfg f
    let c := if type = 3 then 4 else 0
    let computed := crc32 s.cfg.crc (slice f 2 (total - 4))
    let received := BitVec.ofNat 32 (leNat (f.drop (total - 4)))
    let malformed := fun r : Report => ({ s with
      counters := { s.counters with format := s.counters.format + 1 }
      reports := s.reports ++ [r]
      result := .payload none } : State)
    exec (.macDecode f) s = .next (
      if f.length < 2 then malformed (.shortFrame f.length)
      else if type ≠ 1 ∧ type ≠ 3 then malformed (.badType type)
      else if f.length ≠ total then malformed (.badLength total f.length)
      else if total < c + 20 then malformed (.shortFrame f.length)
      else if computed ≠ received then { s with
        counters := { s.counters with integrityMac := s.counters.integrityMac + 1 }
        reports := s.reports ++ [.macIcv computed received]
        result := .payload none }
      else { s with result := .payload (some (slice f (16 + c) (total - 4), decide (type = 3))) })

/-- The four MFH rows receive the frame that the MFH begins: a data frame is delivered to the APP peer and a
management frame to the management port when their checks pass, padding and the reserved type are reported
(30_encoding.md R98). That the row stands for the frame is the model's reading (log entry 11); in the
alternative layout the word is read as configured (log entry 25). -/
def Obligations.MfhRowsReceiveTheirFrame : Prop :=
  ∀ (s : State) (len : BitVec 14) (rest : Bytes),
    let l := len.toNat
    let report := fun r : Report => ({ s with
      counters := { s.counters with format := s.counters.format + 1 }
      reports := s.reports ++ [r] } : State)
    let icv := crc32 s.cfg.crc (rest.take (l + 1))
    let field := BitVec.ofNat 32 (leNat (rest.drop (l + 1)))
    let badIcv : State := { s with
      counters := { s.counters with integrityMac := s.counters.integrityMac + 1 }
      reports := s.reports ++ [.macIcv icv field] }
    (exec (.mfhData len rest) s = .next (s.deliver (leBytes 2 (l + 16384 * 1) ++ rest)) ∧
      exec (.mfhMgmt len rest) s = .next (s.deliver (leBytes 2 (l + 16384 * 3) ++ rest)) ∧
      exec (.mfhPad len rest) s = .next (s.deliver (leBytes 2 l ++ rest)) ∧
      exec (.mfhReserved len rest) s = .next (s.deliver (leBytes 2 (l + 16384 * 2) ++ rest))) ∧
    (s.cfg.mfhTypeAtLsb = false →
      exec (.mfhData len rest) s = .next (
        if rest.length ≠ l + 5 then report (.badLength (l + 7) (rest.length + 2))
        else if l < 13 then report (.shortFrame (rest.length + 2))
        else if icv ≠ field then badIcv
        else { s with outputs := s.outputs ++ [.appRx (slice rest 14 (l + 1))] }) ∧
      exec (.mfhMgmt len rest) s = .next (
        if rest.length ≠ l + 5 then report (.badLength (l + 7) (rest.length + 2))
        else if l < 17 then report (.shortFrame (rest.length + 2))
        else if icv ≠ field then badIcv
        else { s with outputs := s.outputs ++ [.mgmtRx (slice rest 18 (l + 1))] }) ∧
      exec (.mfhPad len rest) s = .next (report (.badType 0)) ∧
      exec (.mfhReserved len rest) s = .next (report (.badType 2)))

/-! ## The segmenter -/

/-- SEGMENT cuts up to three blocks of one body size, chosen by the pending bytes, advances the sequence
counter by their number, counts each frame once, when its last byte goes, and changes no other slot
(43_segmenter.md R192, R193, R199, R200). That it leaves `inflight` and that a slot number beyond the table
is refused are the model's (log entry 16). The spec's decisions D1, D11 and D12. -/
def Obligations.SegmentCutsUpToThreeBlocks : Prop :=
  ∀ (s : State) (slot : Nat),
    (s.streams[slot]? = none → exec (.segment slot) s = .refused (.noSuchStream slot)) ∧
    ∀ st : Stream, s.streams[slot]? = some st →
      let size := if st.pending < 128 then 128 else 512
      ∃ (burst : Bytes) (n k : Nat) (st' : Stream),
        exec (.segment slot) s
          = .next { s with streams := s.streams.set slot st', result := .burst burst n k } ∧
        n = min 3 ((st.pending + size - 1) / size) ∧
        burst.length = n * (size + 8) ∧
        st'.pending = st.pending - n * size ∧
        (st.nextSsn.toNat < s.cfg.ssnMod.toNat →
          st'.nextSsn.toNat = (st.nextSsn.toNat + n) % s.cfg.ssnMod.toNat) ∧
        k + st'.outstanding = st.outstanding ∧
        st'.inUse = st.inUse ∧ st'.dest = st.dest

/-- The bodies of a segmented burst hold the stream's next bytes in order, zero padding only after the last
one when the stream is emptied; what the stream keeps is the rest, the frames not begun still queued and the
unused tail of the last one begun, or of the old remainder, as the remainder (43_segmenter.md R194, R196). The
body size is that of R193, the spec's decision D11. -/
def Obligations.SegmentEmitsTheNextBytesInOrder : Prop :=
  ∀ (s : State) (slot : Nat) (st : Stream), s.streams[slot]? = some st →
    let size := if st.pending < 128 then 128 else 512
    ∃ (heads : List BlockHeader) (bodies : List Bytes) (sent : Bytes) (padding k : Nat) (st' : Stream),
      exec (.segment slot) s = .next { s with
        streams := s.streams.set slot st'
        result := .burst (List.zipWith (blockBytes s.cfg.crc) heads bodies).flatten bodies.length k } ∧
      heads.length = bodies.length ∧
      (∀ b ∈ bodies, b.length = size) ∧
      bodies.flatten = sent ++ zeros padding ∧
      sent ++ st'.pendingBytes = st.pendingBytes ∧
      padding < size ∧
      (0 < padding → st'.pendingBytes = []) ∧
      ∃ m r, st'.pendingFrames = st.pendingFrames.drop m ∧
        (st.remainder :: st.pendingFrames)[m]? = some r ∧ st'.remainder <:+ r

/-- Each block cut is stamped with the next sequence number, `valid` set and the flags the source leaves
undefined clear; its boundary flag is set exactly when a queued frame starts in it, and its offset is that of
the first such frame, or 0 (43_segmenter.md R195, R197, R199, R203). The `j`-th queued frame starts after the
remainder and the frames before it. The spec's decisions D1 and D10. -/
def Obligations.SegmentMarksTheFirstBoundary : Prop :=
  ∀ (s : State) (slot : Nat) (st : Stream), s.streams[slot]? = some st → (∀ f ∈ st.pendingFrames, f ≠ []) →
    let size := if st.pending < 128 then 128 else 512
    let start := fun j => st.remainder.length + ((st.pendingFrames.take j).map List.length).sum
    ∃ (burst : Bytes) (n k : Nat) (st' : Stream),
      exec (.segment slot) s
        = .next { s with streams := s.streams.set slot st', result := .burst burst n k } ∧
      ∀ i < n, ∀ h, h = headerFields (burst.drop (i * (size + 8))) →
        (st.nextSsn.toNat < s.cfg.ssnMod.toNat →
          h.ssn = BitVec.ofNat 16 ((st.nextSsn.toNat + i) % s.cfg.ssnMod.toNat)) ∧
        (h.valid = true ∧ h.mgmtQueueFlag = false ∧ h.oldestSsnFlag = false ∧ h.reserved = 0) ∧
        (h.macBoundaryFlag = true ↔
          ∃ j < st.pendingFrames.length, i * size ≤ start j ∧ start j < (i + 1) * size) ∧
        (h.macBoundaryFlag = false → h.macBoundaryOffset = 0) ∧
        ∀ j < st.pendingFrames.length, i * size ≤ start j → start j < (i + 1) * size →
          (∀ m < j, start m < i * size) → h.macBoundaryOffset.toNat = start j - i * size

/-- BLOCK-BUILD stamps the header word of 30_encoding.md R94, little-endian, with the low 16 bits of the counter
value, and the block check over header and body, little-endian, after the body (43_segmenter.md R197, R198,
R203). That it runs the same way outside the operand ranges of R197, on a boundary past the end of the body, a
body of another length or a number no counter reaches, is the model's choice (log entry 20, unsafe). The spec's decision D10. -/
def Obligations.BlockBuildStampsHeaderAndCheck : Prop :=
  ∀ (s : State) (ssn : BitVec 17) (mbo : BitVec 9) (boundary : Bool) (body : Bytes),
    let word := ssn.toNat % 2 ^ 16 + (if boundary then mbo.toNat else 0) * 2 ^ 16 + 2 ^ 25
      + (if boundary then 2 ^ 27 else 0)
    let covered := leBytes 4 word ++ body
    exec (.blockBuild ssn mbo boundary body) s
      = .next { s with result := .bytes (covered ++ leBytes 4 (crc32 s.cfg.crc covered).toNat) }

/-! ## The reassembler -/

/-- A received burst is cut into whole blocks of the inferred size and each is checked; trailing bytes are
ignored, the next state being that of the burst without them; the error list says which failed, and the last sequence number is the last block's; only deliveries
and reports come out, and nothing else of the block changes. PHY-RXSOF in `WaitingForSof`, REASSEMBLE and
the PHY-BLOCK-HEADER row do the same with the burst (44_reassembler.md R231, R232, R250). REASSEMBLE's list
on the result port and the reading of the header row are the model's (log entries 13, 15 and 17). The spec's
decisions D17, D18 and D22. -/
def Obligations.ReceivedBurstIsCheckedBlockByBlock : Prop :=
  ∀ (s : State) (burst : Bytes),
    let size := if burst.length > 136 then 512 else 128
    let block := fun i => (burst.drop (i * (size + 8))).take (size + 8)
    let blocks := burst.length / (size + 8)
    ∃ (errs : List Bool) (entry : Option Entry) (counters : Counters) (rs : List Report)
        (deliveries : List OutEvent),
      errs.length = blocks ∧
      (∀ i < blocks, errs[i]? = some (decide (¬ BlockPasses s.cfg.crc size (block i)))) ∧
      (∀ o ∈ deliveries, (∃ p, o = .appRx p) ∨ ∃ m, o = .mgmtRx m) ∧
      ∀ t : State, t = { s with
        lastReceivedSsn :=
          if blocks = 0 then s.lastReceivedSsn
          else some (BitVec.ofNat 16 (leNat ((block (blocks - 1)).take 2)))
        entry := entry
        counters := counters
        reports := s.reports ++ rs
        outputs := s.outputs ++ deliveries
        rxBlockErrors := errs } →
      (∀ b, b = burst ∨ b = burst.take (blocks * (size + 8)) →
        (s.fsm = .waitingForSof → exec (.phyRxSof b) s = .next t) ∧
        exec (.reassemble b) s = .next { t with result := .blockErrors errs }) ∧
      ∀ hdr rest, encode (.phyBlockHeader hdr rest) = burst →
        exec (.phyBlockHeader hdr rest) s = .next { t with result := .blockErrors errs }

/-- A block that fails its check is marked in the error list and reported with its number; an entry waiting
for it is discarded; nothing of its body is delivered or accumulated (44_reassembler.md R235). The spec's
decisions D15 and D17. -/
def Obligations.FailedBlockContributesNothing : Prop :=
  ∀ (s u : State) (burst blk : Bytes) (size index : Nat), s.fsm = .waitingForSof →
    LastBlock s u burst blk size index → ¬ BlockPasses s.cfg.crc size blk →
    let ssn := (headerFields blk).ssn
    let v := u.examined ssn
    exec (.phyRxSof burst) s = .next { v with
      counters := { v.counters with integrityBlock := v.counters.integrityBlock + 1 }
      reports := v.reports ++ [.block ssn index]
      entry := if u.entry.map Entry.key = some ssn then none else u.entry
      rxBlockErrors := u.rxBlockErrors ++ [true] }

/-- Every whole block whose sequence number does not follow the one before it, failed blocks included, is
reported once and counted, and the first block after reset is not checked (44_reassembler.md R233). The spec's
decision D17. -/
def Obligations.SequenceGapsAreReportedAndCounted : Prop :=
  ∀ (s : State) (burst : Bytes), s.fsm = .waitingForSof →
    let size := if burst.length > 136 then 512 else 128
    let ssns := (List.range (burst.length / (size + 8))).map fun i =>
      BitVec.ofNat 16 (leNat ((burst.drop (i * (size + 8))).take 2))
    let gaps := (List.zipWith gapReports (s.lastReceivedSsn :: ssns.map some) ssns).flatten
    ∃ t, exec (.phyRxSof burst) s = .next t ∧
      t.reports.filter (fun r => r.code == 0x3#4) = s.reports.filter (fun r => r.code == 0x3#4) ++ gaps ∧
      t.counters.sequence = s.counters.sequence + BitVec.ofNat 32 gaps.length

/-- A block that passes its check with its boundary at or past the end of its body is reported as malformed,
delivers nothing, discards the entry and is not marked errored (44_reassembler.md R236). The spec's decision
D16. -/
def Obligations.BadBoundaryIsReported : Prop :=
  ∀ (s u : State) (burst blk : Bytes) (size index : Nat), s.fsm = .waitingForSof →
    LastBlock s u burst blk size index → BlockPasses s.cfg.crc size blk →
    ∀ h, h = headerFields blk → h.macBoundaryFlag = true → size ≤ h.macBoundaryOffset.toNat →
    let v := u.examined h.ssn
    exec (.phyRxSof burst) s = .next { v with
      counters := { v.counters with format := v.counters.format + 1 }
      reports := v.reports ++ [.badBoundary h.ssn h.macBoundaryOffset.toNat]
      entry := none
      rxBlockErrors := u.rxBlockErrors ++ [false] }

/-- A block without a boundary is all continuation: an entry waiting for it takes the whole body and is
delivered when its frame is complete, or waits for the next sequence number; an entry waiting for another
block is discarded, and with no entry the body is dropped (44_reassembler.md R237 to R243). The spec's decision
D15. -/
def Obligations.BlockWithoutBoundaryContinuesTheEntry : Prop :=
  ∀ (s u : State) (burst blk : Bytes) (size index : Nat), s.fsm = .waitingForSof →
    LastBlock s u burst blk size index → BlockPasses s.cfg.crc size blk →
    ∀ h, h = headerFields blk → h.macBoundaryFlag = false →
    let v : State := { u.examined h.ssn with entry := none, rxBlockErrors := u.rxBlockErrors ++ [false] }
    ((∀ e, u.entry = some e → e.key ≠ h.ssn) → exec (.phyRxSof burst) s = .next v) ∧
    ∀ e data, u.entry = some e → e.key = h.ssn → data = e.data ++ slice blk 4 (4 + size) →
      ((data.length < 2 ∨ data.length < frameTotal s.cfg data) →
        exec (.phyRxSof burst) s = .next { v with entry := some ⟨h.ssn + 1, data⟩ }) ∧
      (2 ≤ data.length → frameTotal s.cfg data ≤ data.length →
        exec (.phyRxSof burst) s = .next (v.deliver (data.take (frameTotal s.cfg data))))

/-- A block with a boundary: the bytes before it complete the entry waiting for this block or discard it; the
frames from it on are delivered in order, whatever their type but padding; what is left after them is
dropped where it is padding and becomes an entry for the next sequence number where it is a partial frame or
a single byte (44_reassembler.md R238 to R248). That the scan reads the MFH in the configured order, also under
`MFH_TYPE_AT_LSB`, is the model's reading (log entry 25). The spec's decisions D13, D14, D15 and D38. -/
def Obligations.BlockWithBoundaryDeliversItsFrames : Prop :=
  ∀ (s u : State) (burst blk : Bytes) (size index : Nat), s.fsm = .waitingForSof →
    LastBlock s u burst blk size index → BlockPasses s.cfg.crc size blk →
    ∀ h, h = headerFields blk → h.macBoundaryFlag = true → h.macBoundaryOffset.toNat < size →
    ∀ (fs : List Bytes) (left : Bytes),
      slice blk (4 + h.macBoundaryOffset.toNat) (4 + size) = fs.flatten ++ left →
      (∀ f ∈ fs, 2 ≤ f.length ∧ frameType s.cfg f ≠ 0 ∧ f.length = frameTotal s.cfg f) →
      ¬ (2 ≤ left.length ∧ frameType s.cfg left ≠ 0 ∧ frameTotal s.cfg left ≤ left.length) →
      ∀ continued : List Bytes,
        (continued = match u.entry with
          | none => []
          | some e =>
            let data := e.data ++ slice blk 4 (4 + h.macBoundaryOffset.toNat)
            if e.key = h.ssn ∧ 2 ≤ data.length ∧ frameTotal s.cfg data ≤ data.length
            then [data.take (frameTotal s.cfg data)] else []) →
        exec (.phyRxSof burst) s = .next ((continued ++ fs).foldl State.deliver
          { u.examined h.ssn with
            entry := if left = [] ∨ (2 ≤ left.length ∧ frameType s.cfg left = 0) then none
              else some ⟨h.ssn + 1, left⟩
            rxBlockErrors := u.rxBlockErrors ++ [false] })

/-- Frames queued to one destination, cut into bursts by as many invocations as it takes and received whole
and in order, come out as the payloads that went in, in order, with no format or integrity error counted, and
no gap either where the first block is the receiver's first or follows its last one (43_segmenter.md R205, R199,
44_reassembler.md R233). The sequence modulus is the default one, the spec's decision D1: under the alternative
of R203 the receiver sees a gap. That the law holds under `MFH_TYPE_AT_LSB` too rests on the model's reading of
the scan (log entry 25). -/
def Obligations.SegmentThenReassembleReturnsTheFrames : Prop :=
  ∀ (s r : State) (slot : Nat) (st : Stream) (sent : List (Addr × Bytes × Option Confounder)),
    s.cfg.ssnMod = .m65536 → r.cfg.crc = s.cfg.crc → r.cfg.mfhTypeAtLsb = s.cfg.mfhTypeAtLsb →
    r.fsm = .waitingForSof → r.entry = none →
    s.streams[slot]? = some st → st.remainder = [] → st.nextSsn.toNat < 65536 →
    List.Forall₂ (fun x f => exec (.macEncode x.1 x.2.1 x.2.2) s = .next { s with result := .frame (some f) })
      sent st.pendingFrames →
    (∃ s' r', Carried slot s r s' r' ∧ ∀ st', s'.streams[slot]? = some st' → st'.pending = 0) ∧
    ∀ s' r', Carried slot s r s' r' → (∀ st', s'.streams[slot]? = some st' → st'.pending = 0) →
      r'.outputs = r.outputs ++ sent.map (fun x => if x.2.2.isSome then .mgmtRx x.2.1 else .appRx x.2.1) ∧
      r'.counters.format = r.counters.format ∧ r'.counters.integrityMac = r.counters.integrityMac ∧
      r'.counters.integrityBlock = r.counters.integrityBlock ∧
      ((∀ l, r.lastReceivedSsn = some l → BitVec.ofNat 16 st.nextSsn.toNat = l + 1) →
        r'.counters.sequence = r.counters.sequence)

/-- The header flags `valid`, `mgmt_queue_flag` and `oldest_ssn_flag` and the reserved bits have no influence
on reception (30_encoding.md R93, R109). The spec's decision D10. -/
def Obligations.IgnoredHeaderBitsChangeNothing : Prop :=
  ∀ (s : State) (h h' : BlockHeader) (body : Bytes), body.length = 128 ∨ body.length = 512 →
    h'.ssn = h.ssn → h'.macBoundaryOffset = h.macBoundaryOffset → h'.macBoundaryFlag = h.macBoundaryFlag →
    exec (.phyRxSof (blockBytes s.cfg.crc h' body)) s = exec (.phyRxSof (blockBytes s.cfg.crc h body)) s

/-! ## The SACK -/

/-- SACK-ENCODE writes the tag, one bit per block from bit 8 on, and zeros after them
(45_sack.md R270, R271, R272). -/
def Obligations.SackEncodeWritesOneBitPerBlock : Prop :=
  ∀ (s : State) (errs : List Bool), (encode (.sackEncode errs)).head? = some 0x19#8 ∧
    ∃ b : Bytes, exec (.sackEncode errs) s = .next { s with result := .bytes b } ∧
      b.length = 1 + (errs.length + 7) / 8 ∧ b.head? = some 0x15#8 ∧
      (∀ i < errs.length, errs[i]? = some (bitAt b (8 + i))) ∧
      ∀ p, 8 + errs.length ≤ p → bitAt b p = false

/-- SACK-DECODE reports a wrong tag, then a SACK too short for its blocks, and otherwise counts the flags set
among them; the SACK row decodes for the block count of the last transmission
(45_sack.md R273, R274, R275). The row's reading is the model's (log entry 12). The spec's decisions D19 and
D46. -/
def Obligations.SackDecodeCountsTheFlags : Prop :=
  ∀ (s : State) (b : Bytes) (n : Nat),
    let e := (List.range n).countP fun i => bitAt b (8 + i)
    let malformed := fun r : Report => ({ s with
      counters := { s.counters with format := s.counters.format + 1 }
      reports := s.reports ++ [r]
      result := .count none } : State)
    (exec (.sackDecode b n) s = .next (
      if b.head? ≠ some 0x15#8 then malformed (.badSackTag b.head?)
      else if b.length < 1 + (n + 7) / 8 then malformed (.shortSack b.length n)
      else { s with
        reports := s.reports ++ (if e = 0 then [] else [.sackResult e])
        result := .count (some e) })) ∧
    ∀ bitmap, b = 0x15#8 :: bitmap → n = s.lastFrameBlockCount.toNat →
      exec (.sackPayload bitmap) s = .next (
        if b.length < 1 + (n + 7) / 8 then malformed (.shortSack b.length n)
        else { s with
          reports := s.reports ++ (if e = 0 then [] else [.sackResult e])
          result := .count (some e) })

/-- Decoding an encoded SACK for its number of blocks counts the errored ones (45_sack.md R278). -/
def Obligations.SackDecodeCountsWhatWasEncoded : Prop :=
  ∀ (s t : State) (errs : List Bool),
    ∃ b : Bytes, exec (.sackEncode errs) s = .next { s with result := .bytes b } ∧
      exec (.sackDecode b errs.length) t = .next { t with
        reports := t.reports ++ (if errs.count true = 0 then [] else [.sackResult (errs.count true)])
        result := .count (some (errs.count true)) }

/-! ## Reset -/

/-- RESET, in any state, leaves every register at its reset value, keeps the configuration, and emits and
reports nothing; the state after power-up is one that it leaves as it is (70_reset_and_hazards.md R400,
R401). That the inputs, the time, the draws and the ports are kept is the model's (log entry 28). The deadline
and the keys of free slots are unspecified in R401; that the state after power-up is kept whole, these included,
rests on the values the model gives them (log entry 5, unsafe). The spec's decision D39. -/
def Obligations.ResetLeavesTheResetValues : Prop :=
  (∀ s : State, ∃ (deadline : BitVec 64) (streams : List Stream),
    streams.length = s.cfg.nStreams ∧
    (∀ st ∈ streams, st.inUse = false ∧ st.nextSsn = 0 ∧ st.pendingFrames = [] ∧ st.remainder = []) ∧
    exec .reset s = .next { s with
      fsm := if s.cfg.role = .master then .waitingForApp else .waitingForSof
      lastSoundTime := none
      lastReceivedSsn := none
      lastFrameBlockCount := 0
      timerArmed := false
      timerGen := 0
      timerDeadline := deadline
      rxBlockErrors := []
      lastSackErrored := 0
      streams := streams
      inflight := 0
      full := false
      entry := none
      counters := ⟨0, 0, 0, 0, 0, 0⟩ }) ∧
  ∀ cfg : Config, exec .reset (State.resetOf cfg) = .next (State.resetOf cfg)

/-- The invariant holds after reset, for every configuration (70_reset_and_hazards.md R401). -/
def Obligations.InvariantHoldsAtReset : Prop :=
  (∀ cfg : Config, (State.resetOf cfg).Inv) ∧ State.reset.Inv

/-! ## Submissions -/

/-- An accepted APP submission outside `WaitingForApp` only enqueues: its frame goes to the tail of its
destination's stream, a free slot being allocated for a new destination; it is counted; READY is emitted
while the queue is below its limit (43_segmenter.md R190, 46_arq_fsm.md R293, 47_txqueue_mgmt_interface.md
R341, R343, R346). The spec's decisions D35 and D36. -/
def Obligations.AppSubmitOnlyEnqueuesOutsideWaitingForApp : Prop :=
  ∀ (s : State) (dest : Addr) (p : Bytes) (slot : Nat) (st : Stream),
    s.fsm ≠ .waitingForApp → s.full = false → s.SlotFor dest slot st → p.length + 13 ≤ 16383 →
    ∃ f : Bytes, exec (.macEncode dest p none) s = .next { s with result := .frame (some f) } ∧
      exec (.appSubmit dest p) s = .next (s.queued dest slot st f)

/-- An accepted APP submission in `WaitingForApp` enqueues the same way and then runs the send path
(46_arq_fsm.md R293). The spec's decisions D24, D35 and D36. -/
def Obligations.AppSubmitInWaitingForAppStartsACycle : Prop :=
  ∀ (s : State) (dest : Addr) (p : Bytes) (slot : Nat) (st : Stream),
    s.fsm = .waitingForApp → s.full = false → s.SlotFor dest slot st → p.length + 13 ≤ 16383 →
    ∃ f t, exec (.macEncode dest p none) s = .next { s with result := .frame (some f) } ∧
      exec (.appSubmit dest p) s = .next t ∧ (s.queued dest slot st f).Sends t ∧ t.fsm = .sendingSofOrSound

/-- An accepted management submission enqueues a management frame with the drawn confounder and starts no
cycle, in any state (46_arq_fsm.md R294). The spec's decision D37. -/
def Obligations.MgmtSubmitNeverStartsACycle : Prop :=
  ∀ (s : State) (dest : Addr) (mm : Bytes) (slot : Nat) (st : Stream),
    s.full = false → s.SlotFor dest slot st → mm.length + 17 ≤ 16383 →
    ∃ f : Bytes,
      exec (.macEncode dest mm (some s.draw.confounder)) s = .next { s with result := .frame (some f) } ∧
      exec (.mgmtSubmit dest mm) s = .next (s.queued dest slot st f)

/-- A submission is rejected while the queue is full, and when every slot is in use for other destinations:
it reports and changes nothing else (47_txqueue_mgmt_interface.md R342, R346). The spec's decisions D35 and D36. -/
def Obligations.RejectedSubmissionOnlyReports : Prop :=
  ∀ (s : State) (dest : Addr) (p : Bytes),
    let rejected := fun r : Report => ({ s with
      counters := { s.counters with capacity := s.counters.capacity + 1 }
      reports := s.reports ++ [r] } : State)
    (s.full = true →
      exec (.appSubmit dest p) s = .next (rejected (.queueFull dest)) ∧
      exec (.mgmtSubmit dest p) s = .next (rejected (.queueFull dest))) ∧
    (s.full = false → (∀ st ∈ s.streams, st.inUse = true ∧ st.dest ≠ dest) →
      (p.length + 13 ≤ 16383 → exec (.appSubmit dest p) s = .next (rejected (.noStream dest))) ∧
      (p.length + 17 ≤ 16383 → exec (.mgmtSubmit dest p) s = .next (rejected (.noStream dest))))

/-! ## The state machine -/

/-- PHY-RXEND in `WaitingForSack` disarms the timer, runs the send path and switches to receive search
(46_arq_fsm.md R298). The spec's decisions D24 and D48. -/
def Obligations.RxEndClosesTheSackWindow : Prop :=
  ∀ s : State, s.fsm = .waitingForSack →
    ∃ t, State.Sends { s with timerArmed := false } t ∧
      exec .phyRxEnd s = .next { t with outputs := t.outputs ++ [.searchPpdu] }

/-- Every stream with queued data is served under some draw (46_arq_fsm.md R302). The spec's decision D29; log
entry 19. -/
def Obligations.EveryStreamWithDataCanBeDrawn : Prop :=
  ∀ (s : State) (l : BitVec 64) (i : Nat) (st : Stream), s.fsm = .waitingForSack →
    s.lastSoundTime = some l → s.now ≤ l.toNat + s.cfg.soundPeriodTicks →
    s.streams[i]? = some st → 0 < st.pending →
    ∃ (pick : Nat) (t : State),
      exec .phyRxEnd { s with draw := { s.draw with pick := pick } } = .next t ∧
      t.streams = s.streams.set i (segment s.cfg st).stream ∧
      t.outputs[s.outputs.length]?
        = some (.sof s.cfg.sofModulation s.cfg.sofRoboMode (segment s.cfg st).burst)

/-- With data to send, a cycle sends a sound instead of data exactly when none was sent yet or strictly more
than the period has passed, and records the time; a later cycle within the period sends data
(46_arq_fsm.md R301). Times below 2^64 (log entry 6). The spec's decisions D25 and D46. -/
def Obligations.SoundIsSentWhenDue : Prop :=
  ∀ s : State, s.fsm = .waitingForSack → s.now < 2 ^ 64 → (∃ st ∈ s.streams, 0 < st.pending) →
    ∃ t, exec .phyRxEnd s = .next t ∧
      (t.outputs = s.outputs ++ [.sound, .searchPpdu] ↔
        ∀ l, s.lastSoundTime = some l → l.toNat + s.cfg.soundPeriodTicks < s.now) ∧
      ((∀ l, s.lastSoundTime = some l → l.toNat + s.cfg.soundPeriodTicks < s.now) →
        t.lastSoundTime.map BitVec.toNat = some s.now ∧ t.lastFrameBlockCount = 0 ∧
        t.fsm = .sendingSofOrSound ∧ t.streams = s.streams ∧
        ∀ u : State, u.cfg = s.cfg → u.lastSoundTime = t.lastSoundTime → u.fsm = .waitingForSack →
          u.now ≤ s.now + s.cfg.soundPeriodTicks → (∃ st ∈ u.streams, 0 < st.pending) →
          ∃ v burst, exec .phyRxEnd u = .next v ∧
            v.outputs[u.outputs.length]? = some (.sof s.cfg.sofModulation s.cfg.sofRoboMode burst))

/-- PHY-TXEND after a sof or sound arms the timer and waits for the SACK; after a SACK it waits for the next
burst (46_arq_fsm.md R295, R296, R308). A deadline of 2^64 or more is open (log entry 6). The spec's decision
D27. -/
def Obligations.TxEndArmsTheTimerOrEndsTheSack : Prop :=
  ∀ s : State,
    (s.fsm = .sendingSofOrSound →
      ∃ deadline : BitVec 64,
        (s.now + s.cfg.sackTimeoutTicks < 2 ^ 64 → deadline.toNat = s.now + s.cfg.sackTimeoutTicks) ∧
        exec .phyTxEnd s = .next { s with
          timerGen := s.timerGen + 1
          timerArmed := true
          timerDeadline := deadline
          fsm := .waitingForSack }) ∧
    (s.fsm = .sendingSack → exec .phyTxEnd s = .next { s with fsm := .waitingForSof })

/-- PHY-RXSACK in `WaitingForSack` disarms the timer, malformed or not, decodes the SACK for the blocks of
the last transmission, and stores the count of a well-formed one (46_arq_fsm.md R297). The spec's decisions D19
and D23. -/
def Obligations.RxSackDisarmsAndStoresTheCount : Prop :=
  ∀ (s : State) (b : Bytes), s.fsm = .waitingForSack →
    let n := s.lastFrameBlockCount.toNat
    let e := (List.range n).countP fun i => bitAt b (8 + i)
    let malformed := fun r : Report => ({ s with
      timerArmed := false
      counters := { s.counters with format := s.counters.format + 1 }
      reports := s.reports ++ [r] } : State)
    exec (.phyRxSack b) s = .next (
      if b.head? ≠ some 0x15#8 then malformed (.badSackTag b.head?)
      else if b.length < 1 + (n + 7) / 8 then malformed (.shortSack b.length n)
      else { s with
        timerArmed := false
        reports := s.reports ++ (if e = 0 then [] else [.sackResult e])
        lastSackErrored := BitVec.ofNat 32 e })

/-- PHY-RXEND in `WaitingForSof` answers with the SACK of the block errors, clears them and switches to
receive search (46_arq_fsm.md R299). The spec's decision D20. -/
def Obligations.RxEndAnswersWithASack : Prop :=
  ∀ s : State, s.fsm = .waitingForSof →
    ∃ b : Bytes, exec (.sackEncode s.rxBlockErrors) s = .next { s with result := .bytes b } ∧
      exec .phyRxEnd s = .next { s with
        outputs := s.outputs ++ [.sack b, .searchPpdu]
        rxBlockErrors := []
        fsm := .sendingSack }

/-- PHY-RXSOUND in `WaitingForSof` clears the block errors (46_arq_fsm.md R305). The spec's decision D20. -/
def Obligations.RxSoundClearsTheBlockErrors : Prop :=
  ∀ s : State, s.fsm = .waitingForSof → exec .phyRxSound s = .next { s with rxBlockErrors := [] }

/-- Every pair of state and event that has no handler changes nothing (46_arq_fsm.md R310, with the table of
R292). The spec's decision D21. -/
def Obligations.EventsWithoutAHandlerAreIgnored : Prop :=
  ∀ s : State,
    (s.fsm ≠ .sendingSofOrSound → s.fsm ≠ .sendingSack → exec .phyTxEnd s = .next s) ∧
    (s.fsm ≠ .waitingForSack → ∀ b, exec (.phyRxSack b) s = .next s) ∧
    (s.fsm ≠ .waitingForSack → s.fsm ≠ .waitingForSof → exec .phyRxEnd s = .next s) ∧
    (s.fsm ≠ .waitingForSof → ∀ b, exec (.phyRxSof b) s = .next s) ∧
    (s.fsm ≠ .waitingForSof → exec .phyRxSound s = .next s)

/-! ## The SACK timer -/

/-- A stale expiry changes nothing: the timer not armed, another generation, or before the deadline
(46_arq_fsm.md R307). The spec's decision D27. -/
def Obligations.StaleExpiryChangesNothing : Prop :=
  ∀ (s : State) (gen : BitVec 32),
    s.timerArmed = false ∨ gen ≠ s.timerGen ∨ s.now < s.timerDeadline.toNat →
    exec (.timerExpire gen) s = .next s

/-- A valid expiry disarms the timer, reports the timeout, counts the burst as fully lost and runs the send
path; it switches nothing to receive search (46_arq_fsm.md R306). The spec's decisions D26, D45 and D48. -/
def Obligations.ValidExpiryRunsTheSendPath : Prop :=
  ∀ s : State, s.timerArmed = true → s.timerDeadline.toNat ≤ s.now →
    ∃ t, exec (.timerExpire s.timerGen) s = .next t ∧
      State.Sends { s with
        timerArmed := false
        counters := { s.counters with timeout := s.counters.timeout + 1 }
        reports := s.reports ++ [.sackTimeout s.timerGen]
        lastSackErrored := s.lastFrameBlockCount.setWidth 32 } t

/-- Each arming has at most one effective expiry: an expiry that takes effect disarms the timer and emits
exactly one sof or sound, or none with no data left; with the timer disarmed every expiry is ignored; only
PHY-TXEND arms it again, under the next generation (46_arq_fsm.md R312). -/
def Obligations.OneExpiryPerArming : Prop :=
  (∀ s : State, s.timerArmed = true → s.timerDeadline.toNat ≤ s.now →
    ∃ t added, exec (.timerExpire s.timerGen) s = .next t ∧ t.timerArmed = false ∧
      t.outputs = s.outputs ++ added ∧
      ((∃ st ∈ s.streams, 0 < st.pending) →
        added.countP (fun o => o.code == 0x20#8 || o.code == 0x21#8) = 1) ∧
      ((∀ st ∈ s.streams, st.pending = 0) → added = [])) ∧
  (∀ (s : State) (gen : BitVec 32), s.timerArmed = false → exec (.timerExpire gen) s = .next s) ∧
  ∀ (i : Instr) (s t : State), s.timerArmed = false → exec i s = .next t → t.timerArmed = true →
    i = .phyTxEnd ∧ t.timerGen = s.timerGen + 1

/-! ## Output events -/

/-- The rows of the output events emit their event, and nothing else changes (30_encoding.md R106). That the
row is the emission is the model's reading (log entry 10). -/
def Obligations.OutputRowsEmitTheirEvent : Prop :=
  ∀ (s : State) (b : Bytes),
    exec (.sof b) s
      = .next { s with outputs := s.outputs ++ [.sof s.cfg.sofModulation s.cfg.sofRoboMode b] } ∧
    exec .sound s = .next { s with outputs := s.outputs ++ [.sound] } ∧
    exec (.sack b) s = .next { s with outputs := s.outputs ++ [.sack b] } ∧
    exec .searchPpdu s = .next { s with outputs := s.outputs ++ [.searchPpdu] } ∧
    exec (.appRx b) s = .next { s with outputs := s.outputs ++ [.appRx b] } ∧
    exec (.mgmtRx b) s = .next { s with outputs := s.outputs ++ [.mgmtRx b] } ∧
    exec .ready s = .next { s with outputs := s.outputs ++ [.ready] }

/-! ## Invariants -/

/-- Every step keeps the invariant: the stream table and its slots within their ranges, one slot for a
destination; the outstanding frames counted and `full` exactly at the limit; the timer armed only in
`WaitingForSack`; the states of each role; the entry an incomplete frame; the errored count at most three
(10_state.md R40 to R43, R50, 46_arq_fsm.md R311, R313, 47_txqueue_mgmt_interface.md R340, R341). The spec's
decisions D35 and D36. -/
def Obligations.StepKeepsTheInvariant : Prop :=
  ∀ s t : State, s.Inv → step s = .next t → t.Inv

/-- A slave in a state of its role transmits no sof and no sound: only the two rows that emit them do
(46_arq_fsm.md R311). The spec's decision D21. -/
def Obligations.SlaveSendsNoBurstOrSound : Prop :=
  ∀ (i : Instr) (s t : State), s.cfg.role = .slave → s.RoleOk → s.TimerOk →
    (∀ b, i ≠ .sof b) → i ≠ .sound → exec i s = .next t →
    (∃ added, t.outputs = s.outputs ++ added ∧
      ∀ o ∈ added, (o.code == 0x20#8 || o.code == 0x21#8) = false) ∧
    t.RoleOk ∧ t.TimerOk

/-! ## Management messages -/

/-- A management message and a channel-estimation entry read back as they were built; the entry has
`ceil((80 + 4c) / 8)` bytes for `c` carriers, each field at its bit offset, the reserved field 0 and, for an odd
`c`, the spare high nibble 0 (47_txqueue_mgmt_interface.md R347, R348, R349). The entry has at most the 65535
carriers that `cbd_len` counts; a longer one is the model's choice (log entry 35). The spec's
decisions D4 and D50; log entry 26. -/
def Obligations.ManagementMessagesReadBack : Prop :=
  (∀ (mmtype : BitVec 16) (entry : Bytes),
    (mgmtMessage mmtype entry).head? = some 1#8 ∧
    leNat (slice (mgmtMessage mmtype entry) 1 3) = mmtype.toNat ∧
    (mgmtMessage mmtype entry).drop 3 = entry ∧
    readMgmtMessage (mgmtMessage mmtype entry) = some (mmtype, entry)) ∧
  ∀ e : ChannelEstimation, e.cbd.length < 65536 →
    let field := fun offset width => leNat (ceBytes e) / 2 ^ offset % 2 ^ width
    (ceBytes e).length = (80 + 4 * e.cbd.length + 7) / 8 ∧
    field 0 8 = e.ntmi.toNat ∧ field 8 8 = e.tmi.toNat ∧ field 16 8 = e.nint.toNat ∧
    field 24 8 = e.newTmi.toNat ∧ field 32 24 = 0 ∧ field 56 8 = e.cbdEnc.toNat ∧
    field 64 16 = e.cbd.length ∧ (∀ i v, e.cbd[i]? = some v → field (80 + 4 * i) 4 = v.toNat) ∧
    (e.cbd.length % 2 = 1 → field (80 + 4 * e.cbd.length) 4 = 0) ∧
    readCe (ceBytes e) = some e

end
end

