-- ==== Sys2Proof/Laws/State.lean ====
section
/-! SUPPORT. One lemma per field per update of State, each true by unfolding the update. -/

namespace Sys2Proof.Machine

variable (s : State)

/-! ## State.emit -/

@[simp] theorem State.emit_cfg (e : OutEvent) : (s.emit e).cfg = s.cfg := rfl
@[simp] theorem State.emit_fsm (e : OutEvent) : (s.emit e).fsm = s.fsm := rfl
@[simp] theorem State.emit_lastSoundTime (e : OutEvent) : (s.emit e).lastSoundTime = s.lastSoundTime := rfl
@[simp] theorem State.emit_lastReceivedSsn (e : OutEvent) : (s.emit e).lastReceivedSsn = s.lastReceivedSsn := rfl
@[simp] theorem State.emit_lastFrameBlockCount (e : OutEvent) : (s.emit e).lastFrameBlockCount = s.lastFrameBlockCount := rfl
@[simp] theorem State.emit_timerArmed (e : OutEvent) : (s.emit e).timerArmed = s.timerArmed := rfl
@[simp] theorem State.emit_timerGen (e : OutEvent) : (s.emit e).timerGen = s.timerGen := rfl
@[simp] theorem State.emit_timerDeadline (e : OutEvent) : (s.emit e).timerDeadline = s.timerDeadline := rfl
@[simp] theorem State.emit_rxBlockErrors (e : OutEvent) : (s.emit e).rxBlockErrors = s.rxBlockErrors := rfl
@[simp] theorem State.emit_lastSackErrored (e : OutEvent) : (s.emit e).lastSackErrored = s.lastSackErrored := rfl
@[simp] theorem State.emit_streams (e : OutEvent) : (s.emit e).streams = s.streams := rfl
@[simp] theorem State.emit_inflight (e : OutEvent) : (s.emit e).inflight = s.inflight := rfl
@[simp] theorem State.emit_full (e : OutEvent) : (s.emit e).full = s.full := rfl
@[simp] theorem State.emit_entry (e : OutEvent) : (s.emit e).entry = s.entry := rfl
@[simp] theorem State.emit_counters (e : OutEvent) : (s.emit e).counters = s.counters := rfl
@[simp] theorem State.emit_now (e : OutEvent) : (s.emit e).now = s.now := rfl
@[simp] theorem State.emit_draw (e : OutEvent) : (s.emit e).draw = s.draw := rfl
@[simp] theorem State.emit_inbox (e : OutEvent) : (s.emit e).inbox = s.inbox := rfl
@[simp] theorem State.emit_outputs (e : OutEvent) : (s.emit e).outputs = s.outputs ++ [e] := rfl
@[simp] theorem State.emit_reports (e : OutEvent) : (s.emit e).reports = s.reports := rfl
@[simp] theorem State.emit_result (e : OutEvent) : (s.emit e).result = s.result := rfl
@[simp] theorem State.emit_boundsFault (e : OutEvent) : (s.emit e).boundsFault = s.boundsFault := rfl

/-! ## State.emitSof -/

@[simp] theorem State.emitSof_cfg (b : Bytes) : (s.emitSof b).cfg = s.cfg := rfl
@[simp] theorem State.emitSof_fsm (b : Bytes) : (s.emitSof b).fsm = s.fsm := rfl
@[simp] theorem State.emitSof_lastSoundTime (b : Bytes) : (s.emitSof b).lastSoundTime = s.lastSoundTime := rfl
@[simp] theorem State.emitSof_lastReceivedSsn (b : Bytes) : (s.emitSof b).lastReceivedSsn = s.lastReceivedSsn := rfl
@[simp] theorem State.emitSof_lastFrameBlockCount (b : Bytes) : (s.emitSof b).lastFrameBlockCount = s.lastFrameBlockCount := rfl
@[simp] theorem State.emitSof_timerArmed (b : Bytes) : (s.emitSof b).timerArmed = s.timerArmed := rfl
@[simp] theorem State.emitSof_timerGen (b : Bytes) : (s.emitSof b).timerGen = s.timerGen := rfl
@[simp] theorem State.emitSof_timerDeadline (b : Bytes) : (s.emitSof b).timerDeadline = s.timerDeadline := rfl
@[simp] theorem State.emitSof_rxBlockErrors (b : Bytes) : (s.emitSof b).rxBlockErrors = s.rxBlockErrors := rfl
@[simp] theorem State.emitSof_lastSackErrored (b : Bytes) : (s.emitSof b).lastSackErrored = s.lastSackErrored := rfl
@[simp] theorem State.emitSof_streams (b : Bytes) : (s.emitSof b).streams = s.streams := rfl
@[simp] theorem State.emitSof_inflight (b : Bytes) : (s.emitSof b).inflight = s.inflight := rfl
@[simp] theorem State.emitSof_full (b : Bytes) : (s.emitSof b).full = s.full := rfl
@[simp] theorem State.emitSof_entry (b : Bytes) : (s.emitSof b).entry = s.entry := rfl
@[simp] theorem State.emitSof_counters (b : Bytes) : (s.emitSof b).counters = s.counters := rfl
@[simp] theorem State.emitSof_now (b : Bytes) : (s.emitSof b).now = s.now := rfl
@[simp] theorem State.emitSof_draw (b : Bytes) : (s.emitSof b).draw = s.draw := rfl
@[simp] theorem State.emitSof_inbox (b : Bytes) : (s.emitSof b).inbox = s.inbox := rfl
@[simp] theorem State.emitSof_outputs (b : Bytes) : (s.emitSof b).outputs = s.outputs ++ [.sof s.cfg.sofModulation s.cfg.sofRoboMode b] := rfl
@[simp] theorem State.emitSof_reports (b : Bytes) : (s.emitSof b).reports = s.reports := rfl
@[simp] theorem State.emitSof_result (b : Bytes) : (s.emitSof b).result = s.result := rfl
@[simp] theorem State.emitSof_boundsFault (b : Bytes) : (s.emitSof b).boundsFault = s.boundsFault := rfl

/-! ## State.setResult -/

@[simp] theorem State.setResult_cfg (r : OpResult) : (s.setResult r).cfg = s.cfg := rfl
@[simp] theorem State.setResult_fsm (r : OpResult) : (s.setResult r).fsm = s.fsm := rfl
@[simp] theorem State.setResult_lastSoundTime (r : OpResult) : (s.setResult r).lastSoundTime = s.lastSoundTime := rfl
@[simp] theorem State.setResult_lastReceivedSsn (r : OpResult) : (s.setResult r).lastReceivedSsn = s.lastReceivedSsn := rfl
@[simp] theorem State.setResult_lastFrameBlockCount (r : OpResult) : (s.setResult r).lastFrameBlockCount = s.lastFrameBlockCount := rfl
@[simp] theorem State.setResult_timerArmed (r : OpResult) : (s.setResult r).timerArmed = s.timerArmed := rfl
@[simp] theorem State.setResult_timerGen (r : OpResult) : (s.setResult r).timerGen = s.timerGen := rfl
@[simp] theorem State.setResult_timerDeadline (r : OpResult) : (s.setResult r).timerDeadline = s.timerDeadline := rfl
@[simp] theorem State.setResult_rxBlockErrors (r : OpResult) : (s.setResult r).rxBlockErrors = s.rxBlockErrors := rfl
@[simp] theorem State.setResult_lastSackErrored (r : OpResult) : (s.setResult r).lastSackErrored = s.lastSackErrored := rfl
@[simp] theorem State.setResult_streams (r : OpResult) : (s.setResult r).streams = s.streams := rfl
@[simp] theorem State.setResult_inflight (r : OpResult) : (s.setResult r).inflight = s.inflight := rfl
@[simp] theorem State.setResult_full (r : OpResult) : (s.setResult r).full = s.full := rfl
@[simp] theorem State.setResult_entry (r : OpResult) : (s.setResult r).entry = s.entry := rfl
@[simp] theorem State.setResult_counters (r : OpResult) : (s.setResult r).counters = s.counters := rfl
@[simp] theorem State.setResult_now (r : OpResult) : (s.setResult r).now = s.now := rfl
@[simp] theorem State.setResult_draw (r : OpResult) : (s.setResult r).draw = s.draw := rfl
@[simp] theorem State.setResult_inbox (r : OpResult) : (s.setResult r).inbox = s.inbox := rfl
@[simp] theorem State.setResult_outputs (r : OpResult) : (s.setResult r).outputs = s.outputs := rfl
@[simp] theorem State.setResult_reports (r : OpResult) : (s.setResult r).reports = s.reports := rfl
@[simp] theorem State.setResult_result (r : OpResult) : (s.setResult r).result = r := rfl
@[simp] theorem State.setResult_boundsFault (r : OpResult) : (s.setResult r).boundsFault = s.boundsFault := rfl

/-! ## State.report -/

@[simp] theorem State.report_cfg (r : Report) : (s.report r).cfg = s.cfg := rfl
@[simp] theorem State.report_fsm (r : Report) : (s.report r).fsm = s.fsm := rfl
@[simp] theorem State.report_lastSoundTime (r : Report) : (s.report r).lastSoundTime = s.lastSoundTime := rfl
@[simp] theorem State.report_lastReceivedSsn (r : Report) : (s.report r).lastReceivedSsn = s.lastReceivedSsn := rfl
@[simp] theorem State.report_lastFrameBlockCount (r : Report) : (s.report r).lastFrameBlockCount = s.lastFrameBlockCount := rfl
@[simp] theorem State.report_timerArmed (r : Report) : (s.report r).timerArmed = s.timerArmed := rfl
@[simp] theorem State.report_timerGen (r : Report) : (s.report r).timerGen = s.timerGen := rfl
@[simp] theorem State.report_timerDeadline (r : Report) : (s.report r).timerDeadline = s.timerDeadline := rfl
@[simp] theorem State.report_rxBlockErrors (r : Report) : (s.report r).rxBlockErrors = s.rxBlockErrors := rfl
@[simp] theorem State.report_lastSackErrored (r : Report) : (s.report r).lastSackErrored = s.lastSackErrored := rfl
@[simp] theorem State.report_streams (r : Report) : (s.report r).streams = s.streams := rfl
@[simp] theorem State.report_inflight (r : Report) : (s.report r).inflight = s.inflight := rfl
@[simp] theorem State.report_full (r : Report) : (s.report r).full = s.full := rfl
@[simp] theorem State.report_entry (r : Report) : (s.report r).entry = s.entry := rfl
@[simp] theorem State.report_counters (r : Report) : (s.report r).counters = s.counters.bump r := rfl
@[simp] theorem State.report_now (r : Report) : (s.report r).now = s.now := rfl
@[simp] theorem State.report_draw (r : Report) : (s.report r).draw = s.draw := rfl
@[simp] theorem State.report_inbox (r : Report) : (s.report r).inbox = s.inbox := rfl
@[simp] theorem State.report_outputs (r : Report) : (s.report r).outputs = s.outputs := rfl
@[simp] theorem State.report_reports (r : Report) : (s.report r).reports = s.reports ++ [r] := rfl
@[simp] theorem State.report_result (r : Report) : (s.report r).result = s.result := rfl
@[simp] theorem State.report_boundsFault (r : Report) : (s.report r).boundsFault = s.boundsFault := rfl

/-! ## State.raiseBounds -/

@[simp] theorem State.raiseBounds_cfg (b : BoundsError) : (s.raiseBounds b).cfg = s.cfg := rfl
@[simp] theorem State.raiseBounds_fsm (b : BoundsError) : (s.raiseBounds b).fsm = s.fsm := rfl
@[simp] theorem State.raiseBounds_lastSoundTime (b : BoundsError) : (s.raiseBounds b).lastSoundTime = s.lastSoundTime := rfl
@[simp] theorem State.raiseBounds_lastReceivedSsn (b : BoundsError) : (s.raiseBounds b).lastReceivedSsn = s.lastReceivedSsn := rfl
@[simp] theorem State.raiseBounds_lastFrameBlockCount (b : BoundsError) : (s.raiseBounds b).lastFrameBlockCount = s.lastFrameBlockCount := rfl
@[simp] theorem State.raiseBounds_timerArmed (b : BoundsError) : (s.raiseBounds b).timerArmed = s.timerArmed := rfl
@[simp] theorem State.raiseBounds_timerGen (b : BoundsError) : (s.raiseBounds b).timerGen = s.timerGen := rfl
@[simp] theorem State.raiseBounds_timerDeadline (b : BoundsError) : (s.raiseBounds b).timerDeadline = s.timerDeadline := rfl
@[simp] theorem State.raiseBounds_rxBlockErrors (b : BoundsError) : (s.raiseBounds b).rxBlockErrors = s.rxBlockErrors := rfl
@[simp] theorem State.raiseBounds_lastSackErrored (b : BoundsError) : (s.raiseBounds b).lastSackErrored = s.lastSackErrored := rfl
@[simp] theorem State.raiseBounds_streams (b : BoundsError) : (s.raiseBounds b).streams = s.streams := rfl
@[simp] theorem State.raiseBounds_inflight (b : BoundsError) : (s.raiseBounds b).inflight = s.inflight := rfl
@[simp] theorem State.raiseBounds_full (b : BoundsError) : (s.raiseBounds b).full = s.full := rfl
@[simp] theorem State.raiseBounds_entry (b : BoundsError) : (s.raiseBounds b).entry = s.entry := rfl
@[simp] theorem State.raiseBounds_counters (b : BoundsError) : (s.raiseBounds b).counters = s.counters := rfl
@[simp] theorem State.raiseBounds_now (b : BoundsError) : (s.raiseBounds b).now = s.now := rfl
@[simp] theorem State.raiseBounds_draw (b : BoundsError) : (s.raiseBounds b).draw = s.draw := rfl
@[simp] theorem State.raiseBounds_inbox (b : BoundsError) : (s.raiseBounds b).inbox = s.inbox := rfl
@[simp] theorem State.raiseBounds_outputs (b : BoundsError) : (s.raiseBounds b).outputs = s.outputs := rfl
@[simp] theorem State.raiseBounds_reports (b : BoundsError) : (s.raiseBounds b).reports = s.reports := rfl
@[simp] theorem State.raiseBounds_result (b : BoundsError) : (s.raiseBounds b).result = s.result := rfl
@[simp] theorem State.raiseBounds_boundsFault (b : BoundsError) : (s.raiseBounds b).boundsFault = some b := rfl

/-! ## State.clearPorts -/

@[simp] theorem State.clearPorts_cfg : (s.clearPorts).cfg = s.cfg := rfl
@[simp] theorem State.clearPorts_fsm : (s.clearPorts).fsm = s.fsm := rfl
@[simp] theorem State.clearPorts_lastSoundTime : (s.clearPorts).lastSoundTime = s.lastSoundTime := rfl
@[simp] theorem State.clearPorts_lastReceivedSsn : (s.clearPorts).lastReceivedSsn = s.lastReceivedSsn := rfl
@[simp] theorem State.clearPorts_lastFrameBlockCount : (s.clearPorts).lastFrameBlockCount = s.lastFrameBlockCount := rfl
@[simp] theorem State.clearPorts_timerArmed : (s.clearPorts).timerArmed = s.timerArmed := rfl
@[simp] theorem State.clearPorts_timerGen : (s.clearPorts).timerGen = s.timerGen := rfl
@[simp] theorem State.clearPorts_timerDeadline : (s.clearPorts).timerDeadline = s.timerDeadline := rfl
@[simp] theorem State.clearPorts_rxBlockErrors : (s.clearPorts).rxBlockErrors = s.rxBlockErrors := rfl
@[simp] theorem State.clearPorts_lastSackErrored : (s.clearPorts).lastSackErrored = s.lastSackErrored := rfl
@[simp] theorem State.clearPorts_streams : (s.clearPorts).streams = s.streams := rfl
@[simp] theorem State.clearPorts_inflight : (s.clearPorts).inflight = s.inflight := rfl
@[simp] theorem State.clearPorts_full : (s.clearPorts).full = s.full := rfl
@[simp] theorem State.clearPorts_entry : (s.clearPorts).entry = s.entry := rfl
@[simp] theorem State.clearPorts_counters : (s.clearPorts).counters = s.counters := rfl
@[simp] theorem State.clearPorts_now : (s.clearPorts).now = s.now := rfl
@[simp] theorem State.clearPorts_draw : (s.clearPorts).draw = s.draw := rfl
@[simp] theorem State.clearPorts_inbox : (s.clearPorts).inbox = s.inbox := rfl
@[simp] theorem State.clearPorts_outputs : (s.clearPorts).outputs = [] := rfl
@[simp] theorem State.clearPorts_reports : (s.clearPorts).reports = [] := rfl
@[simp] theorem State.clearPorts_result : (s.clearPorts).result = .none := rfl
@[simp] theorem State.clearPorts_boundsFault : (s.clearPorts).boundsFault = none := rfl

/-! ## State.beginStep -/

@[simp] theorem State.beginStep_cfg (i : Input) (later : List Input) : (s.beginStep i later).cfg = s.cfg := rfl
@[simp] theorem State.beginStep_fsm (i : Input) (later : List Input) : (s.beginStep i later).fsm = s.fsm := rfl
@[simp] theorem State.beginStep_lastSoundTime (i : Input) (later : List Input) : (s.beginStep i later).lastSoundTime = s.lastSoundTime := rfl
@[simp] theorem State.beginStep_lastReceivedSsn (i : Input) (later : List Input) : (s.beginStep i later).lastReceivedSsn = s.lastReceivedSsn := rfl
@[simp] theorem State.beginStep_lastFrameBlockCount (i : Input) (later : List Input) : (s.beginStep i later).lastFrameBlockCount = s.lastFrameBlockCount := rfl
@[simp] theorem State.beginStep_timerArmed (i : Input) (later : List Input) : (s.beginStep i later).timerArmed = s.timerArmed := rfl
@[simp] theorem State.beginStep_timerGen (i : Input) (later : List Input) : (s.beginStep i later).timerGen = s.timerGen := rfl
@[simp] theorem State.beginStep_timerDeadline (i : Input) (later : List Input) : (s.beginStep i later).timerDeadline = s.timerDeadline := rfl
@[simp] theorem State.beginStep_rxBlockErrors (i : Input) (later : List Input) : (s.beginStep i later).rxBlockErrors = s.rxBlockErrors := rfl
@[simp] theorem State.beginStep_lastSackErrored (i : Input) (later : List Input) : (s.beginStep i later).lastSackErrored = s.lastSackErrored := rfl
@[simp] theorem State.beginStep_streams (i : Input) (later : List Input) : (s.beginStep i later).streams = s.streams := rfl
@[simp] theorem State.beginStep_inflight (i : Input) (later : List Input) : (s.beginStep i later).inflight = s.inflight := rfl
@[simp] theorem State.beginStep_full (i : Input) (later : List Input) : (s.beginStep i later).full = s.full := rfl
@[simp] theorem State.beginStep_entry (i : Input) (later : List Input) : (s.beginStep i later).entry = s.entry := rfl
@[simp] theorem State.beginStep_counters (i : Input) (later : List Input) : (s.beginStep i later).counters = s.counters := rfl
@[simp] theorem State.beginStep_now (i : Input) (later : List Input) : (s.beginStep i later).now = i.now := rfl
@[simp] theorem State.beginStep_draw (i : Input) (later : List Input) : (s.beginStep i later).draw = i.draw := rfl
@[simp] theorem State.beginStep_inbox (i : Input) (later : List Input) : (s.beginStep i later).inbox = later := rfl
@[simp] theorem State.beginStep_outputs (i : Input) (later : List Input) : (s.beginStep i later).outputs = [] := rfl
@[simp] theorem State.beginStep_reports (i : Input) (later : List Input) : (s.beginStep i later).reports = [] := rfl
@[simp] theorem State.beginStep_result (i : Input) (later : List Input) : (s.beginStep i later).result = .none := rfl
@[simp] theorem State.beginStep_boundsFault (i : Input) (later : List Input) : (s.beginStep i later).boundsFault = none := rfl

/-! ## State.armTimer -/

@[simp] theorem State.armTimer_cfg : (s.armTimer).cfg = s.cfg := rfl
@[simp] theorem State.armTimer_fsm : (s.armTimer).fsm = s.fsm := rfl
@[simp] theorem State.armTimer_lastSoundTime : (s.armTimer).lastSoundTime = s.lastSoundTime := rfl
@[simp] theorem State.armTimer_lastReceivedSsn : (s.armTimer).lastReceivedSsn = s.lastReceivedSsn := rfl
@[simp] theorem State.armTimer_lastFrameBlockCount : (s.armTimer).lastFrameBlockCount = s.lastFrameBlockCount := rfl
@[simp] theorem State.armTimer_timerArmed : (s.armTimer).timerArmed = true := rfl
@[simp] theorem State.armTimer_timerGen : (s.armTimer).timerGen = s.timerGen + 1 := rfl
@[simp] theorem State.armTimer_timerDeadline : (s.armTimer).timerDeadline = tick64 (s.now + s.cfg.sackTimeoutTicks) := rfl
@[simp] theorem State.armTimer_rxBlockErrors : (s.armTimer).rxBlockErrors = s.rxBlockErrors := rfl
@[simp] theorem State.armTimer_lastSackErrored : (s.armTimer).lastSackErrored = s.lastSackErrored := rfl
@[simp] theorem State.armTimer_streams : (s.armTimer).streams = s.streams := rfl
@[simp] theorem State.armTimer_inflight : (s.armTimer).inflight = s.inflight := rfl
@[simp] theorem State.armTimer_full : (s.armTimer).full = s.full := rfl
@[simp] theorem State.armTimer_entry : (s.armTimer).entry = s.entry := rfl
@[simp] theorem State.armTimer_counters : (s.armTimer).counters = s.counters := rfl
@[simp] theorem State.armTimer_now : (s.armTimer).now = s.now := rfl
@[simp] theorem State.armTimer_draw : (s.armTimer).draw = s.draw := rfl
@[simp] theorem State.armTimer_inbox : (s.armTimer).inbox = s.inbox := rfl
@[simp] theorem State.armTimer_outputs : (s.armTimer).outputs = s.outputs := rfl
@[simp] theorem State.armTimer_reports : (s.armTimer).reports = s.reports := rfl
@[simp] theorem State.armTimer_result : (s.armTimer).result = s.result := rfl
@[simp] theorem State.armTimer_boundsFault : (s.armTimer).boundsFault = s.boundsFault := rfl

/-! ## State.disarmTimer -/

@[simp] theorem State.disarmTimer_cfg : (s.disarmTimer).cfg = s.cfg := rfl
@[simp] theorem State.disarmTimer_fsm : (s.disarmTimer).fsm = s.fsm := rfl
@[simp] theorem State.disarmTimer_lastSoundTime : (s.disarmTimer).lastSoundTime = s.lastSoundTime := rfl
@[simp] theorem State.disarmTimer_lastReceivedSsn : (s.disarmTimer).lastReceivedSsn = s.lastReceivedSsn := rfl
@[simp] theorem State.disarmTimer_lastFrameBlockCount : (s.disarmTimer).lastFrameBlockCount = s.lastFrameBlockCount := rfl
@[simp] theorem State.disarmTimer_timerArmed : (s.disarmTimer).timerArmed = false := rfl
@[simp] theorem State.disarmTimer_timerGen : (s.disarmTimer).timerGen = s.timerGen := rfl
@[simp] theorem State.disarmTimer_timerDeadline : (s.disarmTimer).timerDeadline = s.timerDeadline := rfl
@[simp] theorem State.disarmTimer_rxBlockErrors : (s.disarmTimer).rxBlockErrors = s.rxBlockErrors := rfl
@[simp] theorem State.disarmTimer_lastSackErrored : (s.disarmTimer).lastSackErrored = s.lastSackErrored := rfl
@[simp] theorem State.disarmTimer_streams : (s.disarmTimer).streams = s.streams := rfl
@[simp] theorem State.disarmTimer_inflight : (s.disarmTimer).inflight = s.inflight := rfl
@[simp] theorem State.disarmTimer_full : (s.disarmTimer).full = s.full := rfl
@[simp] theorem State.disarmTimer_entry : (s.disarmTimer).entry = s.entry := rfl
@[simp] theorem State.disarmTimer_counters : (s.disarmTimer).counters = s.counters := rfl
@[simp] theorem State.disarmTimer_now : (s.disarmTimer).now = s.now := rfl
@[simp] theorem State.disarmTimer_draw : (s.disarmTimer).draw = s.draw := rfl
@[simp] theorem State.disarmTimer_inbox : (s.disarmTimer).inbox = s.inbox := rfl
@[simp] theorem State.disarmTimer_outputs : (s.disarmTimer).outputs = s.outputs := rfl
@[simp] theorem State.disarmTimer_reports : (s.disarmTimer).reports = s.reports := rfl
@[simp] theorem State.disarmTimer_result : (s.disarmTimer).result = s.result := rfl
@[simp] theorem State.disarmTimer_boundsFault : (s.disarmTimer).boundsFault = s.boundsFault := rfl

/-! ## State.sendSound -/

@[simp] theorem State.sendSound_cfg : (s.sendSound).cfg = s.cfg := rfl
@[simp] theorem State.sendSound_fsm : (s.sendSound).fsm = .sendingSofOrSound := rfl
@[simp] theorem State.sendSound_lastSoundTime : (s.sendSound).lastSoundTime = some (tick64 s.now) := rfl
@[simp] theorem State.sendSound_lastReceivedSsn : (s.sendSound).lastReceivedSsn = s.lastReceivedSsn := rfl
@[simp] theorem State.sendSound_lastFrameBlockCount : (s.sendSound).lastFrameBlockCount = 0 := rfl
@[simp] theorem State.sendSound_timerArmed : (s.sendSound).timerArmed = s.timerArmed := rfl
@[simp] theorem State.sendSound_timerGen : (s.sendSound).timerGen = s.timerGen := rfl
@[simp] theorem State.sendSound_timerDeadline : (s.sendSound).timerDeadline = s.timerDeadline := rfl
@[simp] theorem State.sendSound_rxBlockErrors : (s.sendSound).rxBlockErrors = s.rxBlockErrors := rfl
@[simp] theorem State.sendSound_lastSackErrored : (s.sendSound).lastSackErrored = s.lastSackErrored := rfl
@[simp] theorem State.sendSound_streams : (s.sendSound).streams = s.streams := rfl
@[simp] theorem State.sendSound_inflight : (s.sendSound).inflight = s.inflight := rfl
@[simp] theorem State.sendSound_full : (s.sendSound).full = s.full := rfl
@[simp] theorem State.sendSound_entry : (s.sendSound).entry = s.entry := rfl
@[simp] theorem State.sendSound_counters : (s.sendSound).counters = s.counters := rfl
@[simp] theorem State.sendSound_now : (s.sendSound).now = s.now := rfl
@[simp] theorem State.sendSound_draw : (s.sendSound).draw = s.draw := rfl
@[simp] theorem State.sendSound_inbox : (s.sendSound).inbox = s.inbox := rfl
@[simp] theorem State.sendSound_outputs : (s.sendSound).outputs = s.outputs ++ [.sound] := rfl
@[simp] theorem State.sendSound_reports : (s.sendSound).reports = s.reports := rfl
@[simp] theorem State.sendSound_result : (s.sendSound).result = s.result := rfl
@[simp] theorem State.sendSound_boundsFault : (s.sendSound).boundsFault = s.boundsFault := rfl

/-! ## State.drain -/

@[simp] theorem State.drain_cfg (slot : Nat) (r : Segmented) : (s.drain slot r).cfg = s.cfg := rfl
@[simp] theorem State.drain_fsm (slot : Nat) (r : Segmented) : (s.drain slot r).fsm = s.fsm := rfl
@[simp] theorem State.drain_lastSoundTime (slot : Nat) (r : Segmented) : (s.drain slot r).lastSoundTime = s.lastSoundTime := rfl
@[simp] theorem State.drain_lastReceivedSsn (slot : Nat) (r : Segmented) : (s.drain slot r).lastReceivedSsn = s.lastReceivedSsn := rfl
@[simp] theorem State.drain_lastFrameBlockCount (slot : Nat) (r : Segmented) : (s.drain slot r).lastFrameBlockCount = s.lastFrameBlockCount := rfl
@[simp] theorem State.drain_timerArmed (slot : Nat) (r : Segmented) : (s.drain slot r).timerArmed = s.timerArmed := rfl
@[simp] theorem State.drain_timerGen (slot : Nat) (r : Segmented) : (s.drain slot r).timerGen = s.timerGen := rfl
@[simp] theorem State.drain_timerDeadline (slot : Nat) (r : Segmented) : (s.drain slot r).timerDeadline = s.timerDeadline := rfl
@[simp] theorem State.drain_rxBlockErrors (slot : Nat) (r : Segmented) : (s.drain slot r).rxBlockErrors = s.rxBlockErrors := rfl
@[simp] theorem State.drain_lastSackErrored (slot : Nat) (r : Segmented) : (s.drain slot r).lastSackErrored = s.lastSackErrored := rfl
@[simp] theorem State.drain_streams (slot : Nat) (r : Segmented) : (s.drain slot r).streams = s.streams.set slot r.stream := rfl
@[simp] theorem State.drain_inflight (slot : Nat) (r : Segmented) : (s.drain slot r).inflight = s.inflight - r.k := rfl
@[simp] theorem State.drain_full (slot : Nat) (r : Segmented) : (s.drain slot r).full = s.full := rfl
@[simp] theorem State.drain_entry (slot : Nat) (r : Segmented) : (s.drain slot r).entry = s.entry := rfl
@[simp] theorem State.drain_counters (slot : Nat) (r : Segmented) : (s.drain slot r).counters = s.counters := rfl
@[simp] theorem State.drain_now (slot : Nat) (r : Segmented) : (s.drain slot r).now = s.now := rfl
@[simp] theorem State.drain_draw (slot : Nat) (r : Segmented) : (s.drain slot r).draw = s.draw := rfl
@[simp] theorem State.drain_inbox (slot : Nat) (r : Segmented) : (s.drain slot r).inbox = s.inbox := rfl
@[simp] theorem State.drain_outputs (slot : Nat) (r : Segmented) : (s.drain slot r).outputs = s.outputs := rfl
@[simp] theorem State.drain_reports (slot : Nat) (r : Segmented) : (s.drain slot r).reports = s.reports := rfl
@[simp] theorem State.drain_result (slot : Nat) (r : Segmented) : (s.drain slot r).result = s.result := rfl
@[simp] theorem State.drain_boundsFault (slot : Nat) (r : Segmented) : (s.drain slot r).boundsFault = s.boundsFault := rfl

/-! ## State.enqueue -/

@[simp] theorem State.enqueue_cfg (slot : Nat) (dest : Addr) (f : Bytes) : (s.enqueue slot dest f).cfg = s.cfg := rfl
@[simp] theorem State.enqueue_fsm (slot : Nat) (dest : Addr) (f : Bytes) : (s.enqueue slot dest f).fsm = s.fsm := rfl
@[simp] theorem State.enqueue_lastSoundTime (slot : Nat) (dest : Addr) (f : Bytes) : (s.enqueue slot dest f).lastSoundTime = s.lastSoundTime := rfl
@[simp] theorem State.enqueue_lastReceivedSsn (slot : Nat) (dest : Addr) (f : Bytes) : (s.enqueue slot dest f).lastReceivedSsn = s.lastReceivedSsn := rfl
@[simp] theorem State.enqueue_lastFrameBlockCount (slot : Nat) (dest : Addr) (f : Bytes) : (s.enqueue slot dest f).lastFrameBlockCount = s.lastFrameBlockCount := rfl
@[simp] theorem State.enqueue_timerArmed (slot : Nat) (dest : Addr) (f : Bytes) : (s.enqueue slot dest f).timerArmed = s.timerArmed := rfl
@[simp] theorem State.enqueue_timerGen (slot : Nat) (dest : Addr) (f : Bytes) : (s.enqueue slot dest f).timerGen = s.timerGen := rfl
@[simp] theorem State.enqueue_timerDeadline (slot : Nat) (dest : Addr) (f : Bytes) : (s.enqueue slot dest f).timerDeadline = s.timerDeadline := rfl
@[simp] theorem State.enqueue_rxBlockErrors (slot : Nat) (dest : Addr) (f : Bytes) : (s.enqueue slot dest f).rxBlockErrors = s.rxBlockErrors := rfl
@[simp] theorem State.enqueue_lastSackErrored (slot : Nat) (dest : Addr) (f : Bytes) : (s.enqueue slot dest f).lastSackErrored = s.lastSackErrored := rfl
@[simp] theorem State.enqueue_streams (slot : Nat) (dest : Addr) (f : Bytes) : (s.enqueue slot dest f).streams = s.streams.modify slot fun st => (st.claim dest).append f := rfl
@[simp] theorem State.enqueue_inflight (slot : Nat) (dest : Addr) (f : Bytes) : (s.enqueue slot dest f).inflight = s.inflight := rfl
@[simp] theorem State.enqueue_full (slot : Nat) (dest : Addr) (f : Bytes) : (s.enqueue slot dest f).full = s.full := rfl
@[simp] theorem State.enqueue_entry (slot : Nat) (dest : Addr) (f : Bytes) : (s.enqueue slot dest f).entry = s.entry := rfl
@[simp] theorem State.enqueue_counters (slot : Nat) (dest : Addr) (f : Bytes) : (s.enqueue slot dest f).counters = s.counters := rfl
@[simp] theorem State.enqueue_now (slot : Nat) (dest : Addr) (f : Bytes) : (s.enqueue slot dest f).now = s.now := rfl
@[simp] theorem State.enqueue_draw (slot : Nat) (dest : Addr) (f : Bytes) : (s.enqueue slot dest f).draw = s.draw := rfl
@[simp] theorem State.enqueue_inbox (slot : Nat) (dest : Addr) (f : Bytes) : (s.enqueue slot dest f).inbox = s.inbox := rfl
@[simp] theorem State.enqueue_outputs (slot : Nat) (dest : Addr) (f : Bytes) : (s.enqueue slot dest f).outputs = s.outputs := rfl
@[simp] theorem State.enqueue_reports (slot : Nat) (dest : Addr) (f : Bytes) : (s.enqueue slot dest f).reports = s.reports := rfl
@[simp] theorem State.enqueue_result (slot : Nat) (dest : Addr) (f : Bytes) : (s.enqueue slot dest f).result = s.result := rfl
@[simp] theorem State.enqueue_boundsFault (slot : Nat) (dest : Addr) (f : Bytes) : (s.enqueue slot dest f).boundsFault = s.boundsFault := rfl

/-! ## Reset -/

@[simp] theorem State.resetOf_cfg (cfg : Config) : (State.resetOf cfg).cfg = cfg := rfl
@[simp] theorem State.resetOf_fsm (cfg : Config) : (State.resetOf cfg).fsm = resetFsm cfg.role := rfl
@[simp] theorem State.resetOf_lastSoundTime (cfg : Config) : (State.resetOf cfg).lastSoundTime = none := rfl
@[simp] theorem State.resetOf_lastReceivedSsn (cfg : Config) : (State.resetOf cfg).lastReceivedSsn = none := rfl
@[simp] theorem State.resetOf_lastFrameBlockCount (cfg : Config) : (State.resetOf cfg).lastFrameBlockCount = 0 := rfl
@[simp] theorem State.resetOf_timerArmed (cfg : Config) : (State.resetOf cfg).timerArmed = false := rfl
@[simp] theorem State.resetOf_timerGen (cfg : Config) : (State.resetOf cfg).timerGen = 0 := rfl
@[simp] theorem State.resetOf_timerDeadline (cfg : Config) : (State.resetOf cfg).timerDeadline = 0 := rfl
@[simp] theorem State.resetOf_rxBlockErrors (cfg : Config) : (State.resetOf cfg).rxBlockErrors = [] := rfl
@[simp] theorem State.resetOf_lastSackErrored (cfg : Config) : (State.resetOf cfg).lastSackErrored = 0 := rfl
@[simp] theorem State.resetOf_streams (cfg : Config) : (State.resetOf cfg).streams = List.replicate cfg.nStreams Stream.free := rfl
@[simp] theorem State.resetOf_inflight (cfg : Config) : (State.resetOf cfg).inflight = 0 := rfl
@[simp] theorem State.resetOf_full (cfg : Config) : (State.resetOf cfg).full = false := rfl
@[simp] theorem State.resetOf_entry (cfg : Config) : (State.resetOf cfg).entry = none := rfl
@[simp] theorem State.resetOf_counters (cfg : Config) : (State.resetOf cfg).counters = Counters.zero := rfl
@[simp] theorem State.resetOf_now (cfg : Config) : (State.resetOf cfg).now = 0 := rfl
@[simp] theorem State.resetOf_draw (cfg : Config) : (State.resetOf cfg).draw = ⟨Confounder.zero, 0⟩ := rfl
@[simp] theorem State.resetOf_inbox (cfg : Config) : (State.resetOf cfg).inbox = [] := rfl
@[simp] theorem State.resetOf_outputs (cfg : Config) : (State.resetOf cfg).outputs = [] := rfl
@[simp] theorem State.resetOf_reports (cfg : Config) : (State.resetOf cfg).reports = [] := rfl
@[simp] theorem State.resetOf_result (cfg : Config) : (State.resetOf cfg).result = .none := rfl
@[simp] theorem State.resetOf_boundsFault (cfg : Config) : (State.resetOf cfg).boundsFault = none := rfl

@[simp] theorem State.resetBlock_cfg : s.resetBlock.cfg = s.cfg := rfl
@[simp] theorem State.resetBlock_fsm : s.resetBlock.fsm = resetFsm s.cfg.role := rfl
@[simp] theorem State.resetBlock_lastSoundTime : s.resetBlock.lastSoundTime = none := rfl
@[simp] theorem State.resetBlock_lastReceivedSsn : s.resetBlock.lastReceivedSsn = none := rfl
@[simp] theorem State.resetBlock_lastFrameBlockCount : s.resetBlock.lastFrameBlockCount = 0 := rfl
@[simp] theorem State.resetBlock_timerArmed : s.resetBlock.timerArmed = false := rfl
@[simp] theorem State.resetBlock_timerGen : s.resetBlock.timerGen = 0 := rfl
@[simp] theorem State.resetBlock_timerDeadline : s.resetBlock.timerDeadline = 0 := rfl
@[simp] theorem State.resetBlock_rxBlockErrors : s.resetBlock.rxBlockErrors = [] := rfl
@[simp] theorem State.resetBlock_lastSackErrored : s.resetBlock.lastSackErrored = 0 := rfl
@[simp] theorem State.resetBlock_streams : s.resetBlock.streams = List.replicate s.cfg.nStreams Stream.free := rfl
@[simp] theorem State.resetBlock_inflight : s.resetBlock.inflight = 0 := rfl
@[simp] theorem State.resetBlock_full : s.resetBlock.full = false := rfl
@[simp] theorem State.resetBlock_entry : s.resetBlock.entry = none := rfl
@[simp] theorem State.resetBlock_counters : s.resetBlock.counters = Counters.zero := rfl
@[simp] theorem State.resetBlock_now : s.resetBlock.now = s.now := rfl
@[simp] theorem State.resetBlock_draw : s.resetBlock.draw = s.draw := rfl
@[simp] theorem State.resetBlock_inbox : s.resetBlock.inbox = s.inbox := rfl
@[simp] theorem State.resetBlock_outputs : s.resetBlock.outputs = s.outputs := rfl
@[simp] theorem State.resetBlock_reports : s.resetBlock.reports = s.reports := rfl
@[simp] theorem State.resetBlock_result : s.resetBlock.result = s.result := rfl
@[simp] theorem State.resetBlock_boundsFault : s.resetBlock.boundsFault = s.boundsFault := rfl

end Sys2Proof.Machine
end

