-- ==== Sys2Proof/Laws/Flags.lean ====
section
/-! SUPPORT. What counting an accepted frame, clearing backpressure, arming the timer and the two time
conditions do. -/

namespace Sys2Proof.Machine

/-- An accepted submission (47_txqueue_mgmt_interface.md R340, R341, R343), from a queue that is not full. -/
theorem countAccepted_eq {s : State} (h : s.full = false) :
    s.countAccepted = { s with
      inflight := s.inflight + 1
      full := decide (maxFramesInBuffer ≤ s.inflight + 1)
      outputs := s.outputs ++ if maxFramesInBuffer ≤ s.inflight + 1 then [] else [.ready] } := by
  unfold State.countAccepted
  by_cases hm : s.inflight + 1 ≥ maxFramesInBuffer
  · rw [if_pos hm, if_pos hm]; simp [hm]
  · rw [if_neg hm, if_neg hm]; simp [hm, State.emit, h]

/-- Clearing backpressure (R345). -/
theorem clearBackpressure_eq (s : State) :
    s.clearBackpressure = { s with
      full := s.full && decide (maxFramesInBuffer ≤ s.inflight)
      outputs := s.outputs ++ if s.full = true ∧ s.inflight < maxFramesInBuffer then [.ready] else [] } := by
  unfold State.clearBackpressure
  by_cases h : s.full = true ∧ s.inflight < maxFramesInBuffer
  · rw [if_pos h, if_pos h]
    have : ¬ maxFramesInBuffer ≤ s.inflight := by omega
    simp [State.emit, this]
  · rw [if_neg h, if_neg h, List.append_nil]
    have hf : (s.full && decide (maxFramesInBuffer ≤ s.inflight)) = s.full := by
      cases hf : s.full
      · rfl
      · rw [hf] at h; simpa using h
    rw [hf]

/-- A tick count below 2^64 is written exactly. -/
theorem tick64_toNat {n : Nat} (h : n < 2 ^ 64) : (tick64 n).toNat = n := by
  rw [tick64, if_pos h, BitVec.toNat_ofNat, Nat.mod_eq_of_lt h]

/-- When an expiry takes effect (46_arq_fsm.md R306, R307). -/
theorem expiryValid_iff (s : State) (gen : BitVec 32) :
    s.expiryValid gen = true ↔ s.timerArmed = true ∧ gen = s.timerGen ∧ s.timerDeadline.toNat ≤ s.now := by
  simp [State.expiryValid, and_assoc]

/-- When a sound is due (R300, R301). -/
theorem soundDue_iff (s : State) :
    s.soundDue = true ↔ ∀ l, s.lastSoundTime = some l → l.toNat + s.cfg.soundPeriodTicks < s.now := by
  unfold State.soundDue
  split <;> next h => simp [h]

theorem soundDue_eq_false (s : State) :
    s.soundDue = false ↔ ∃ l, s.lastSoundTime = some l ∧ s.now ≤ l.toNat + s.cfg.soundPeriodTicks := by
  unfold State.soundDue
  split <;> next h => simp [h]

end Sys2Proof.Machine
end

