-- ==== Sys2Proof/Laws/Bits.lean ====
section
/-! SUPPORT. What reading and writing bits of a buffer does, bit by bit (40_bitfield.md R130, R131, R137,
R138). -/

namespace Sys2Proof.Machine

/-! ## Zero bytes -/

@[simp] theorem zeros_length (n : Nat) : (zeros n).length = n := by simp [zeros]

@[simp] theorem zeros_zero : zeros 0 = [] := rfl

@[simp] theorem bitAt_nil (p : Nat) : bitAt [] p = false := by simp [bitAt]

@[simp] theorem bitAt_zeros (n p : Nat) : bitAt (zeros n) p = false := by
  simp only [bitAt, zeros, List.getD_eq_getElem?_getD, List.getElem?_replicate]
  split <;> simp

/-- A bit past the end reads as 0. -/
theorem bitAt_of_le {buf : Bytes} {p : Nat} (h : 8 * buf.length ≤ p) : bitAt buf p = false := by
  have : buf.length ≤ p / 8 := by omega
  simp [bitAt, List.getElem?_eq_none this]

/-! ## One bit -/

theorem getLsbD_one_shiftLeft {k j : Nat} (hj : j < 8) : (1#8 <<< k).getLsbD j = decide (j = k) := by
  simp only [BitVec.getLsbD_shiftLeft, BitVec.getLsbD_one, hj, decide_true, Bool.true_and]
  rcases Nat.lt_trichotomy j k with h | h | h
  · have : j ≠ k := by omega
    simp [h, this]
  · subst h; simp
  · have h1 : j ≠ k := by omega
    have h2 : j - k ≠ 0 := by omega
    simp [h1, h2]

theorem putBit_getLsbD (x : Byte) (k : Nat) (b : Bool) (j : Nat) (hj : j < 8) :
    (putBit x k b).getLsbD j = if j = k then b else x.getLsbD j := by
  have h1 := getLsbD_one_shiftLeft (k := k) hj
  rw [putBit, BitVec.getLsbD_or, BitVec.getLsbD_and, BitVec.getLsbD_not, h1]
  by_cases h : j = k <;> cases b <;> simp [h, hj]
  all_goals simp_all

@[simp] theorem setBit_length (buf : Bytes) (p : Nat) (b : Bool) : (setBit buf p b).length = buf.length := by
  simp [setBit]

theorem bitAt_setBit {buf : Bytes} {p : Nat} (hp : p < 8 * buf.length) (b : Bool) (q : Nat) :
    bitAt (setBit buf p b) q = if q = p then b else bitAt buf q := by
  have hlt : p / 8 < buf.length := by omega
  simp only [bitAt, setBit, List.getD_eq_getElem?_getD, List.getElem?_set]
  by_cases hb : p / 8 = q / 8
  · rw [if_pos hb, if_pos hlt]
    rw [← hb]
    simp only [Option.getD_some]
    rw [putBit_getLsbD _ _ _ _ (Nat.mod_lt _ (by decide))]
    by_cases hq : q = p
    · subst hq; simp
    · have : q % 8 ≠ p % 8 := by omega
      simp [this, hq]
  · have hq : q ≠ p := fun h => hb (by rw [h])
    simp [hb, hq]

/-! ## Fields -/

@[simp] theorem writeBits_length (buf : Bytes) (v o w : Nat) : (writeBits buf v o w).length = buf.length := by
  induction w with
  | zero => rfl
  | succ w ih => simp [writeBits, ih]

/-- What a field write leaves at every bit: the field's bits are the value's, every other is unchanged. -/
theorem bitAt_writeBits {buf : Bytes} {o : Nat} (v : Nat) {w : Nat} (h : o + w ≤ 8 * buf.length) (q : Nat) :
    bitAt (writeBits buf v o w) q = if o ≤ q ∧ q < o + w then v.testBit (q - o) else bitAt buf q := by
  induction w with
  | zero => rw [writeBits, if_neg (by omega)]
  | succ w ih =>
    rw [writeBits, bitAt_setBit (by simpa using (by omega : o + w < 8 * buf.length)), ih (by omega)]
    by_cases hq : q = o + w
    · subst hq; simp
    · by_cases hin : o ≤ q ∧ q < o + w
      · rw [if_neg hq, if_pos hin, if_pos (by omega)]
      · rw [if_neg hq, if_neg hin, if_neg (by omega)]

theorem readBits_lt (buf : Bytes) (o w : Nat) : readBits buf o w < 2 ^ w := by
  induction w with
  | zero => simp [readBits]
  | succ w ih =>
    rw [readBits, Nat.pow_succ]
    split <;> omega

theorem testBit_two_pow_add {r w : Nat} (h : r < 2 ^ w) (j : Nat) :
    (2 ^ w + r).testBit j = (decide (j = w) || r.testBit j) := by
  rcases Nat.lt_trichotomy j w with hj | hj | hj
  · have hne : j ≠ w := by omega
    rw [show 2 ^ w + r = 2 ^ w * 1 + r by omega, Nat.testBit_two_pow_mul_add 1 h, if_pos hj]
    simp [hne]
  · subst hj
    rw [show 2 ^ j + r = 2 ^ j * 1 + r by omega, Nat.testBit_two_pow_mul_add 1 h]
    simp
  · have hr : r < 2 ^ j := lt_of_lt_of_le h (Nat.pow_le_pow_right (by decide) (by omega))
    have hs : 2 ^ w + r < 2 ^ j := by
      have : 2 ^ (w + 1) ≤ 2 ^ j := Nat.pow_le_pow_right (by decide) hj
      rw [Nat.pow_succ] at this
      omega
    have hne : j ≠ w := by omega
    rw [Nat.testBit_lt_two_pow hs, Nat.testBit_lt_two_pow hr]
    simp [hne]

/-- The bits of a field's value are the buffer's. -/
theorem testBit_readBits (buf : Bytes) (o w j : Nat) :
    (readBits buf o w).testBit j = (decide (j < w) && bitAt buf (o + j)) := by
  induction w with
  | zero => simp [readBits]
  | succ w ih =>
    have key : (readBits buf o (w + 1)).testBit j
        = ((decide (j = w) && bitAt buf (o + w)) || (decide (j < w) && bitAt buf (o + j))) := by
      rw [readBits]
      by_cases hb : bitAt buf (o + w)
      · rw [if_pos hb, Nat.add_comm, testBit_two_pow_add (readBits_lt buf o w), ih]
        simp [hb]
      · rw [if_neg hb, Nat.add_zero, ih]
        simp [hb]
    rw [key]
    rcases Nat.lt_trichotomy j w with hj | hj | hj
    · have h1 : j ≠ w := by omega
      have h2 : j < w + 1 := by omega
      simp [hj, h1, h2]
    · subst hj; simp
    · have h1 : j ≠ w := by omega
      have h2 : ¬ j < w := by omega
      have h3 : ¬ j < w + 1 := by omega
      simp only [h1, h2, h3, decide_false, Bool.false_and, Bool.or_self]

/-- Two fields with the same bits have the same value. -/
theorem readBits_congr {b b' : Bytes} {o o' w : Nat} (h : ∀ j < w, bitAt b (o + j) = bitAt b' (o' + j)) :
    readBits b o w = readBits b' o' w := by
  induction w with
  | zero => rfl
  | succ w ih => rw [readBits, readBits, ih (fun j hj => h j (by omega)), h w (by omega)]

/-- The round trip of R137, for any buffer the field fits in. -/
theorem readBits_writeBits {buf : Bytes} {o w : Nat} (v : Nat) (h : o + w ≤ 8 * buf.length) :
    readBits (writeBits buf v o w) o w = v % 2 ^ w := by
  apply Nat.eq_of_testBit_eq
  intro j
  rw [testBit_readBits, Nat.testBit_mod_two_pow, bitAt_writeBits v h]
  by_cases hj : j < w
  · simp [hj]
  · simp [hj]

/-- The non-interference of R138: a write leaves a disjoint field's value. -/
theorem readBits_writeBits_of_disjoint {buf : Bytes} {o w o' w' : Nat} (v : Nat) (h : o + w ≤ 8 * buf.length)
    (hd : o' + w' ≤ o ∨ o + w ≤ o') : readBits (writeBits buf v o w) o' w' = readBits buf o' w' := by
  apply readBits_congr
  intro j hj
  rw [bitAt_writeBits v h, if_neg (by omega)]

/-! ## Bytes from bits -/

/-- A byte is its bits. -/
theorem byte_getLsbD_eq_bitAt {buf : Bytes} {i : Nat} (h : i < buf.length) {j : Nat} (hj : j < 8) :
    buf[i].getLsbD j = bitAt buf (8 * i + j) := by
  have h1 : (8 * i + j) / 8 = i := by omega
  have h2 : (8 * i + j) % 8 = j := by omega
  simp [bitAt, h1, h2, h]

/-- Buffers of one length with the same bits are equal. -/
theorem bytes_ext {a b : Bytes} (hl : a.length = b.length) (h : ∀ p < 8 * a.length, bitAt a p = bitAt b p) :
    a = b := by
  apply List.ext_getElem hl
  intro i h1 h2
  apply BitVec.eq_of_getLsbD_eq
  intro j hj
  rw [byte_getLsbD_eq_bitAt h1 hj, byte_getLsbD_eq_bitAt h2 hj]
  exact h _ (by omega)

theorem bitAt_append (a b : Bytes) (p : Nat) :
    bitAt (a ++ b) p = if p < 8 * a.length then bitAt a p else bitAt b (p - 8 * a.length) := by
  by_cases h : p < 8 * a.length
  · have : p / 8 < a.length := by omega
    simp [bitAt, h, List.getElem?_append_left this]
  · have h1 : a.length ≤ p / 8 := by omega
    have h2 : (p - 8 * a.length) / 8 = p / 8 - a.length := by omega
    have h3 : (p - 8 * a.length) % 8 = p % 8 := by omega
    simp [bitAt, h, h2, h3, List.getElem?_append_right h1]

theorem bitAt_take {b : Bytes} {n p : Nat} (h : p < 8 * n) : bitAt (b.take n) p = bitAt b p := by
  have : p / 8 < n := by omega
  simp [bitAt, this]

theorem bitAt_drop (b : Bytes) (n p : Nat) : bitAt (b.drop n) p = bitAt b (8 * n + p) := by
  have h1 : (8 * n + p) / 8 = n + p / 8 := by omega
  have h2 : (8 * n + p) % 8 = p % 8 := by omega
  simp [bitAt, h1, h2]

theorem readBits_append_left {a b : Bytes} {o w : Nat} (h : o + w ≤ 8 * a.length) :
    readBits (a ++ b) o w = readBits a o w := by
  apply readBits_congr
  intro j hj
  rw [bitAt_append, if_pos (by omega)]

theorem readBits_take {b : Bytes} {n o w : Nat} (h : o + w ≤ 8 * n) :
    readBits (b.take n) o w = readBits b o w :=
  readBits_congr fun _ _ => bitAt_take (by omega)

theorem readBits_drop (b : Bytes) (n o w : Nat) : readBits (b.drop n) o w = readBits b (8 * n + o) w :=
  readBits_congr fun j _ => by rw [bitAt_drop, Nat.add_assoc]

/-! ## Slices -/

theorem slice_length (b : Bytes) (i j : Nat) : (slice b i j).length = min j b.length - i := by
  simp [slice]

theorem overwrite_length {buf s : Bytes} {k : Nat} (h : k + s.length ≤ buf.length) :
    (overwrite buf s k).length = buf.length := by
  simp [overwrite]; omega

end Sys2Proof.Machine
end

