-- ==== Sys2Proof/Laws/Operands.lean ====
section
/-! SUPPORT. The wire fields read back what was written into them. -/

namespace Sys2Proof.Machine

/-! ## Check fields -/

@[simp] theorem checkBytes_length (v : BitVec 32) : (checkBytes v).length = 4 := by simp [checkBytes]

theorem checkValue_checkBytes (v : BitVec 32) (rest : Bytes) : checkValue (checkBytes v ++ rest) = v := by
  rw [checkValue, readBits_append_left (by simp), checkBytes, readBits_writeBits _ (by simp),
    Nat.mod_eq_of_lt v.isLt, BitVec.ofNat_toNat, BitVec.setWidth_eq]

@[simp] theorem checkValue_checkBytes' (v : BitVec 32) : checkValue (checkBytes v) = v := by
  simpa using checkValue_checkBytes v []

/-! ## The MFH -/

@[simp] theorem mfhBytes_length (lsb : Bool) (t l : Nat) : (mfhBytes lsb t l).length = 2 := by
  unfold mfhBytes; split <;> simp [mfhSize]

theorem mfhLen_mfhBytes (lsb : Bool) {t l : Nat} (hl : l < 2 ^ 14) (rest : Bytes) :
    mfhLen lsb (mfhBytes lsb t l ++ rest) = l := by
  cases lsb
  · simp only [mfhLen, mfhBytes, Bool.false_eq_true, if_false]
    rw [readBits_append_left (by simp [mfhSize]),
      readBits_writeBits_of_disjoint _ (by simp [mfhSize]) (by omega),
      readBits_writeBits _ (by simp [mfhSize]), Nat.mod_eq_of_lt hl]
  · simp only [mfhLen, mfhBytes, if_true]
    rw [readBits_append_left (by simp [mfhSize]), readBits_writeBits _ (by simp [mfhSize]), Nat.mod_eq_of_lt hl]

theorem mfhType_mfhBytes (lsb : Bool) {t l : Nat} (ht : t < 4) (rest : Bytes) :
    mfhType lsb (mfhBytes lsb t l ++ rest) = t := by
  cases lsb
  · simp only [mfhType, mfhBytes, Bool.false_eq_true, if_false]
    rw [readBits_append_left (by simp [mfhSize]), readBits_writeBits _ (by simp [mfhSize]),
      Nat.mod_eq_of_lt (by omega)]
  · simp only [mfhType, mfhBytes, if_true]
    rw [readBits_append_left (by simp [mfhSize]),
      readBits_writeBits_of_disjoint _ (by simp [mfhSize]) (by omega),
      readBits_writeBits _ (by simp [mfhSize]), Nat.mod_eq_of_lt (by omega)]

theorem mfhLen_lt (lsb : Bool) (f : Bytes) : mfhLen lsb f < 2 ^ 14 := by
  unfold mfhLen; split <;> exact readBits_lt _ _ _

theorem mfhType_lt (lsb : Bool) (f : Bytes) : mfhType lsb f < 4 := by
  unfold mfhType; split <;> exact readBits_lt _ _ _

/-- The MFH fields are in the first two bytes. -/
theorem mfhLen_append (lsb : Bool) {a : Bytes} (h : 2 ≤ a.length) (b : Bytes) :
    mfhLen lsb (a ++ b) = mfhLen lsb a := by
  unfold mfhLen; split <;> exact readBits_append_left (by omega)

theorem mfhType_append (lsb : Bool) {a : Bytes} (h : 2 ≤ a.length) (b : Bytes) :
    mfhType lsb (a ++ b) = mfhType lsb a := by
  unfold mfhType; split <;> exact readBits_append_left (by omega)

theorem expectedLength_of_two_le (lsb : Bool) {d : Bytes} (h : 2 ≤ d.length) :
    expectedLength lsb d = some (mfhLen lsb d + 7) := by
  rw [expectedLength, if_neg (by simp only [mfhSize]; omega)]; rfl

theorem expectedLength_of_lt_two (lsb : Bool) {d : Bytes} (h : d.length < 2) : expectedLength lsb d = none := by
  rw [expectedLength, if_pos (by simpa [mfhSize] using h)]

/-- Two bytes are the MFH of their fields. -/
theorem mfhBytes_fields (m0 m1 : Byte) :
    mfhBytes false (mfhType false [m0, m1]) (mfhLen false [m0, m1]) = [m0, m1] := by
  apply bytes_ext (by simp)
  intro p hp
  have hp : p < 16 := by simpa using hp
  simp only [mfhBytes, mfhType, mfhLen, Bool.false_eq_true, if_false]
  rw [bitAt_writeBits _ (by simp [mfhSize]), testBit_readBits]
  by_cases h : 14 ≤ p ∧ p < 14 + 2
  · have h1 : p - 14 < 2 := by omega
    have h2 : 14 + (p - 14) = p := by omega
    simp [h, h1, h2]
  · rw [if_neg h, bitAt_writeBits _ (by simp [mfhSize]), testBit_readBits, if_pos (by omega)]
    have h1 : p < 14 := by omega
    simp [h1]

/-! ## The block header -/

@[simp] theorem headerBytes_length (h : BlockHeader) : (headerBytes h).length = 4 := by
  simp [headerBytes, blockHdrLen]

/-- Every bit of a header (30_encoding.md R93). -/
theorem bitAt_headerBytes (h : BlockHeader) (p : Nat) :
    bitAt (headerBytes h) p =
      if 29 ≤ p ∧ p < 32 then h.reserved.toNat.testBit (p - 29)
      else if 28 ≤ p ∧ p < 29 then h.oldestSsnFlag.toNat.testBit (p - 28)
      else if 27 ≤ p ∧ p < 28 then h.macBoundaryFlag.toNat.testBit (p - 27)
      else if 26 ≤ p ∧ p < 27 then h.mgmtQueueFlag.toNat.testBit (p - 26)
      else if 25 ≤ p ∧ p < 26 then h.valid.toNat.testBit (p - 25)
      else if 16 ≤ p ∧ p < 25 then h.macBoundaryOffset.toNat.testBit (p - 16)
      else if p < 16 then h.ssn.toNat.testBit p else false := by
  unfold headerBytes
  iterate 7 rw [bitAt_writeBits _ (by simp [blockHdrLen])]
  simp

theorem readBits_flag {b : Bytes} {o : Nat} {f : Bool} (h : bitAt b o = f) : (readBits b o 1 == 1) = f := by
  subst h; cases hb : bitAt b o <;> simp [readBits, hb]

theorem toNat_testBit_zero (f : Bool) : f.toNat.testBit 0 = f := by cases f <;> rfl

theorem readBits_eq_toNat {n : Nat} {b : Bytes} {o : Nat} (v : BitVec n)
    (h : ∀ j < n, bitAt b (o + j) = v.toNat.testBit j) : BitVec.ofNat n (readBits b o n) = v := by
  apply BitVec.eq_of_getLsbD_eq
  intro j hj
  rw [BitVec.getLsbD_ofNat, testBit_readBits, h j hj]
  simp [hj, BitVec.testBit_toNat]

/-- A header reads back the fields written into it, whatever follows it. -/
theorem headerFields_headerBytes (h : BlockHeader) (rest : Bytes) : headerFields (headerBytes h ++ rest) = h := by
  have hb : ∀ p < 32, bitAt (headerBytes h ++ rest) p = bitAt (headerBytes h) p := by
    intro p hp; rw [bitAt_append, if_pos (by simpa using hp)]
  have flag : ∀ o f, o < 32 → bitAt (headerBytes h) o = f →
      (readBits (headerBytes h ++ rest) o 1 == 1) = f := fun o f ho hf => readBits_flag (by rw [hb o ho, hf])
  obtain ⟨ssn, mbo, v, mq, mb, od, rs⟩ := h
  simp only [headerFields, BlockHeader.mk.injEq]
  refine ⟨?_, ?_, ?_, ?_, ?_, ?_, ?_⟩
  · apply readBits_eq_toNat
    intro j hj
    rw [hb _ (by omega), bitAt_headerBytes]
    simp only [Nat.zero_add]
    rw [if_neg (by omega), if_neg (by omega), if_neg (by omega), if_neg (by omega), if_neg (by omega),
      if_neg (by omega), if_pos (by omega)]
  · apply readBits_eq_toNat
    intro j hj
    rw [hb _ (by omega), bitAt_headerBytes]
    rw [if_neg (by omega), if_neg (by omega), if_neg (by omega), if_neg (by omega), if_neg (by omega),
      if_pos (by omega), Nat.add_sub_cancel_left]
  · apply flag _ _ (by omega)
    rw [bitAt_headerBytes]; cases v <;> simp
  · apply flag _ _ (by omega)
    rw [bitAt_headerBytes]; cases mq <;> simp
  · apply flag _ _ (by omega)
    rw [bitAt_headerBytes]; cases mb <;> simp
  · apply flag _ _ (by omega)
    rw [bitAt_headerBytes]; cases od <;> simp
  · apply readBits_eq_toNat
    intro j hj
    rw [hb _ (by omega), bitAt_headerBytes]
    rw [if_pos (by omega), Nat.add_sub_cancel_left]

theorem testBit_toNat_flag (b : Bytes) (o : Nat) : ((readBits b o 1 == 1) : Bool).toNat.testBit 0 = bitAt b o := by
  rw [toNat_testBit_zero]; exact readBits_flag rfl

theorem testBit_ofNat_readBits {n : Nat} (b : Bytes) (o j : Nat) (hj : j < n) :
    (BitVec.ofNat n (readBits b o n)).toNat.testBit j = bitAt b (o + j) := by
  rw [BitVec.testBit_toNat, BitVec.getLsbD_ofNat, testBit_readBits]; simp [hj]

/-- Four bytes are the header of their fields: no bit of a header is dropped. -/
theorem headerBytes_headerFields {b : Bytes} (hl : b.length = 4) : headerBytes (headerFields b) = b := by
  apply bytes_ext (by simp [hl])
  intro p hp
  have hp : p < 32 := by simpa using hp
  rw [bitAt_headerBytes]
  simp only [headerFields]
  by_cases h29 : 29 ≤ p ∧ p < 32
  · rw [if_pos h29, testBit_ofNat_readBits _ _ _ (by omega)]; congr 1; omega
  rw [if_neg h29]
  by_cases h28 : 28 ≤ p ∧ p < 29
  · rw [if_pos h28, show p - 28 = 0 by omega, testBit_toNat_flag]; congr 1; omega
  rw [if_neg h28]
  by_cases h27 : 27 ≤ p ∧ p < 28
  · rw [if_pos h27, show p - 27 = 0 by omega, testBit_toNat_flag]; congr 1; omega
  rw [if_neg h27]
  by_cases h26 : 26 ≤ p ∧ p < 27
  · rw [if_pos h26, show p - 26 = 0 by omega, testBit_toNat_flag]; congr 1; omega
  rw [if_neg h26]
  by_cases h25 : 25 ≤ p ∧ p < 26
  · rw [if_pos h25, show p - 25 = 0 by omega, testBit_toNat_flag]; congr 1; omega
  rw [if_neg h25]
  by_cases h16 : 16 ≤ p ∧ p < 25
  · rw [if_pos h16, testBit_ofNat_readBits _ _ _ (by omega)]; congr 1; omega
  rw [if_neg h16, if_pos (by omega), testBit_ofNat_readBits _ _ _ (by omega), Nat.zero_add]

end Sys2Proof.Machine
end

