-- ==== Sys2Proof/Laws/MacFrame.lean ====
section
/-! SUPPORT. What the MAC-frame encoder answers, and everything a delivery can do. -/

namespace Sys2Proof.Machine

@[simp] theorem Addr_bytes_length (a : Addr) : a.bytes.length = 6 := rfl

@[simp] theorem Confounder_bytes_length (c : Confounder) : c.bytes.length = 4 := rfl

/-- `len = P + C + 13` (30_encoding.md R99). -/
theorem macLen_eq (p : Bytes) (c : Option Confounder) : macLen p c = p.length + confounderLength c + 13 := by
  simp only [macLen, mfhSize, addrLen, reservedLen, icvLen, lenBias]; omega

theorem confounderLength_eq (c : Option Confounder) : confounderLength c = if c.isSome then 4 else 0 := by
  cases c <;> rfl

@[simp] theorem confounder_bytes_length (c : Option Confounder) :
    ((c.map Confounder.bytes).getD []).length = confounderLength c := by
  cases c <;> rfl

theorem macCovered_length (cfg : Config) (dest : Addr) (p : Bytes) (c : Option Confounder) :
    (macCovered cfg dest p c).length = p.length + confounderLength c + 14 := by
  simp [macCovered, reservedLen]; omega

/-- The encoder's answer: the frame of R91 when its `len` fits, whose length is `len + 7`. -/
theorem macEncode_ok {cfg : Config} {dest : Addr} {p : Bytes} {c : Option Confounder} {f : Bytes}
    (h : macEncode cfg dest p c = .ok f) :
    p.length + confounderLength c + 13 ≤ 16383 ∧
    f = mfhBytes cfg.mfhTypeAtLsb (if c.isSome then 3 else 1) (p.length + confounderLength c + 13)
      ++ macCovered cfg dest p c ++ checkBytes (crc32 cfg.crc (macCovered cfg dest p c)) ∧
    f.length = p.length + confounderLength c + 20 := by
  unfold macEncode at h
  rw [macLen_eq] at h
  split at h
  · cases h
  · next hle =>
    injection h with h
    refine ⟨by simpa [lenMax] using hle, ?_, ?_⟩
    · rw [← h]; rfl
    · rw [← h]; simp only [List.length_append, mfhBytes_length, macCovered_length, checkBytes_length]; omega

/-- The encoder refuses exactly a `len` above 16383 (R167). -/
theorem macEncode_error {cfg : Config} {dest : Addr} {p : Bytes} {c : Option Confounder}
    (h : 16383 < p.length + confounderLength c + 13) :
    macEncode cfg dest p c = .error (.frameTooLong (p.length + confounderLength c + 13)) := by
  unfold macEncode
  rw [macLen_eq, if_pos (by simpa [lenMax] using h)]

theorem macEncode_fits {cfg : Config} {dest : Addr} {p : Bytes} {c : Option Confounder}
    (h : p.length + confounderLength c + 13 ≤ 16383) : ∃ f, macEncode cfg dest p c = .ok f := by
  unfold macEncode
  rw [macLen_eq, if_neg (by simpa [lenMax] using h)]
  exact ⟨_, rfl⟩

/-- A frame has 20 to 16390 bytes (R161, R162, R167). -/
theorem macEncode_length {cfg : Config} {dest : Addr} {p : Bytes} {c : Option Confounder} {f : Bytes}
    (h : macEncode cfg dest p c = .ok f) : 20 ≤ f.length ∧ f.length ≤ 16390 := by
  obtain ⟨h1, -, h3⟩ := macEncode_ok h
  omega

/-- Everything a delivery can do: an APP-RX or a MGMT-RX of the decoded payload, or the decoder's report. -/
theorem deliver_cases (s : State) (f : Bytes) :
    (∃ p, macDecode s.cfg f = .ok (p, false) ∧ s.deliver f = s.emit (.appRx p)) ∨
    (∃ p, macDecode s.cfg f = .ok (p, true) ∧ s.deliver f = s.emit (.mgmtRx p)) ∨
    (∃ r, macDecode s.cfg f = .error r ∧ s.deliver f = s.report r) := by
  unfold State.deliver
  cases h : macDecode s.cfg f with
  | error r => exact .inr (.inr ⟨r, rfl, rfl⟩)
  | ok pm =>
    obtain ⟨p, m⟩ := pm
    cases m
    · exact .inl ⟨p, rfl, rfl⟩
    · exact .inr (.inl ⟨p, rfl, rfl⟩)

/-- A delivery writes the output list, the report port and the counters, and nothing else. -/
theorem deliver_frame (s : State) (f : Bytes) :
    ∃ os rs c, s.deliver f = { s with outputs := s.outputs ++ os, reports := s.reports ++ rs, counters := c } := by
  rcases deliver_cases s f with ⟨p, -, h⟩ | ⟨p, -, h⟩ | ⟨r, -, h⟩
  · exact ⟨[.appRx p], [], s.counters, by rw [h]; simp [State.emit]⟩
  · exact ⟨[.mgmtRx p], [], s.counters, by rw [h]; simp [State.emit]⟩
  · exact ⟨[], [r], s.counters.bump r, by rw [h]; simp [State.report]⟩

/-- The outputs of a delivery are receive events. -/
theorem deliver_outputs (s : State) (f : Bytes) :
    ∃ os, (s.deliver f).outputs = s.outputs ++ os ∧ ∀ o ∈ os, (∃ p, o = .appRx p) ∨ ∃ p, o = .mgmtRx p := by
  rcases deliver_cases s f with ⟨p, -, h⟩ | ⟨p, -, h⟩ | ⟨r, -, h⟩
  · exact ⟨[.appRx p], by rw [h]; rfl, by simp⟩
  · exact ⟨[.mgmtRx p], by rw [h]; rfl, by simp⟩
  · exact ⟨[], by rw [h]; simp, by simp⟩

end Sys2Proof.Machine
end

