-- ==== Sys2Proof/Laws/Segmenter.lean ====
section
/-! SUPPORT. What filling a block and one segmentation invocation do (43_segmenter.md R192 to R200). -/

namespace Sys2Proof.Machine

/-! ## Streams -/

theorem pendingBytes_length (st : Stream) : st.pendingBytes.length = st.pending := by
  simp [Stream.pendingBytes, Stream.pending, List.length_flatten]

theorem pendingBytes_eq_nil (st : Stream) : st.pendingBytes = [] ↔ st.pending = 0 := by
  rw [← pendingBytes_length, List.length_eq_zero_iff]

/-! ## Filling a body -/

/-- Everything the frame loop does, from a body that still takes frames only when no remainder is left. -/
structure FillSpec (size : Nat) (q : List Bytes) (a r : Fill) : Prop where
  /-- Bytes are moved in order, none lost or added. -/
  bytes : r.body ++ (r.remainder ++ r.queue.flatten) = a.body ++ (a.remainder ++ q.flatten)
  /-- The body only grows, up to its size. -/
  grows : a.body.length ≤ r.body.length
  bounded : a.body.length ≤ size → r.body.length ≤ size
  /-- A body that is not full has emptied the stream. -/
  emptied : r.body.length < size → r.remainder = [] ∧ r.queue = []
  /-- Every frame is queued, in the remainder, or counted. -/
  counted : r.k + (r.queue.length + min 1 r.remainder.length) = a.k + (q.length + min 1 a.remainder.length)
  /-- What is left queued is a tail of the queue. -/
  tail : ∃ n, r.queue = q.drop n
  /-- The remainder is the old one, or what is left of a queued frame after at least one byte. -/
  rest : r.remainder = a.remainder ∨ ∃ f ∈ q, ∃ n, 0 < n ∧ r.remainder = f.drop n
  /-- A boundary is the old one, or an offset within the body. -/
  boundary : r.boundary = a.boundary ∨ ∃ o, r.boundary = some o ∧ o < size

theorem fillFrames_spec (size : Nat) (q : List Bytes) (a : Fill) (ha : a.body.length < size → a.remainder = []) :
    FillSpec size q a (fillFrames size q a) := by
  induction q generalizing a with
  | nil =>
    exact ⟨rfl, Nat.le_refl _, fun h => h, fun h => ⟨ha h, rfl⟩, rfl, ⟨0, rfl⟩, .inl rfl, .inl rfl⟩
  | cons f fs ih =>
    rw [fillFrames]
    split
    · next hlt =>
      have hr := ha hlt
      have key := ih
        { queue := fs
          remainder := f.drop (size - a.body.length)
          body := a.body ++ f.take (size - a.body.length)
          boundary := a.boundary.or (some a.body.length)
          k := if f.drop (size - a.body.length) = [] then a.k + 1 else a.k } (by
            intro h
            simp only [List.length_append, List.length_take] at h
            simp only [List.drop_eq_nil_iff]
            omega)
      obtain ⟨h1, h2, h3, h4, h5, ⟨n, h6⟩, h7, h8⟩ := key
      refine ⟨?_, ?_, ?_, h4, ?_, ⟨n + 1, by rw [h6]; rfl⟩, ?_, ?_⟩
      · rw [h1, hr]
        simp only [List.append_assoc, List.nil_append, List.flatten_cons]
        rw [← List.append_assoc (f.take _) (f.drop _), List.take_append_drop]
      · simp only [List.length_append] at h2; omega
      · intro _
        apply h3
        simp only [List.length_append, List.length_take]
        omega
      · rw [h5, hr]
        simp only [List.length_cons, List.length_nil, List.length_drop, List.drop_eq_nil_iff]
        split <;> omega
      · rcases h7 with h7 | ⟨g, hg, m, hm, h7⟩
        · exact .inr ⟨f, List.mem_cons_self, _, by omega, h7⟩
        · exact .inr ⟨g, List.mem_cons_of_mem _ hg, m, hm, h7⟩
      · rcases h8 with h8 | ⟨o, h8, ho⟩
        · rw [h8]
          cases a.boundary with
          | none => exact .inr ⟨a.body.length, rfl, hlt⟩
          | some o => exact .inl rfl
        · exact .inr ⟨o, h8, ho⟩
    · next hge =>
      exact ⟨rfl, Nat.le_refl _, fun h => h, fun h => absurd h hge, rfl, ⟨0, rfl⟩, .inl rfl, .inl rfl⟩

theorem fillRemainder_ready (size : Nat) (st : Stream) :
    (fillRemainder size st).body.length < size → (fillRemainder size st).remainder = [] := by
  simp only [fillRemainder, List.length_take, List.drop_eq_nil_iff]
  omega

/-- A filled block holds the stream's next bytes, in order (R194). -/
theorem fillBlock_bytes (size : Nat) (st : Stream) :
    (fillBlock size st).body ++ ((fillBlock size st).remainder ++ (fillBlock size st).queue.flatten)
      = st.pendingBytes := by
  rw [fillBlock, (fillFrames_spec size _ _ (fillRemainder_ready size st)).bytes, Stream.pendingBytes]
  simp only [fillRemainder]
  rw [← List.append_assoc, List.take_append_drop]

theorem fillBlock_bounded (size : Nat) (st : Stream) : (fillBlock size st).body.length ≤ size :=
  (fillFrames_spec size _ _ (fillRemainder_ready size st)).bounded (by simp [fillRemainder])

theorem fillBlock_emptied {size : Nat} {st : Stream} (h : (fillBlock size st).body.length < size) :
    (fillBlock size st).remainder = [] ∧ (fillBlock size st).queue = [] :=
  (fillFrames_spec size _ _ (fillRemainder_ready size st)).emptied h

/-- The boundary of a filled block is within its body (R195). -/
theorem fillBlock_boundary {size : Nat} {st : Stream} {o : Nat} (h : (fillBlock size st).boundary = some o) :
    o < size := by
  rcases (fillFrames_spec size st.pendingFrames _ (fillRemainder_ready size st)).boundary with hb | ⟨p, hp, hlt⟩
  · rw [fillBlock, hb] at h; cases h
  · rw [fillBlock, hp] at h; injection h with h; omega

/-- A filled block takes the first bytes of a stream: as many as fit. -/
theorem fillBlock_body (size : Nat) (st : Stream) : (fillBlock size st).body = st.pendingBytes.take size := by
  have hb := fillBlock_bytes size st
  have hle := fillBlock_bounded size st
  by_cases hlt : (fillBlock size st).body.length < size
  · obtain ⟨h1, h2⟩ := fillBlock_emptied hlt
    rw [h1, h2] at hb
    simp only [List.flatten_nil, List.append_nil] at hb
    rw [← hb, List.take_of_length_le hle]
  · have : (fillBlock size st).body.length = size := by omega
    rw [← hb, List.take_left' this]

/-- The bytes a stream still holds after a block is cut. -/
theorem afterCut_pendingBytes (cfg : Config) (size : Nat) (st : Stream) :
    (afterCut cfg size st).pendingBytes = st.pendingBytes.drop size := by
  have hb := fillBlock_bytes size st
  have hbody := fillBlock_body size st
  have : (afterCut cfg size st).pendingBytes
      = (fillBlock size st).remainder ++ (fillBlock size st).queue.flatten := rfl
  rw [this]
  rw [hbody] at hb
  conv at hb => rhs; rw [← List.take_append_drop size st.pendingBytes]
  exact List.append_cancel_left hb

theorem outstanding_eq (st : Stream) : st.outstanding = st.pendingFrames.length + min 1 st.remainder.length := by
  cases h : st.remainder <;> simp [Stream.outstanding, h]

/-- Frames fully consumed by a block are those no longer outstanding (R200). -/
theorem afterCut_outstanding (cfg : Config) (size : Nat) (st : Stream) :
    (afterCut cfg size st).outstanding + (fillBlock size st).k = st.outstanding := by
  have h := (fillFrames_spec size st.pendingFrames _ (fillRemainder_ready size st)).counted
  have h2 : (fillRemainder size st).k + min 1 (fillRemainder size st).remainder.length
      = min 1 st.remainder.length := by
    cases hr : st.remainder with
    | nil => simp [fillRemainder, hr]
    | cons x xs =>
      simp only [fillRemainder, hr, List.drop_eq_nil_iff, List.length_drop, List.length_cons, ne_eq,
        reduceCtorEq, not_false_eq_true, true_and]
      split <;> omega
  rw [outstanding_eq, outstanding_eq]
  have h3 : (afterCut cfg size st).pendingFrames = (fillBlock size st).queue := rfl
  have h4 : (afterCut cfg size st).remainder = (fillBlock size st).remainder := rfl
  rw [h3, h4]
  simp only [fillBlock]
  omega

@[simp] theorem afterCut_inUse (cfg : Config) (size : Nat) (st : Stream) :
    (afterCut cfg size st).inUse = st.inUse := rfl

@[simp] theorem afterCut_dest (cfg : Config) (size : Nat) (st : Stream) :
    (afterCut cfg size st).dest = st.dest := rfl

theorem SsnMod_toNat_pos (m : SsnMod) : 0 < m.toNat := by cases m <;> decide

theorem nextSsn_toNat (m : SsnMod) (ssn : BitVec 17) : (nextSsn m ssn).toNat = (ssn.toNat + 1) % m.toNat := by
  have h := Nat.mod_lt (ssn.toNat + 1) (SsnMod_toNat_pos m)
  have hm : m.toNat < 2 ^ 17 := by cases m <;> decide
  rw [nextSsn, BitVec.toNat_ofNat, Nat.mod_eq_of_lt (by omega)]

/-- A slot stays as `Stream.Ok` says while something is pending in it (R41 to R43). -/
theorem afterCut_ok {cfg : Config} {size : Nat} {st : Stream} (h : st.Ok cfg) (hp : st.pending ≠ 0) :
    (afterCut cfg size st).Ok cfg := by
  obtain ⟨-, hf, hr, hu⟩ := h
  have spec := fillFrames_spec size st.pendingFrames _ (fillRemainder_ready size st)
  refine ⟨?_, ?_, ?_, ?_⟩
  · show (nextSsn cfg.ssnMod st.nextSsn).toNat < _
    rw [nextSsn_toNat]; exact Nat.mod_lt _ (SsnMod_toNat_pos _)
  · intro f hmem
    obtain ⟨n, hn⟩ := spec.tail
    have hmem : f ∈ st.pendingFrames.drop n := by rw [← hn]; exact hmem
    exact hf f (List.mem_of_mem_drop hmem)
  · show (fillBlock size st).remainder.length ≤ 16389
    rcases spec.rest with h1 | ⟨f, hmem, n, hn, h1⟩
    · rw [fillBlock, h1]
      simp only [fillRemainder, List.length_drop]
      omega
    · rw [fillBlock, h1, List.length_drop]
      have := hf f hmem
      omega
  · intro h0
    obtain ⟨h1, h2, -⟩ := hu h0
    exact absurd (by simp [Stream.pending, h1, h2]) hp

/-! ## Blocks -/

@[simp] theorem padBody_length {size : Nat} {body : Bytes} (h : body.length ≤ size) :
    (padBody size body).length = size := by
  simp [padBody]; omega

theorem blockBytes_length (a : CrcAlgo) (h : BlockHeader) (body : Bytes) :
    (blockBytes a h body).length = body.length + 8 := by
  simp [blockBytes]; omega

/-- A block is `B + 8` bytes (30_encoding.md R92). -/
theorem cutBlock_length (cfg : Config) (size : Nat) (st : Stream) : (cutBlock cfg size st).length = size + 8 := by
  rw [cutBlock, blockBuild, blockBytes_length, padBody_length (fillBlock_bounded size st)]

/-! ## One invocation -/

/-- A property of the loop that holds at its start and is kept by each block cut holds at its end. -/
theorem segmentLoop_induct {cfg : Config} {size : Nat} {P : Segmented → Prop}
    (hstep : ∀ r, r.stream.pending ≠ 0 → P r →
      P { stream := afterCut cfg size r.stream, burst := r.burst ++ cutBlock cfg size r.stream,
          n := r.n + 1, k := r.k + (fillBlock size r.stream).k })
    (m : Nat) (r : Segmented) (h : P r) : P (segmentLoop cfg size m r) := by
  induction m generalizing r with
  | zero => exact h
  | succ m ih =>
    rw [segmentLoop]
    split
    · exact h
    · next hp => exact ih _ (hstep r hp h)

theorem segmentLoop_n_le (cfg : Config) (size m : Nat) (r : Segmented) :
    (segmentLoop cfg size m r).n ≤ r.n + m := by
  induction m generalizing r with
  | zero => exact Nat.le_refl _
  | succ m ih =>
    rw [segmentLoop]
    split
    · omega
    · exact le_trans (ih _) (by simp only; omega)

/-- At most `MAX_SEGMENTS` blocks (R192). -/
theorem segment_n_le (cfg : Config) (st : Stream) : (segment cfg st).n ≤ 3 := by
  have := segmentLoop_n_le cfg (bodySize st) maxSegments ⟨st, [], 0, 0⟩
  simpa [segment, maxSegments] using this

/-- A stream with nothing pending gives an empty result (R192). -/
theorem segment_of_pending_eq_zero {cfg : Config} {st : Stream} (h : st.pending = 0) :
    segment cfg st = ⟨st, [], 0, 0⟩ := by
  simp [segment, maxSegments, segmentLoop, h]

/-- Frames fully consumed by an invocation are those no longer outstanding (R200). -/
theorem segment_outstanding (cfg : Config) (st : Stream) :
    (segment cfg st).stream.outstanding + (segment cfg st).k = st.outstanding := by
  apply segmentLoop_induct (P := fun r => r.stream.outstanding + r.k = st.outstanding)
  · intro r _ h
    have := afterCut_outstanding cfg (bodySize st) r.stream
    simp only
    omega
  · rfl

theorem segment_ok {cfg : Config} {st : Stream} (h : st.Ok cfg) : (segment cfg st).stream.Ok cfg := by
  apply segmentLoop_induct (P := fun r => r.stream.Ok cfg)
  · exact fun r hp h => afterCut_ok h hp
  · exact h

@[simp] theorem segment_inUse (cfg : Config) (st : Stream) : (segment cfg st).stream.inUse = st.inUse := by
  apply segmentLoop_induct (P := fun r => r.stream.inUse = st.inUse)
  · exact fun r _ h => h
  · rfl

@[simp] theorem segment_dest (cfg : Config) (st : Stream) : (segment cfg st).stream.dest = st.dest := by
  apply segmentLoop_induct (P := fun r => r.stream.dest = st.dest)
  · exact fun r _ h => h
  · rfl

end Sys2Proof.Machine
end

