-- ==== Sys2Proof/Laws/TxQueue.lean ====
section
/-! SUPPORT. What stream allocation, acceptance and the draw of a stream answer
(47_txqueue_mgmt_interface.md R342, R346, 46_arq_fsm.md R302). -/

namespace Sys2Proof.Machine

/-! ## Stream allocation -/

/-- The first slot in use for `dest`. -/
theorem streamFor_inUse {streams : List Stream} {dest : Addr} {i : Nat}
    (h : (streams.findIdx? fun st => st.inUse && st.dest == dest) = some i) : streamFor streams dest = some i := by
  simp [streamFor, h]

/-- What the slot of a destination is (R346): in use for it, or, where no slot is, a free slot. -/
theorem streamFor_some {streams : List Stream} {dest : Addr} {i : Nat} (h : streamFor streams dest = some i) :
    ∃ st, streams[i]? = some st ∧
      ((st.inUse = true ∧ st.dest = dest) ∨
        (st.inUse = false ∧ ∀ st' ∈ streams, st'.inUse = true → st'.dest ≠ dest)) := by
  unfold streamFor at h
  cases h1 : streams.findIdx? (fun st => st.inUse && st.dest == dest) with
  | some j =>
    rw [h1] at h
    injection h with h
    subst h
    obtain ⟨hj, hp, -⟩ := List.findIdx?_eq_some_iff_getElem.mp h1
    exact ⟨streams[j], by simp, .inl (by simpa using hp)⟩
  | none =>
    rw [h1, Option.none_or] at h
    obtain ⟨hj, hp, -⟩ := List.findIdx?_eq_some_iff_getElem.mp h
    refine ⟨streams[i], by simp, .inr ⟨by simpa using hp, ?_⟩⟩
    intro st' hm hu
    have := List.findIdx?_eq_none_iff.mp h1 st' hm
    simpa [hu] using this

/-- No slot for a destination: every slot is in use, for other destinations. -/
theorem streamFor_none {streams : List Stream} {dest : Addr} :
    streamFor streams dest = none ↔ ∀ st ∈ streams, st.inUse = true ∧ st.dest ≠ dest := by
  unfold streamFor
  rw [Option.or_eq_none_iff, List.findIdx?_eq_none_iff, List.findIdx?_eq_none_iff]
  constructor
  · intro ⟨h1, h2⟩ st hm
    have h2 : st.inUse = true := by simpa using h2 st hm
    exact ⟨h2, by simpa [h2] using h1 st hm⟩
  · intro h
    exact ⟨fun st hm => by simp [h st hm], fun st hm => by simp [h st hm]⟩

@[simp] theorem claim_of_inUse {st : Stream} (h : st.inUse = true) (dest : Addr) : st.claim dest = st := by
  simp [Stream.claim, h]

@[simp] theorem claim_of_free {st : Stream} (h : st.inUse = false) (dest : Addr) :
    st.claim dest = Stream.allocate dest := by
  simp [Stream.claim, h]

/-- Enqueuing changes one slot. -/
theorem enqueue_eq {s : State} {slot : Nat} {st : Stream} (h : s.streams[slot]? = some st) (dest : Addr) (f : Bytes) :
    s.enqueue slot dest f = { s with streams := s.streams.set slot ((st.claim dest).append f) } := by
  obtain ⟨hlt, hget⟩ := List.getElem?_eq_some_iff.mp h
  unfold State.enqueue
  congr 1
  apply List.ext_getElem?
  intro j
  rw [List.getElem?_modify, List.getElem?_set]
  by_cases hj : slot = j
  · subst hj; simp [hlt, hget]
  · simp [hj]

/-! ## Acceptance -/

/-- Everything acceptance can answer, with the conditions of each answer (R293, R342, R346). -/
theorem acceptable_cases (s : State) (dest : Addr) (p : Bytes) (c : Option Confounder) :
    (s.full = true ∧ s.acceptable dest p c = .error (.queueFull dest)) ∨
    (s.full = false ∧ 16383 < p.length + confounderLength c + 13 ∧
      s.acceptable dest p c = .error (.frameTooLong (p.length + confounderLength c + 13))) ∨
    (s.full = false ∧ p.length + confounderLength c + 13 ≤ 16383 ∧ streamFor s.streams dest = none ∧
      s.acceptable dest p c = .error (.noStream dest)) ∨
    (∃ f slot, s.full = false ∧ macEncode s.cfg dest p c = .ok f ∧ streamFor s.streams dest = some slot ∧
      s.acceptable dest p c = .ok (f, slot)) := by
  unfold State.acceptable
  by_cases hf : s.full = true
  · exact .inl ⟨hf, by rw [if_pos hf]⟩
  · have hf' : s.full = false := by simpa using hf
    rw [if_neg hf]
    by_cases hl : p.length + confounderLength c + 13 ≤ 16383
    · obtain ⟨f, he⟩ := macEncode_fits (cfg := s.cfg) (dest := dest) hl
      rw [he]
      cases hs : streamFor s.streams dest with
      | none => exact .inr (.inr (.inl ⟨hf', hl, rfl, rfl⟩))
      | some slot => exact .inr (.inr (.inr ⟨f, slot, hf', rfl, rfl, rfl⟩))
    · have hl : 16383 < p.length + confounderLength c + 13 := by omega
      rw [macEncode_error hl]
      exact .inr (.inl ⟨hf', hl, rfl⟩)

/-! ## The draw of a stream -/

/-- The slots a draw chooses from are those whose stream has queued data (43_segmenter.md R191). -/
theorem mem_readySlots {s : State} {i : Nat} :
    i ∈ s.readySlots ↔ ∃ st, s.streams[i]? = some st ∧ 0 < st.pending := by
  unfold State.readySlots
  simp only [List.mem_filter, List.mem_range, decide_eq_true_eq]
  constructor
  · intro ⟨hi, hp⟩
    rw [List.getElem?_eq_getElem hi] at hp
    exact ⟨s.streams[i], List.getElem?_eq_getElem hi, by simpa using hp⟩
  · intro ⟨st, hs, hp⟩
    exact ⟨(List.getElem?_eq_some_iff.mp hs).1, by rw [hs]; simpa using hp⟩

/-- A drawn slot has queued data (46_arq_fsm.md R302). -/
theorem drawSlot_some {s : State} {i : Nat} (h : s.drawSlot = some i) :
    ∃ st, s.streams[i]? = some st ∧ 0 < st.pending := by
  unfold State.drawSlot at h
  exact mem_readySlots.mp (List.mem_of_getElem? h)

/-- No slot is drawn exactly when nothing is queued (R300). -/
theorem drawSlot_eq_none {s : State} : s.drawSlot = none ↔ ∀ st ∈ s.streams, st.pending = 0 := by
  have hr : s.drawSlot = none ↔ s.readySlots = [] := by
    unfold State.drawSlot
    rw [List.getElem?_eq_none_iff]
    constructor
    · intro h
      by_contra hne
      have := Nat.mod_lt s.draw.pick (List.length_pos_iff.mpr hne)
      omega
    · intro h; simp [h]
  rw [hr, List.eq_nil_iff_forall_not_mem]
  constructor
  · intro h st hm
    obtain ⟨i, hi, hst⟩ := List.getElem_of_mem hm
    by_contra hp
    exact h i (mem_readySlots.mpr ⟨st, by rw [List.getElem?_eq_getElem hi, hst], by omega⟩)
  · intro h i hi
    obtain ⟨st, hs, hp⟩ := mem_readySlots.mp hi
    have := h st (List.mem_of_getElem? hs)
    omega

end Sys2Proof.Machine
end

