-- ==== Sys2Proof/Laws/Arq.lean ====
section
/-! SUPPORT. Everything the send path can do (46_arq_fsm.md R300 to R303). -/

namespace Sys2Proof.Machine

/-- A burst of one slot, as one update (R303, 47_txqueue_mgmt_interface.md R344, R345). -/
theorem sendSof_eq {s : State} {i : Nat} {st : Stream} (h : s.streams[i]? = some st) :
    s.sendSof i = { s with
      streams := s.streams.set i (segment s.cfg st).stream
      inflight := s.inflight - (segment s.cfg st).k
      full := s.full && decide (maxFramesInBuffer ≤ s.inflight - (segment s.cfg st).k)
      lastFrameBlockCount := BitVec.ofNat 2 (segment s.cfg st).n
      fsm := .sendingSofOrSound
      outputs := s.outputs ++ [.sof s.cfg.sofModulation s.cfg.sofRoboMode (segment s.cfg st).burst]
        ++ (if s.full = true ∧ s.inflight - (segment s.cfg st).k < maxFramesInBuffer then [.ready] else []) } := by
  simp only [State.sendSof, h, clearBackpressure_eq]
  rfl

/-- The send path does what `State.Sends` says. -/
theorem sendPath_sends (s : State) : s.Sends s.sendPath := by
  unfold State.sendPath
  split
  · next h => exact .inl ⟨drawSlot_eq_none.mp h, rfl⟩
  · next i h =>
    obtain ⟨st, hs, hp⟩ := drawSlot_some h
    by_cases hd : s.soundDue = true
    · rw [if_pos hd]
      exact .inr (.inl ⟨⟨st, List.mem_of_getElem? hs, hp⟩, (soundDue_iff s).mp hd, tick64 s.now, tick64_toNat, rfl⟩)
    · rw [if_neg hd]
      exact .inr (.inr ⟨i, st, hs, hp, (soundDue_eq_false s).mp (by simpa using hd), sendSof_eq hs⟩)

end Sys2Proof.Machine
end

