-- ==== Sys2Proof/Laws/BitField.lean ====
section
/-! SUPPORT. Everything the four bit-field operations answer (40_bitfield.md R130 to R135). -/

namespace Sys2Proof.Machine

/-- SETFIELD: the bounds error, or a buffer of the same length whose field bits are the value's (R130). -/
theorem setField_spec (buf : Bytes) (v : BitVec 32) (o w : Nat) :
    (8 * buf.length < o + w ∧ setField buf v o w = .error ⟨o, w, buf.length⟩) ∨
    ∃ buf', o + w ≤ 8 * buf.length ∧ setField buf v o w = .ok (buf', o + w) ∧ buf'.length = buf.length ∧
      ∀ p, bitAt buf' p = if o ≤ p ∧ p < o + w then v.toNat.testBit (p - o) else bitAt buf p := by
  unfold setField
  by_cases h : o + w > 8 * buf.length
  · rw [if_pos h]; exact .inl ⟨h, rfl⟩
  · rw [if_neg h]
    exact .inr ⟨_, by omega, rfl, writeBits_length .., bitAt_writeBits _ (by omega)⟩

/-- GETFIELD: the bounds error, or the value whose bits are the field's (R131). -/
theorem getField_spec (buf : Bytes) (o w : Nat) (hw : w ≤ 32) :
    (8 * buf.length < o + w ∧ getField buf o w = .error ⟨o, w, buf.length⟩) ∨
    ∃ v : BitVec 32, o + w ≤ 8 * buf.length ∧ getField buf o w = .ok v ∧ v.toNat < 2 ^ w ∧
      ∀ j, v.toNat.testBit j = (decide (j < w) && bitAt buf (o + j)) := by
  unfold getField
  by_cases h : o + w > 8 * buf.length
  · rw [if_pos h]; exact .inl ⟨h, rfl⟩
  · rw [if_neg h]
    have hlt := readBits_lt buf o w
    have h32 : 2 ^ w ≤ 2 ^ 32 := Nat.pow_le_pow_right (by decide) hw
    have hv : (BitVec.ofNat 32 (readBits buf o w)).toNat = readBits buf o w := by
      rw [BitVec.toNat_ofNat, Nat.mod_eq_of_lt (by omega)]
    exact .inr ⟨_, by omega, rfl, by rw [hv]; exact hlt, fun j => by rw [hv, testBit_readBits]⟩

theorem overwrite_getElem? {buf s : Bytes} {k : Nat} (h : k + s.length ≤ buf.length) (i : Nat) :
    (overwrite buf s k)[i]? = if k ≤ i ∧ i < k + s.length then s[i - k]? else buf[i]? := by
  unfold overwrite
  have hk : (buf.take k).length = k := by simp; omega
  rcases Nat.lt_or_ge i k with h1 | h1
  · rw [List.append_assoc, List.getElem?_append_left (by omega), List.getElem?_take_of_lt h1, if_neg (by omega)]
  · rcases Nat.lt_or_ge i (k + s.length) with h2 | h2
    · rw [List.append_assoc, List.getElem?_append_right (by omega), hk, List.getElem?_append_left (by omega),
        if_pos ⟨h1, h2⟩]
    · rw [List.getElem?_append_right (by simp; omega), List.getElem?_drop, if_neg (by omega)]
      congr 1
      simp only [List.length_append, hk]
      omega

/-- SETBYTES: the bounds error, or a buffer of the same length with the bytes in place (R132). -/
theorem setBytes_spec (buf s : Bytes) (k : Nat) :
    (buf.length < k + s.length ∧ setBytes buf s k = .error ⟨8 * k, 8 * s.length, buf.length⟩) ∨
    ∃ buf', k + s.length ≤ buf.length ∧ setBytes buf s k = .ok (buf', k + s.length) ∧ buf'.length = buf.length ∧
      ∀ i, buf'[i]? = if k ≤ i ∧ i < k + s.length then s[i - k]? else buf[i]? := by
  unfold setBytes
  by_cases h : k + s.length > buf.length
  · rw [if_pos h]; exact .inl ⟨h, rfl⟩
  · rw [if_neg h]
    exact .inr ⟨_, by omega, rfl, overwrite_length (by omega), overwrite_getElem? (by omega)⟩

/-- GETBYTES: the bounds error, or the bytes from the offset (R133). -/
theorem getBytes_spec (buf : Bytes) (k n : Nat) :
    (buf.length < k + n ∧ getBytes buf k n = .error ⟨8 * k, 8 * n, buf.length⟩) ∨
    ∃ b, k + n ≤ buf.length ∧ getBytes buf k n = .ok b ∧ b.length = n ∧ ∀ i < n, b[i]? = buf[k + i]? := by
  unfold getBytes
  by_cases h : k + n > buf.length
  · rw [if_pos h]; exact .inl ⟨h, rfl⟩
  · rw [if_neg h]
    refine .inr ⟨_, by omega, rfl, by rw [slice_length]; omega, fun i hi => ?_⟩
    rw [slice, List.getElem?_drop, List.getElem?_take_of_lt (by omega)]

end Sys2Proof.Machine
end

