-- ==== Sys2Proof/Laws/Crc.lean ====
section
/-! SUPPORT. The CRC register as a left fold, and the facts about the default algorithm that single-bit
detection rests on (41_crc32.md R150, R156). -/

namespace Sys2Proof.Machine

@[simp] theorem withRegister_eq {α : Type} (c : BitVec 32) (k : BitVec 32 → α) : withRegister c k = k c := by
  unfold withRegister
  split
  · next h => rw [BitVec.eq_of_toNat_eq (x := c) (y := 0#32) (by simpa using h)]
  · next n h =>
    have h : c.toNat = n + 1 := h
    rw [← h, BitVec.ofNat_toNat, BitVec.setWidth_eq]

theorem crcFold_eq (f : BitVec 32 → Byte → BitVec 32) (b : Bytes) (c : BitVec 32) :
    crcFold f b c = b.foldl f c := by
  induction b generalizing c with
  | nil => rfl
  | cons x b ih => simp [crcFold, ih]

@[simp] theorem crcFold_nil (f : BitVec 32 → Byte → BitVec 32) (c : BitVec 32) : crcFold f [] c = c := rfl

@[simp] theorem crcFold_cons (f : BitVec 32 → Byte → BitVec 32) (x : Byte) (b : Bytes) (c : BitVec 32) :
    crcFold f (x :: b) c = crcFold f b (f c x) := by simp [crcFold]

theorem crcFold_append (f : BitVec 32 → Byte → BitVec 32) (a b : Bytes) (c : BitVec 32) :
    crcFold f (a ++ b) c = crcFold f b (crcFold f a c) := by simp [crcFold_eq]

/-- The reversed polynomial of R150. -/
theorem isoHdlc_poly_reverse : CrcAlgo.isoHdlc.poly.reverse = 0xEDB88320#32 := by
  decide +kernel

theorem isoHdlc_init_reverse : CrcAlgo.isoHdlc.init.reverse = 0xFFFFFFFF#32 := by
  decide +kernel

/-- The default algorithm is R150's loop. -/
theorem crc32_isoHdlc (b : Bytes) :
    crc32 CrcAlgo.isoHdlc b = b.foldl (crcByteRight 0xEDB88320#32) 0xFFFFFFFF#32 ^^^ 0xFFFFFFFF#32 := by
  have h : crcRegister CrcAlgo.isoHdlc b = b.foldl (crcByteRight 0xEDB88320#32) 0xFFFFFFFF#32 := by
    rw [crcRegister, if_pos (show CrcAlgo.isoHdlc.refIn = true from rfl), crcFold_eq, isoHdlc_poly_reverse, isoHdlc_init_reverse]
  rw [crc32, if_pos (show CrcAlgo.isoHdlc.refIn = CrcAlgo.isoHdlc.refOut from rfl), h]
  rfl

/-- One shift loses nothing when the reversed polynomial has its top bit set: the bit shifted out shows as
the top bit. -/
theorem crcShift_injective {poly : BitVec 32} (hp : poly.getLsbD 31 = true) (k : Nat) :
    Function.Injective (crcShiftRight poly k) := by
  induction k with
  | zero => exact fun _ _ h => h
  | succ k ih =>
    intro c d h
    have h := ih h
    have bit : ∀ j, (if c.getLsbD 0 then (c >>> 1) ^^^ poly else c >>> 1).getLsbD j
        = (if d.getLsbD 0 then (d >>> 1) ^^^ poly else d >>> 1).getLsbD j := fun j => by rw [h]
    have key : ∀ (x : BitVec 32) (j : Nat), j < 32 →
        (if x.getLsbD 0 then (x >>> 1) ^^^ poly else x >>> 1).getLsbD j
          = (x.getLsbD (1 + j) ^^ (x.getLsbD 0 && poly.getLsbD j)) := by
      intro x j _
      by_cases hx : x.getLsbD 0 = true
      · rw [if_pos hx, BitVec.getLsbD_xor, BitVec.getLsbD_ushiftRight, hx]; simp
      · have hx' : x.getLsbD 0 = false := by simpa using hx
        rw [if_neg hx, BitVec.getLsbD_ushiftRight, hx', Bool.false_and, Bool.xor_false]
    have h0 : c.getLsbD 0 = d.getLsbD 0 := by
      have := bit 31
      rw [key c 31 (by decide), key d 31 (by decide), hp] at this
      simpa using this
    apply BitVec.eq_of_getLsbD_eq
    intro j hj
    cases j with
    | zero => exact h0
    | succ j =>
      have := bit j
      rw [key c j (by omega), key d j (by omega), h0, Nat.add_comm] at this
      simpa using this

theorem isoHdlc_top : (0xEDB88320#32).getLsbD 31 = true := by decide

/-- A byte step loses nothing of the register. -/
theorem crcByte_injective (x : Byte) : Function.Injective fun c => crcByteRight 0xEDB88320#32 c x := by
  intro c d h
  have h := crcShift_injective isoHdlc_top 8 h
  have := congrArg (· ^^^ x.setWidth 32) h
  simpa [BitVec.xor_assoc] using this

/-- A byte step tells two bytes apart. -/
theorem crcByte_ne {c : BitVec 32} {x y : Byte} (h : x ≠ y) :
    crcByteRight 0xEDB88320#32 c x ≠ crcByteRight 0xEDB88320#32 c y := by
  intro he
  have he := crcShift_injective isoHdlc_top 8 he
  have he : x.setWidth 32 = y.setWidth 32 := by
    have := congrArg (c ^^^ ·) he
    simpa [← BitVec.xor_assoc] using this
  apply h
  have := congrArg (BitVec.setWidth 8) he
  simpa [BitVec.setWidth_setWidth_of_le] using this

/-- The rest of a string loses nothing of the register. -/
theorem crcFold_injective (b : Bytes) : Function.Injective fun c => b.foldl (crcByteRight 0xEDB88320#32) c := by
  induction b with
  | nil => exact fun _ _ h => h
  | cons x b ih => exact fun c d h => crcByte_injective x (ih h)

end Sys2Proof.Machine
end

