-- ==== Sys2Proof/Laws/Decode.lean ====
section
/-! SUPPORT. What each operand reader of the decoder answers, on an operand the encoder wrote and on any
bytes. -/

namespace Sys2Proof

open Machine

/-! ## Little-endian numbers -/

@[simp] theorem leBytes_length (k n : Nat) : (leBytes k n).length = k := by
  induction k generalizing n with
  | zero => rfl
  | succ k ih => simp [leBytes, ih]

theorem leNat_leBytes (k n : Nat) : leNat (leBytes k n) = n % 256 ^ k := by
  induction k generalizing n with
  | zero => simp [leBytes, leNat, Nat.mod_one]
  | succ k ih =>
    have h : (BitVec.ofNat 8 n).toNat = n % 256 := BitVec.toNat_ofNat n 8
    rw [leBytes, leNat, ih, h, Nat.pow_succ', Nat.mod_mul]

theorem leNat_lt (b : Bytes) : leNat b < 256 ^ b.length := by
  induction b with
  | nil => simp [leNat]
  | cons x b ih =>
    have := x.isLt
    simp only [leNat, List.length_cons, Nat.pow_succ']
    omega

theorem leBytes_leNat (b : Bytes) : leBytes b.length (leNat b) = b := by
  induction b with
  | nil => rfl
  | cons x b ih =>
    have hx := x.isLt
    have h1 : (x.toNat + 256 * leNat b) / 256 = leNat b := by omega
    simp only [List.length_cons, leBytes, leNat, h1, ih]
    congr 1
    apply BitVec.eq_of_toNat_eq
    simp
    omega

/-! ## Numbers -/

theorem take32_leBytes {n : Nat} (h : n < 2 ^ 32) (r : Bytes) : take32 (leBytes 4 n ++ r) = .ok (n, r) := by
  have hl := leNat_leBytes 4 n
  rw [Nat.mod_eq_of_lt (by omega)] at hl
  simp only [leBytes, List.cons_append, List.nil_append, take32] at hl ⊢
  rw [hl]

theorem take16_leBytes {n : Nat} (h : n < 2 ^ 16) (r : Bytes) : take16 (leBytes 2 n ++ r) = .ok (n, r) := by
  have hl := leNat_leBytes 2 n
  rw [Nat.mod_eq_of_lt (by omega)] at hl
  simp only [leBytes, List.cons_append, List.nil_append, take16] at hl ⊢
  rw [hl]

/-- A 32-bit operand is the 4 bytes of its number. -/
theorem take32_ok {b r : Bytes} {n : Nat} (h : take32 b = .ok (n, r)) : b = leBytes 4 n ++ r ∧ n < 2 ^ 32 := by
  unfold take32 at h
  split at h
  · next w x y z t =>
    injection h with h
    obtain ⟨rfl, rfl⟩ := Prod.mk.inj h
    refine ⟨?_, by simpa using leNat_lt [w, x, y, z]⟩
    simpa using congrArg (· ++ t) (leBytes_leNat [w, x, y, z]).symm
  · cases h

/-- A 16-bit operand is the 2 bytes of its number. -/
theorem take16_ok {b r : Bytes} {n : Nat} (h : take16 b = .ok (n, r)) : b = leBytes 2 n ++ r ∧ n < 2 ^ 16 := by
  unfold take16 at h
  split at h
  · next w x t =>
    injection h with h
    obtain ⟨rfl, rfl⟩ := Prod.mk.inj h
    refine ⟨?_, by simpa using leNat_lt [w, x]⟩
    simpa using congrArg (· ++ t) (leBytes_leNat [w, x]).symm
  · cases h

/-! ## Flags -/

@[simp] theorem flagOf_encodeFlag (f : Bool) : flagOf (encodeFlag f) = .ok f := by cases f <;> rfl

theorem flagOf_ok {x : Byte} {f : Bool} (h : flagOf x = .ok f) : encodeFlag f = x := by
  unfold flagOf at h
  split at h
  · injection h with h; subst h; simp_all [encodeFlag]
  · split at h
    · injection h with h; subst h; simp_all [encodeFlag]
    · cases h

@[simp] theorem takeFlag_encodeFlag (f : Bool) (r : Bytes) : takeFlag (encodeFlag f :: r) = .ok (f, r) := by
  simp [takeFlag, Except.map]

theorem takeFlag_ok {b r : Bytes} {f : Bool} (h : takeFlag b = .ok (f, r)) : b = encodeFlag f :: r := by
  cases b with
  | nil => cases h
  | cons x t =>
    simp only [takeFlag] at h
    cases hx : flagOf x with
    | error e => rw [hx] at h; cases h
    | ok g =>
      rw [hx] at h
      injection h with h
      obtain ⟨rfl, rfl⟩ := Prod.mk.inj h
      rw [flagOf_ok hx]

theorem takeFlags_map (fs : List Bool) : takeFlags (fs.map encodeFlag) = .ok fs := by
  induction fs with
  | nil => rfl
  | cons f fs ih => simp [takeFlags, ih, bind, Except.bind]

theorem takeFlags_ok {b : Bytes} {fs : List Bool} (h : takeFlags b = .ok fs) : b = fs.map encodeFlag := by
  induction b generalizing fs with
  | nil => injection h with h; subst h; rfl
  | cons x b ih =>
    simp only [takeFlags, bind, Except.bind] at h
    cases hx : flagOf x with
    | error e => rw [hx] at h; cases h
    | ok g =>
      cases hb : takeFlags b with
      | error e => rw [hx, hb] at h; cases h
      | ok gs =>
        rw [hx, hb] at h
        injection h with h
        subst h
        simp [flagOf_ok hx, ih hb]

/-! ## Byte strings -/

theorem takeAddr_bytes (a : Addr) (r : Bytes) : takeAddr (a.bytes ++ r) = .ok (a, r) := rfl

theorem takeAddr_ok {b r : Bytes} {a : Addr} (h : takeAddr b = .ok (a, r)) : b = a.bytes ++ r := by
  unfold takeAddr at h
  split at h
  · injection h with h; obtain ⟨rfl, rfl⟩ := Prod.mk.inj h; rfl
  · cases h

theorem takeConfounder_bytes (c : Confounder) (r : Bytes) : takeConfounder (c.bytes ++ r) = .ok (c, r) := rfl

theorem takeConfounder_ok {b r : Bytes} {c : Confounder} (h : takeConfounder b = .ok (c, r)) :
    b = c.bytes ++ r := by
  unfold takeConfounder at h
  split at h
  · injection h with h; obtain ⟨rfl, rfl⟩ := Prod.mk.inj h; rfl
  · cases h

theorem takeString_encodeString {b : Bytes} (h : b.length < 2 ^ 32) (r : Bytes) :
    takeString (encodeString b ++ r) = .ok (b, r) := by
  rw [encodeString, List.append_assoc, takeString, take32_leBytes h]
  simp [bind, Except.bind]

theorem takeString_ok {b r s : Bytes} (h : takeString b = .ok (s, r)) :
    b = encodeString s ++ r ∧ s.length < 2 ^ 32 := by
  simp only [takeString, bind, Except.bind] at h
  cases h32 : take32 b with
  | error e => rw [h32] at h; cases h
  | ok p =>
    obtain ⟨n, t⟩ := p
    obtain ⟨rfl, hn⟩ := take32_ok h32
    rw [h32] at h
    simp only at h
    split at h
    · next hle =>
      injection h with h
      obtain ⟨rfl, rfl⟩ := Prod.mk.inj h
      have hl : (t.take n).length = n := by simp; omega
      refine ⟨?_, by omega⟩
      rw [encodeString, hl, List.append_assoc, List.take_append_drop]
    · cases h

@[simp] theorem finish_nil (i : Instr) : finish [] i = .ok i := rfl

theorem finish_ok {r : Bytes} {i j : Instr} (h : finish r i = .ok j) : r = [] ∧ j = i := by
  unfold finish at h
  split at h
  · next hr => injection h with h; exact ⟨hr, h.symm⟩
  · cases h

/-! ## Checks -/

theorem firstFailure_eq_none {cs : List (Bool × IllFormed)} : firstFailure cs = none ↔ cs.all (·.1) = true := by
  induction cs with
  | nil => simp [firstFailure]
  | cons c cs ih => obtain ⟨ok, e⟩ := c; cases ok <;> simp [firstFailure, ih]

theorem illFormed_eq_none {i : Instr} : i.illFormed = none ↔ i.wellFormed = true := firstFailure_eq_none

/-- A well-formed instruction passes its checks. -/
theorem checked_of_wellFormed {i : Instr} (h : i.wellFormed = true) : checked i = .ok i := by
  rw [checked, illFormed_eq_none.2 h]

theorem checked_ok {i j : Instr} (h : checked i = .ok j) : j = i ∧ i.wellFormed = true := by
  unfold checked at h
  split at h
  · next hn => injection h with h; exact ⟨h.symm, illFormed_eq_none.1 hn⟩
  · cases h

end Sys2Proof
end

