-- ==== Sys2Proof/Laws/LittleEndian.lean ====
section
/-! SUPPORT. Bit fields as arithmetic: a buffer as one little-endian number (00_scope.md R12, 20_memory.md
R73), and with it the MFH, the block header word and a check field. -/

namespace Sys2Proof.Machine

/-! ## A buffer as a number -/

/-- Bit `j` of the number of a buffer is the bit at offset `j`. -/
theorem testBit_leNat (b : Bytes) (j : Nat) : (leNat b).testBit j = bitAt b j := by
  induction b generalizing j with
  | nil => simp [leNat]
  | cons x b ih =>
    rw [leNat, show (256 : Nat) = 2 ^ 8 from rfl, Nat.add_comm, Nat.testBit_two_pow_mul_add _ x.isLt]
    rcases Nat.lt_or_ge j 8 with h | h
    · simp [h, bitAt, Nat.div_eq_of_lt h, Nat.mod_eq_of_lt h, BitVec.getLsbD]
    · rw [if_neg (by omega), ih]
      obtain ⟨d, rfl⟩ : ∃ d, j = d + 8 := ⟨j - 8, by omega⟩
      simp [bitAt]

/-- A field is a slice of the number. -/
theorem readBits_eq_leNat (b : Bytes) (o w : Nat) : readBits b o w = leNat b / 2 ^ o % 2 ^ w := by
  apply Nat.eq_of_testBit_eq
  intro j
  rw [testBit_readBits, Nat.testBit_mod_two_pow, Nat.testBit_div_two_pow, testBit_leNat, Nat.add_comm]

theorem leNat_append (a b : Bytes) : leNat (a ++ b) = leNat a + 256 ^ a.length * leNat b := by
  induction a with
  | nil => simp [leNat]
  | cons x a ih =>
    rw [List.cons_append, leNat, ih, leNat, List.length_cons, Nat.pow_succ]
    ring

/-- Two buffers of one length with the same number are the same. -/
theorem leNat_injective {a b : Bytes} (hl : a.length = b.length) (h : leNat a = leNat b) : a = b := by
  rw [← leBytes_leNat a, ← leBytes_leNat b, hl, h]

theorem leNat_leBytes_of_lt {k n : Nat} (h : n < 256 ^ k) : leNat (leBytes k n) = n := by
  rw [leNat_leBytes, Nat.mod_eq_of_lt h]

theorem bitAt_leBytes {k n : Nat} (h : n < 256 ^ k) (j : Nat) : bitAt (leBytes k n) j = n.testBit j := by
  rw [← testBit_leNat, leNat_leBytes_of_lt h]

/-! ## The check field -/

theorem checkBytes_eq_leBytes (v : BitVec 32) : checkBytes v = leBytes 4 v.toNat := by
  apply bytes_ext (by simp)
  intro p hp
  simp only [checkBytes_length] at hp
  rw [checkBytes, bitAt_writeBits _ (by simp), bitAt_leBytes (by exact v.isLt)]
  simp [hp]

theorem checkValue_eq_leNat (b : Bytes) : checkValue b = BitVec.ofNat 32 (leNat b) := by
  apply BitVec.eq_of_toNat_eq
  rw [checkValue, readBits_eq_leNat]
  simp [BitVec.toNat_ofNat]

theorem checkValue_take (b : Bytes) : checkValue (b.take 4) = checkValue b := by
  rw [checkValue, checkValue, readBits_take (by decide)]

/-! ## The MFH -/

theorem leNat_take_two (f : Bytes) : leNat (f.take 2) = leNat f % 65536 := by
  rcases Nat.lt_or_ge f.length 2 with h | h
  · have := leNat_lt f
    have : 256 ^ f.length ≤ 256 ^ 2 := Nat.pow_le_pow_right (by decide) (by omega)
    rw [List.take_of_length_le (by omega), Nat.mod_eq_of_lt (by omega)]
  · conv => rhs; rw [← List.take_append_drop 2 f, leNat_append]
    have h1 := leNat_lt (f.take 2)
    have h2 : (f.take 2).length = 2 := by simp; omega
    rw [h2] at h1 ⊢
    omega

theorem mfhLen_eq_leNat (lsb : Bool) (f : Bytes) :
    mfhLen lsb f = if lsb then leNat (f.take 2) / 4 else leNat (f.take 2) % 16384 := by
  rw [leNat_take_two, mfhLen, readBits_eq_leNat, readBits_eq_leNat]
  cases lsb <;> simp
  all_goals omega

theorem mfhType_eq_leNat (lsb : Bool) (f : Bytes) :
    mfhType lsb f = if lsb then leNat (f.take 2) % 4 else leNat (f.take 2) / 16384 := by
  rw [leNat_take_two, mfhType, readBits_eq_leNat, readBits_eq_leNat]
  cases lsb <;> simp
  all_goals omega

theorem frameTotal_eq (cfg : Config) (d : Bytes) : frameTotal cfg d = mfhLen cfg.mfhTypeAtLsb d + lenBias := by
  rw [frameTotal, mfhLen_eq_leNat]; rfl

theorem frameType_eq (cfg : Config) (d : Bytes) : frameType cfg d = mfhType cfg.mfhTypeAtLsb d := by
  rw [frameType, mfhType_eq_leNat]

/-- The MFH bytes of a length and a type, in both layouts (30_encoding.md R97, 42_mac_frame.md R175). -/
theorem mfhBytes_eq_leBytes (lsb : Bool) {t l : Nat} (ht : t < 4) (hl : l < 2 ^ 14) :
    mfhBytes lsb t l = leBytes 2 (if lsb then 4 * l + t else l + 16384 * t) := by
  have h1 := mfhLen_mfhBytes lsb (t := t) hl []
  have h2 := mfhType_mfhBytes lsb (l := l) ht []
  rw [List.append_nil, mfhLen_eq_leNat] at h1
  rw [List.append_nil, mfhType_eq_leNat] at h2
  have h3 : (mfhBytes lsb t l).take 2 = mfhBytes lsb t l := List.take_of_length_le (by simp)
  rw [h3] at h1 h2
  apply leNat_injective (by simp)
  cases lsb
  · simp only [Bool.false_eq_true, if_false] at h1 h2 ⊢
    rw [leNat_leBytes_of_lt (by omega)]
    omega
  · simp only [if_true] at h1 h2 ⊢
    rw [leNat_leBytes_of_lt (by omega)]
    omega

/-! ## The block header -/

/-- The header word (30_encoding.md R94). -/
def headerWord (h : BlockHeader) : Nat :=
  h.ssn.toNat + h.macBoundaryOffset.toNat * 2 ^ 16 + h.valid.toNat * 2 ^ 25 + h.mgmtQueueFlag.toNat * 2 ^ 26
    + h.macBoundaryFlag.toNat * 2 ^ 27 + h.oldestSsnFlag.toNat * 2 ^ 28 + h.reserved.toNat * 2 ^ 29

theorem headerFields_ssn_eq (b : Bytes) : (headerFields b).ssn = BitVec.ofNat 16 (leNat b) := by
  apply BitVec.eq_of_toNat_eq
  simp [headerFields, readBits_eq_leNat, BitVec.toNat_ofNat]

theorem flag_toNat (b : Bytes) (o : Nat) : (readBits b o 1 == 1).toNat = leNat b / 2 ^ o % 2 := by
  rw [readBits_eq_leNat]
  rcases Nat.mod_two_eq_zero_or_one (leNat b / 2 ^ o) with h | h <;> simp [h]

/-- The header bytes are the header word, least significant byte first (R94). -/
theorem headerBytes_eq_leBytes (h : BlockHeader) : headerBytes h = leBytes 4 (headerWord h) := by
  have hf := headerFields_headerBytes h []
  rw [List.append_nil] at hf
  have hlt := leNat_lt (headerBytes h)
  rw [headerBytes_length] at hlt
  have key : headerWord h = leNat (headerBytes h) := by
    have h1 := congrArg (fun x => x.ssn.toNat) hf
    have h2 := congrArg (fun x => x.macBoundaryOffset.toNat) hf
    have h3 := congrArg (fun x => x.valid.toNat) hf
    have h4 := congrArg (fun x => x.mgmtQueueFlag.toNat) hf
    have h5 := congrArg (fun x => x.macBoundaryFlag.toNat) hf
    have h6 := congrArg (fun x => x.oldestSsnFlag.toNat) hf
    have h7 := congrArg (fun x => x.reserved.toNat) hf
    simp only [headerFields, flag_toNat] at h1 h2 h3 h4 h5 h6 h7
    simp only [readBits_eq_leNat, BitVec.toNat_ofNat] at h1 h2 h7
    rw [headerWord, ← h1, ← h2, ← h3, ← h4, ← h5, ← h6, ← h7]
    generalize leNat (headerBytes h) = n at hlt ⊢
    omega
  rw [key, ← headerBytes_length h, leBytes_leNat]

/-- The header bytes the segmenter writes (43_segmenter.md R197): the low 16 bits of the counter, the boundary
or 0, `valid`, and the boundary flag. -/
theorem segmentHeader_eq_leBytes (ssn : Nat) {o : Nat} (ho : o < 512) (b : Bool) :
    headerBytes (segmentHeader ssn (if b then some o else none))
      = leBytes 4 (ssn % 2 ^ 16 + (if b then o else 0) * 2 ^ 16 + 2 ^ 25 + (if b then 2 ^ 27 else 0)) := by
  have hs : (BitVec.ofNat 16 ssn).toNat = ssn % 2 ^ 16 := BitVec.toNat_ofNat _ _
  have hm : (BitVec.ofNat 9 o).toNat = o := by rw [BitVec.toNat_ofNat]; exact Nat.mod_eq_of_lt ho
  rw [headerBytes_eq_leBytes]
  refine congrArg (leBytes 4) ?_
  cases b
  · simp only [headerWord, segmentHeader, hs]
    simp
  · simp only [headerWord, segmentHeader, hs, if_true, Option.getD_some, hm]
    simp

end Sys2Proof.Machine
end

