-- ==== Sys2Proof/Laws/PerInstr.lean ====
section
/-! SUPPORT. The encoding of each instruction holds the fixed bits of its row of spec/opcode_table.json. -/

namespace Sys2Proof.Laws

/-- The fixed bits of each row of the table: the top bit, the bottom bit and the value of each field. -/
def fixedBits : Instr → List (Nat × Nat × Nat)
  | .reset => [(7, 0, 0x00)]
  | .appSubmit _ _ => [(7, 0, 0x01)]
  | .mgmtSubmit _ _ => [(7, 0, 0x02)]
  | .phyRxSof _ => [(7, 0, 0x03)]
  | .phyRxSack _ => [(7, 0, 0x04)]
  | .phyRxSound => [(7, 0, 0x05)]
  | .phyRxEnd => [(7, 0, 0x06)]
  | .phyTxEnd => [(7, 0, 0x07)]
  | .timerExpire _ => [(7, 0, 0x08)]
  | .sof _ => [(7, 0, 0x20)]
  | .sound => [(7, 0, 0x21)]
  | .sack _ => [(7, 0, 0x22)]
  | .searchPpdu => [(7, 0, 0x23)]
  | .appRx _ => [(7, 0, 0x24)]
  | .mgmtRx _ => [(7, 0, 0x25)]
  | .ready => [(7, 0, 0x26)]
  | .setField _ _ _ _ => [(7, 0, 0x10)]
  | .getField _ _ _ => [(7, 0, 0x11)]
  | .setBytes _ _ _ => [(7, 0, 0x12)]
  | .getBytes _ _ _ => [(7, 0, 0x13)]
  | .crc32 _ => [(7, 0, 0x14)]
  | .macEncode _ _ _ => [(7, 0, 0x15)]
  | .macDecode _ => [(7, 0, 0x16)]
  | .segment _ => [(7, 0, 0x17)]
  | .reassemble _ => [(7, 0, 0x18)]
  | .sackEncode _ => [(7, 0, 0x19)]
  | .sackDecode _ _ => [(7, 0, 0x1A)]
  | .blockBuild _ _ _ _ => [(7, 0, 0x1B)]
  | .mfhData _ _ => [(15, 14, 1)]
  | .mfhMgmt _ _ => [(15, 14, 3)]
  | .mfhPad _ _ => [(15, 14, 0)]
  | .mfhReserved _ _ => [(15, 14, 2)]
  | .sackPayload _ => [(7, 0, 0x15)]
  | .phyBlockHeader _ _ => [(26, 25, 1), (31, 28, 0)]

/-- A block header as this hardware transmits it (30_encoding.md R93): the table's row for it. Every other
instruction is of its row. -/
def ofRow : Instr → Prop
  | .phyBlockHeader h _ => h.valid = true ∧ h.mgmtQueueFlag = false ∧ h.oldestSsnFlag = false ∧ h.reserved = 0
  | _ => True

/-- The bits of the encoding, numbered as the table numbers them, hold the row's fixed bits. -/
def RowMatch.Statement (i : Instr) : Prop :=
  ofRow i → ∀ f ∈ fixedBits i, leNat (encode i) / 2 ^ f.2.1 % 2 ^ (f.1 + 1 - f.2.1) = f.2.2

theorem leNat_cons_mod (b : Byte) (r : Bytes) : leNat (b :: r) / 2 ^ 0 % 2 ^ (7 + 1 - 0) = b.toNat := by
  have := b.isLt
  simp only [leNat]
  omega

theorem mfh_fixed {t : Nat} (ht : t < 4) (len : BitVec 14) (rest : Bytes) :
    leNat (Machine.mfhBytes false t len.toNat ++ rest) / 2 ^ 14 % 2 ^ (15 + 1 - 14) = t := by
  have hl := len.isLt
  rw [Machine.mfhBytes_eq_leBytes false ht hl, Machine.leNat_append, leBytes_length, leNat_leBytes]
  simp only [Bool.false_eq_true, if_false]
  omega

theorem RowMatch.reset : RowMatch.Statement .reset := by
  intro _ f hf
  cases List.mem_singleton.mp hf
  exact leNat_cons_mod _ _

theorem RowMatch.appSubmit (d : Addr) (p : Bytes) : RowMatch.Statement (.appSubmit d p) := by
  intro _ f hf
  cases List.mem_singleton.mp hf
  exact leNat_cons_mod _ _

theorem RowMatch.mgmtSubmit (d : Addr) (p : Bytes) : RowMatch.Statement (.mgmtSubmit d p) := by
  intro _ f hf
  cases List.mem_singleton.mp hf
  exact leNat_cons_mod _ _

theorem RowMatch.phyRxSof (b : Bytes) : RowMatch.Statement (.phyRxSof b) := by
  intro _ f hf
  cases List.mem_singleton.mp hf
  exact leNat_cons_mod _ _

theorem RowMatch.phyRxSack (b : Bytes) : RowMatch.Statement (.phyRxSack b) := by
  intro _ f hf
  cases List.mem_singleton.mp hf
  exact leNat_cons_mod _ _

theorem RowMatch.phyRxSound : RowMatch.Statement .phyRxSound := by
  intro _ f hf
  cases List.mem_singleton.mp hf
  exact leNat_cons_mod _ _

theorem RowMatch.phyRxEnd : RowMatch.Statement .phyRxEnd := by
  intro _ f hf
  cases List.mem_singleton.mp hf
  exact leNat_cons_mod _ _

theorem RowMatch.phyTxEnd : RowMatch.Statement .phyTxEnd := by
  intro _ f hf
  cases List.mem_singleton.mp hf
  exact leNat_cons_mod _ _

theorem RowMatch.timerExpire (g : BitVec 32) : RowMatch.Statement (.timerExpire g) := by
  intro _ f hf
  cases List.mem_singleton.mp hf
  exact leNat_cons_mod _ _

theorem RowMatch.sof (b : Bytes) : RowMatch.Statement (.sof b) := by
  intro _ f hf
  cases List.mem_singleton.mp hf
  exact leNat_cons_mod _ _

theorem RowMatch.sound : RowMatch.Statement .sound := by
  intro _ f hf
  cases List.mem_singleton.mp hf
  exact leNat_cons_mod _ _

theorem RowMatch.sack (b : Bytes) : RowMatch.Statement (.sack b) := by
  intro _ f hf
  cases List.mem_singleton.mp hf
  exact leNat_cons_mod _ _

theorem RowMatch.searchPpdu : RowMatch.Statement .searchPpdu := by
  intro _ f hf
  cases List.mem_singleton.mp hf
  exact leNat_cons_mod _ _

theorem RowMatch.appRx (b : Bytes) : RowMatch.Statement (.appRx b) := by
  intro _ f hf
  cases List.mem_singleton.mp hf
  exact leNat_cons_mod _ _

theorem RowMatch.mgmtRx (b : Bytes) : RowMatch.Statement (.mgmtRx b) := by
  intro _ f hf
  cases List.mem_singleton.mp hf
  exact leNat_cons_mod _ _

theorem RowMatch.ready : RowMatch.Statement .ready := by
  intro _ f hf
  cases List.mem_singleton.mp hf
  exact leNat_cons_mod _ _

theorem RowMatch.setField (b : Bytes) (v : BitVec 32) (o w : Nat) : RowMatch.Statement (.setField b v o w) := by
  intro _ f hf
  cases List.mem_singleton.mp hf
  exact leNat_cons_mod _ _

theorem RowMatch.getField (b : Bytes) (o w : Nat) : RowMatch.Statement (.getField b o w) := by
  intro _ f hf
  cases List.mem_singleton.mp hf
  exact leNat_cons_mod _ _

theorem RowMatch.setBytes (b c : Bytes) (k : Nat) : RowMatch.Statement (.setBytes b c k) := by
  intro _ f hf
  cases List.mem_singleton.mp hf
  exact leNat_cons_mod _ _

theorem RowMatch.getBytes (b : Bytes) (k n : Nat) : RowMatch.Statement (.getBytes b k n) := by
  intro _ f hf
  cases List.mem_singleton.mp hf
  exact leNat_cons_mod _ _

theorem RowMatch.crc32 (b : Bytes) : RowMatch.Statement (.crc32 b) := by
  intro _ f hf
  cases List.mem_singleton.mp hf
  exact leNat_cons_mod _ _

theorem RowMatch.macEncode (d : Addr) (p : Bytes) (c : Option Confounder) : RowMatch.Statement (.macEncode d p c) := by
  intro _ f hf
  cases List.mem_singleton.mp hf
  cases c <;> exact leNat_cons_mod _ _

theorem RowMatch.macDecode (b : Bytes) : RowMatch.Statement (.macDecode b) := by
  intro _ f hf
  cases List.mem_singleton.mp hf
  exact leNat_cons_mod _ _

theorem RowMatch.segment (k : Nat) : RowMatch.Statement (.segment k) := by
  intro _ f hf
  cases List.mem_singleton.mp hf
  exact leNat_cons_mod _ _

theorem RowMatch.reassemble (b : Bytes) : RowMatch.Statement (.reassemble b) := by
  intro _ f hf
  cases List.mem_singleton.mp hf
  exact leNat_cons_mod _ _

theorem RowMatch.sackEncode (e : List Bool) : RowMatch.Statement (.sackEncode e) := by
  intro _ f hf
  cases List.mem_singleton.mp hf
  exact leNat_cons_mod _ _

theorem RowMatch.sackDecode (b : Bytes) (n : Nat) : RowMatch.Statement (.sackDecode b n) := by
  intro _ f hf
  cases List.mem_singleton.mp hf
  exact leNat_cons_mod _ _

theorem RowMatch.blockBuild (s : BitVec 17) (m : BitVec 9) (f : Bool) (b : Bytes) : RowMatch.Statement (.blockBuild s m f b) := by
  intro _ f hf
  cases List.mem_singleton.mp hf
  exact leNat_cons_mod _ _

theorem RowMatch.mfhData (l : BitVec 14) (r : Bytes) : RowMatch.Statement (.mfhData l r) := by
  intro _ f hf
  cases List.mem_singleton.mp hf
  exact mfh_fixed (by decide) l r

theorem RowMatch.mfhMgmt (l : BitVec 14) (r : Bytes) : RowMatch.Statement (.mfhMgmt l r) := by
  intro _ f hf
  cases List.mem_singleton.mp hf
  exact mfh_fixed (by decide) l r

theorem RowMatch.mfhPad (l : BitVec 14) (r : Bytes) : RowMatch.Statement (.mfhPad l r) := by
  intro _ f hf
  cases List.mem_singleton.mp hf
  exact mfh_fixed (by decide) l r

theorem RowMatch.mfhReserved (l : BitVec 14) (r : Bytes) : RowMatch.Statement (.mfhReserved l r) := by
  intro _ f hf
  cases List.mem_singleton.mp hf
  exact mfh_fixed (by decide) l r

theorem RowMatch.sackPayload (b : Bytes) : RowMatch.Statement (.sackPayload b) := by
  intro _ f hf
  cases List.mem_singleton.mp hf
  exact leNat_cons_mod _ _

theorem RowMatch.phyBlockHeader (h : BlockHeader) (r : Bytes) : RowMatch.Statement (.phyBlockHeader h r) := by
  rintro ⟨hv, hq, ho, hr⟩ f hf
  have hw : Machine.headerWord h = h.ssn.toNat + 65536 * h.macBoundaryOffset.toNat + 2 ^ 25
      + 2 ^ 27 * h.macBoundaryFlag.toNat := by
    simp [Machine.headerWord, hv, hq, ho, hr, Nat.mul_comm]
  have hs := h.ssn.isLt
  have hm := h.macBoundaryOffset.isLt
  have hb := h.macBoundaryFlag.toNat_lt
  rw [encode, Machine.headerBytes_eq_leBytes, hw, Machine.leNat_append, leBytes_length, leNat_leBytes]
  rcases List.mem_cons.mp hf with rfl | hf
  · dsimp only
    omega
  · cases List.mem_singleton.mp hf
    dsimp only
    omega

end Sys2Proof.Laws
end

