-- ==== Sys2Proof/Laws/Reassembler.lean ====
section
/-! SUPPORT. Everything the reassembler can do (44_reassembler.md R230 to R250): what it may change, and what
it keeps true of the incomplete entry. -/

namespace Sys2Proof.Machine

/-! ## What receiving may change -/

/-- Whether an output is a delivery (R249). -/
def OutEvent.isDelivery : OutEvent → Bool
  | .appRx _ | .mgmtRx _ => true
  | .sof _ _ _ | .sound | .sack _ | .searchPpdu | .ready => false

/-- Receiving changes the last sequence number, the entry and the counters, and adds reports and
deliveries. -/
def RxChange (s t : State) : Prop :=
  ∃ l e c rs os, (∀ o ∈ os, OutEvent.isDelivery o = true) ∧
    t = { s with
      lastReceivedSsn := l, entry := e, counters := c
      reports := s.reports ++ rs, outputs := s.outputs ++ os }

theorem RxChange.refl (s : State) : RxChange s s :=
  ⟨s.lastReceivedSsn, s.entry, s.counters, [], [], by simp, by simp⟩

theorem RxChange.trans {s t u : State} (h1 : RxChange s t) (h2 : RxChange t u) : RxChange s u := by
  obtain ⟨_, _, _, rs1, os1, hd1, rfl⟩ := h1
  obtain ⟨l, e, c, rs2, os2, hd2, rfl⟩ := h2
  refine ⟨l, e, c, rs1 ++ rs2, os1 ++ os2, ?_, ?_⟩
  · intro o ho
    rcases List.mem_append.mp ho with h | h
    · exact hd1 o h
    · exact hd2 o h
  · simp [List.append_assoc]

theorem RxChange.report (s : State) (r : Report) : RxChange s (s.report r) :=
  ⟨s.lastReceivedSsn, s.entry, s.counters.bump r, [r], [], by simp, by simp [State.report]⟩

theorem RxChange.setEntry (s : State) (e : Option Entry) : RxChange s { s with entry := e } :=
  ⟨s.lastReceivedSsn, e, s.counters, [], [], by simp, by simp⟩

theorem RxChange.setSsn (s : State) (l : Option (BitVec 16)) : RxChange s { s with lastReceivedSsn := l } :=
  ⟨l, s.entry, s.counters, [], [], by simp, by simp⟩

theorem RxChange.deliver (s : State) (f : Bytes) : RxChange s (s.deliver f) := by
  rcases deliver_cases s f with ⟨p, -, h⟩ | ⟨p, -, h⟩ | ⟨r, -, h⟩ <;> rw [h]
  · exact ⟨s.lastReceivedSsn, s.entry, s.counters, [], [.appRx p], by simp [OutEvent.isDelivery], by simp [State.emit]⟩
  · exact ⟨s.lastReceivedSsn, s.entry, s.counters, [], [.mgmtRx p], by simp [OutEvent.isDelivery], by simp [State.emit]⟩
  · exact RxChange.report s r

/-! ## The entry -/

/-- The entry of a state as `State.EntryOk` says it, by the MFH layout. -/
theorem entryOk_none {s : State} (h : s.entry = none) : s.EntryOk := by
  intro e he; rw [h] at he; cases he

theorem entryOk_some {s : State} {e : Entry} (h : s.entry = some e) (hne : e.data ≠ [])
    (hx : ∀ t ∈ expectedLength s.cfg.mfhTypeAtLsb e.data, e.data.length < t) : s.EntryOk := by
  intro e' he
  rw [h] at he
  cases he
  exact ⟨hne, hx⟩

/-- The entry's invariant depends on the layout and the entry alone. -/
theorem entryOk_congr {s t : State} (hc : t.cfg = s.cfg) (he : t.entry = s.entry) (h : s.EntryOk) : t.EntryOk := by
  intro e hm
  rw [he] at hm
  rw [hc]
  exact h e hm

@[simp] theorem deliver_cfg (s : State) (f : Bytes) : (s.deliver f).cfg = s.cfg := by
  rcases deliver_cases s f with ⟨p, -, h⟩ | ⟨p, -, h⟩ | ⟨r, -, h⟩ <;> rw [h] <;> rfl

@[simp] theorem deliver_entry (s : State) (f : Bytes) : (s.deliver f).entry = s.entry := by
  rcases deliver_cases s f with ⟨p, -, h⟩ | ⟨p, -, h⟩ | ⟨r, -, h⟩ <;> rw [h] <;> rfl

@[simp] theorem deliver_lastReceivedSsn (s : State) (f : Bytes) :
    (s.deliver f).lastReceivedSsn = s.lastReceivedSsn := by
  rcases deliver_cases s f with ⟨p, -, h⟩ | ⟨p, -, h⟩ | ⟨r, -, h⟩ <;> rw [h] <;> rfl

/-! ## One block -/

/-- Everything the continuity check can do (R233). -/
theorem checkSequence_cases (s : State) (ssn : BitVec 16) :
    (s.checkSequence ssn = s ∧ ∀ l, s.lastReceivedSsn = some l → ssn = l + 1) ∨
    ∃ l, s.lastReceivedSsn = some l ∧ ssn ≠ l + 1 ∧ s.checkSequence ssn = s.report (.gap (l + 1) ssn) := by
  unfold State.checkSequence
  split
  · next h => exact .inl ⟨rfl, by simp [h]⟩
  · next l h =>
    by_cases hs : ssn = l + 1
    · rw [if_pos hs]; exact .inl ⟨rfl, by simpa [h] using hs⟩
    · rw [if_neg hs]; exact .inr ⟨l, h, hs, rfl⟩

theorem RxChange.checkSequence (s : State) (ssn : BitVec 16) : RxChange s (s.checkSequence ssn) := by
  rcases checkSequence_cases s ssn with ⟨h, -⟩ | ⟨l, -, -, h⟩ <;> rw [h]
  · exact RxChange.refl s
  · exact RxChange.report s _

@[simp] theorem checkSequence_cfg (s : State) (ssn : BitVec 16) : (s.checkSequence ssn).cfg = s.cfg := by
  rcases checkSequence_cases s ssn with ⟨h, -⟩ | ⟨l, -, -, h⟩ <;> rw [h]
  rfl

@[simp] theorem checkSequence_entry (s : State) (ssn : BitVec 16) : (s.checkSequence ssn).entry = s.entry := by
  rcases checkSequence_cases s ssn with ⟨h, -⟩ | ⟨l, -, -, h⟩ <;> rw [h]
  rfl

/-- Everything a conditional discard can do (R235, R238). -/
theorem dropEntryIf_cases (s : State) (p : BitVec 16 → Bool) :
    (s.dropEntryIf p = s ∧ ∀ e, s.entry = some e → p e.key = false) ∨
    ∃ e, s.entry = some e ∧ p e.key = true ∧ s.dropEntryIf p = { s with entry := none } := by
  unfold State.dropEntryIf
  split
  · next h => exact .inl ⟨rfl, by simp [h]⟩
  · next e h =>
    by_cases hp : p e.key = true
    · rw [if_pos hp]; exact .inr ⟨e, h, hp, rfl⟩
    · rw [if_neg hp]; exact .inl ⟨rfl, by simpa [h] using hp⟩

theorem RxChange.dropEntryIf (s : State) (p : BitVec 16 → Bool) : RxChange s (s.dropEntryIf p) := by
  rcases dropEntryIf_cases s p with ⟨h, -⟩ | ⟨e, -, -, h⟩ <;> rw [h]
  · exact RxChange.refl s
  · exact RxChange.setEntry s none

theorem entryOk_dropEntryIf {s : State} (h : s.EntryOk) (p : BitVec 16 → Bool) : (s.dropEntryIf p).EntryOk := by
  rcases dropEntryIf_cases s p with ⟨he, -⟩ | ⟨e, -, -, he⟩ <;> rw [he]
  · exact h
  · exact entryOk_none rfl

/-- Everything a continuation region can do (R239 to R243). -/
theorem continueEntry_cases (s : State) (ssn : BitVec 16) (boundary : Bool) (region : Bytes) :
    (s.entry = none ∧ s.continueEntry ssn boundary region = s) ∨
    (∃ e t, s.entry = some e ∧ expectedLength s.cfg.mfhTypeAtLsb (e.data ++ region) = some t ∧
      t ≤ (e.data ++ region).length ∧
      s.continueEntry ssn boundary region = { s.deliver ((e.data ++ region).take t) with entry := none }) ∨
    (∃ e, s.entry = some e ∧
      (∀ t ∈ expectedLength s.cfg.mfhTypeAtLsb (e.data ++ region), (e.data ++ region).length < t) ∧
      s.continueEntry ssn boundary region
        = { s with entry := if boundary then none else some ⟨ssn + 1, e.data ++ region⟩ }) := by
  unfold State.continueEntry
  split
  · next h => exact .inl ⟨h, rfl⟩
  · next e h =>
    simp only
    split
    · next t ht =>
      by_cases hle : t ≤ (e.data ++ region).length
      · rw [if_pos hle]; exact .inr (.inl ⟨e, t, h, ht, hle, rfl⟩)
      · rw [if_neg hle]
        refine .inr (.inr ⟨e, h, ?_, rfl⟩)
        intro t' ht'
        rw [ht] at ht'
        cases ht'
        omega
    · next ht =>
      refine .inr (.inr ⟨e, h, ?_, rfl⟩)
      intro t' ht'
      rw [ht] at ht'
      cases ht'

theorem RxChange.continueEntry (s : State) (ssn : BitVec 16) (boundary : Bool) (region : Bytes) :
    RxChange s (s.continueEntry ssn boundary region) := by
  rcases continueEntry_cases s ssn boundary region with ⟨-, h⟩ | ⟨e, t, -, -, -, h⟩ | ⟨e, -, -, h⟩ <;> rw [h]
  · exact RxChange.refl s
  · exact (RxChange.deliver s _).trans (RxChange.setEntry _ none)
  · exact RxChange.setEntry s _

theorem entryOk_continueEntry {s : State} (h : s.EntryOk) (ssn : BitVec 16) (boundary : Bool) (region : Bytes) :
    (s.continueEntry ssn boundary region).EntryOk := by
  rcases continueEntry_cases s ssn boundary region with ⟨-, he⟩ | ⟨e, t, -, -, -, he⟩ | ⟨e, hs, hx, he⟩ <;> rw [he]
  · exact h
  · exact entryOk_none rfl
  · cases boundary
    · exact entryOk_some rfl (by simp [(h e hs).1]) hx
    · exact entryOk_none rfl

/-- The scan changes what receiving may change, and its new entry is an incomplete frame (R244 to R248). -/
theorem scanFrames_spec (key : BitVec 16) (fuel : Nat) (b : Bytes) (s : State) :
    RxChange s (scanFrames key fuel b s) ∧ (s.EntryOk → (scanFrames key fuel b s).EntryOk) := by
  induction fuel generalizing b s with
  | zero => exact ⟨RxChange.refl s, fun h => h⟩
  | succ fuel ih =>
    match b with
    | [] => exact ⟨RxChange.refl s, fun h => h⟩
    | [b] =>
      refine ⟨RxChange.setEntry s _, fun _ => entryOk_some rfl (by simp) ?_⟩
      intro t ht
      rw [expectedLength_of_lt_two _ (by simp)] at ht
      cases ht
    | b0 :: b1 :: r =>
      unfold scanFrames
      simp only
      by_cases hp : mfhType s.cfg.mfhTypeAtLsb (b0 :: b1 :: r) = typePad
      · rw [if_pos hp]; exact ⟨RxChange.refl s, fun h => h⟩
      · rw [if_neg hp]
        by_cases hle : mfhLen s.cfg.mfhTypeAtLsb (b0 :: b1 :: r) + lenBias ≤ (b0 :: b1 :: r).length
        · rw [if_pos hle]
          have key := ih ((b0 :: b1 :: r).drop (mfhLen s.cfg.mfhTypeAtLsb (b0 :: b1 :: r) + lenBias))
            (s.deliver ((b0 :: b1 :: r).take (mfhLen s.cfg.mfhTypeAtLsb (b0 :: b1 :: r) + lenBias)))
          exact ⟨(RxChange.deliver s _).trans key.1,
            fun h => key.2 (entryOk_congr (deliver_cfg _ _) (deliver_entry _ _) h)⟩
        · rw [if_neg hle]
          refine ⟨RxChange.setEntry s _, fun _ => entryOk_some rfl (by simp) ?_⟩
          intro t ht
          rw [expectedLength_of_two_le _ (by simp)] at ht
          cases ht
          exact Nat.lt_of_not_le hle

theorem receiveBody_spec (s : State) (h : BlockHeader) (body : Bytes) :
    RxChange s (s.receiveBody h body) ∧ (s.EntryOk → (s.receiveBody h body).EntryOk) := by
  unfold State.receiveBody
  simp only
  split
  · exact ⟨(RxChange.report s _).trans (RxChange.setEntry _ none), fun _ => entryOk_none rfl⟩
  · have h1 := RxChange.dropEntryIf s fun key => key != h.ssn
    have h2 := fun he : s.EntryOk => entryOk_dropEntryIf he fun key => key != h.ssn
    generalize s.dropEntryIf (fun key => key != h.ssn) = s1 at h1 h2 ⊢
    cases hf : h.macBoundaryFlag
    · have h3 := RxChange.continueEntry s1 h.ssn false body
      have h4 := fun he : s1.EntryOk => entryOk_continueEntry he h.ssn false body
      exact ⟨h1.trans h3, fun he => h4 (h2 he)⟩
    · have h3 := RxChange.continueEntry s1 h.ssn true (body.take h.macBoundaryOffset.toNat)
      have h4 := fun he : s1.EntryOk =>
        entryOk_continueEntry he h.ssn true (body.take h.macBoundaryOffset.toNat)
      have h5 := scanFrames_spec (h.ssn + 1) body.length (body.drop h.macBoundaryOffset.toNat)
        (s1.continueEntry h.ssn true (body.take h.macBoundaryOffset.toNat))
      exact ⟨(h1.trans h3).trans h5.1, fun he => h5.2 (h4 (h2 he))⟩

theorem receiveBlock_spec (s : State) (size index : Nat) (blk : Bytes) :
    RxChange s (s.receiveBlock size index blk) ∧ (s.EntryOk → (s.receiveBlock size index blk).EntryOk) := by
  unfold State.receiveBlock
  simp only
  have h1 := (RxChange.checkSequence s (headerFields blk).ssn).trans
    (RxChange.setSsn _ (some (headerFields blk).ssn))
  have h2 : s.EntryOk → State.EntryOk
      { s.checkSequence (headerFields blk).ssn with lastReceivedSsn := some (headerFields blk).ssn } :=
    entryOk_congr (checkSequence_cfg s _) (checkSequence_entry s _)
  generalize ({ s.checkSequence (headerFields blk).ssn with lastReceivedSsn := some (headerFields blk).ssn }
    : State) = s1 at h1 h2 ⊢
  split
  · have h3 := receiveBody_spec s1 (headerFields blk) (slice blk blockHdrLen (blockHdrLen + size))
    exact ⟨h1.trans h3.1, fun he => h3.2 (h2 he)⟩
  · refine ⟨h1.trans ((RxChange.report s1 _).trans (RxChange.dropEntryIf _ _)), fun he => ?_⟩
    have h3 : (s1.report (.block (headerFields blk).ssn index)).EntryOk := entryOk_congr rfl rfl (h2 he)
    exact entryOk_dropEntryIf h3 _

/-- The blocks of a burst in order: what they may change, and the entry they leave (R230). -/
theorem receiveBlocks_spec (size index : Nat) (blks : List Bytes) (s : State) :
    RxChange s (State.receiveBlocks size index blks s) ∧
      (s.EntryOk → (State.receiveBlocks size index blks s).EntryOk) := by
  induction blks generalizing index s with
  | nil => exact ⟨RxChange.refl s, fun h => h⟩
  | cons blk blks ih =>
    have h1 := receiveBlock_spec s size index blk
    have h2 := ih (index + 1) (s.receiveBlock size index blk)
    exact ⟨h1.1.trans h2.1, fun h => h2.2 (h1.2 h)⟩

/-- Everything a received burst can change (R230, R250). -/
theorem reassemble_change (s : State) (burst : Bytes) :
    ∃ l e c rs os, (∀ o ∈ os, OutEvent.isDelivery o = true) ∧
      s.reassemble burst = { s with
        lastReceivedSsn := l, entry := e, counters := c
        reports := s.reports ++ rs, outputs := s.outputs ++ os
        rxBlockErrors := burstErrors s.cfg.crc burst } := by
  obtain ⟨l, e, c, rs, os, hd, h⟩ :=
    (receiveBlocks_spec (burstBodySize burst.length) 0 (burstBlocks burst) s).1
  refine ⟨l, e, c, rs, os, hd, ?_⟩
  unfold State.reassemble
  rw [h]

theorem entryOk_reassemble {s : State} (h : s.EntryOk) (burst : Bytes) : (s.reassemble burst).EntryOk := by
  have := (receiveBlocks_spec (burstBodySize burst.length) 0 (burstBlocks burst) s).2 h
  exact entryOk_congr rfl rfl this

/-! ## The pieces of a burst -/

theorem chunks_length (size n : Nat) (b : Bytes) : (chunks size n b).length = n := by
  induction n generalizing b with
  | zero => rfl
  | succ n ih => simp [chunks, ih]

/-- The `i`-th piece of a burst. -/
theorem chunks_getElem? (size n : Nat) (b : Bytes) {i : Nat} (h : i < n) :
    (chunks size n b)[i]? = some ((b.drop (i * size)).take size) := by
  induction n generalizing b i with
  | zero => omega
  | succ n ih =>
    cases i with
    | zero => simp [chunks]
    | succ i =>
      rw [chunks, List.getElem?_cons_succ, ih _ (by omega), List.drop_drop]
      congr 3
      rw [Nat.add_mul, Nat.one_mul, Nat.add_comm]

end Sys2Proof.Machine
end

