-- ==== Sys2Proof/Laws/Reception.lean ====
section
/-! SUPPORT. Receiving a burst block by block, in the terms of Sys2Proof/Safety.lean: the check of a block, the
examination of its sequence number, and the last block of a burst after the ones before it. -/

namespace Sys2Proof.Machine

/-! ## One block -/

theorem headerFields_take (blk : Bytes) : headerFields (blk.take 4) = headerFields blk := by
  simp only [headerFields]
  rw [readBits_take (by decide), readBits_take (by decide), readBits_take (by decide), readBits_take (by decide),
    readBits_take (by decide), readBits_take (by decide), readBits_take (by decide)]

/-- The sequence number is the first two bytes of a block, least significant first (30_encoding.md R93). -/
theorem blockSsn_eq (blk : Bytes) : (headerFields blk).ssn = BitVec.ofNat 16 (leNat (blk.take 2)) := by
  rw [headerFields_ssn_eq, leNat_take_two]
  apply BitVec.eq_of_toNat_eq
  simp [BitVec.toNat_ofNat]

/-- A block's check (44_reassembler.md R232). -/
theorem blockOk_iff (a : CrcAlgo) (size : Nat) (blk : Bytes) : blockOk a size blk = true ↔ BlockPasses a size blk := by
  rw [blockOk, BlockPasses, beq_iff_eq, ← checkValue_take, checkValue_eq_leNat]
  rfl

/-- Examining a sequence number: the continuity check, then the register (R233, R234). -/
theorem examined_eq (s : State) (ssn : BitVec 16) :
    ({ s.checkSequence ssn with lastReceivedSsn := some ssn } : State) = s.examined ssn := by
  unfold State.examined
  rcases checkSequence_cases s ssn with ⟨h, hl⟩ | ⟨l, hl, hne, h⟩
  · have hg : gapReports s.lastReceivedSsn ssn = [] := by
      unfold gapReports
      split
      · rfl
      · next l heq => rw [if_pos (hl l heq)]
    rw [h, hg]
    simp
  · have hg : gapReports s.lastReceivedSsn ssn = [.gap (l + 1) ssn] := by
      rw [hl, gapReports, if_neg hne]
    rw [h, hg]
    simp [State.report, Counters.bump]

/-- One whole block (the loop body of R230). -/
theorem receiveBlock_eq (s : State) (size index : Nat) (blk : Bytes) :
    s.receiveBlock size index blk =
      if BlockPasses s.cfg.crc size blk then
        (s.examined (headerFields blk).ssn).receiveBody (headerFields blk) (slice blk 4 (4 + size))
      else ((s.examined (headerFields blk).ssn).report (.block (headerFields blk).ssn index)).dropEntryIf
        fun key => key == (headerFields blk).ssn := by
  unfold State.receiveBlock
  simp only [examined_eq]
  rw [checkSequence_cfg]
  by_cases h : BlockPasses s.cfg.crc size blk
  · rw [if_pos h, if_pos ((blockOk_iff _ _ _).mpr h)]; rfl
  · rw [if_neg h, if_neg (fun hk => h ((blockOk_iff _ _ _).mp hk))]

/-! ## The block errors are not read -/

/-- The block-error list replaced. -/
def State.withErrors (s : State) (errs : List Bool) : State := { s with rxBlockErrors := errs }

theorem withErrors_deliver (s : State) (errs : List Bool) (f : Bytes) :
    (s.withErrors errs).deliver f = (s.deliver f).withErrors errs := by
  show (match macDecode s.cfg f with | .ok (p, false) => _ | .ok (p, true) => _ | .error r => _) = _
  unfold State.deliver
  cases macDecode s.cfg f with
  | error r => rfl
  | ok pm =>
    obtain ⟨p, m⟩ := pm
    cases m <;> rfl

theorem withErrors_dropEntryIf (s : State) (errs : List Bool) (p : BitVec 16 → Bool) :
    (s.withErrors errs).dropEntryIf p = (s.dropEntryIf p).withErrors errs := by
  show (match s.entry with | none => _ | some e => _) = _
  unfold State.dropEntryIf
  cases s.entry with
  | none => rfl
  | some e =>
    simp only
    by_cases h : p e.key = true
    · rw [if_pos h, if_pos h]; rfl
    · rw [if_neg h, if_neg h]

theorem withErrors_continueEntry (s : State) (errs : List Bool) (ssn : BitVec 16) (b : Bool) (region : Bytes) :
    (s.withErrors errs).continueEntry ssn b region = (s.continueEntry ssn b region).withErrors errs := by
  show (match s.entry with | none => _ | some e => _) = _
  unfold State.continueEntry
  cases s.entry with
  | none => rfl
  | some e =>
    have hc : (s.withErrors errs).cfg = s.cfg := rfl
    simp only [hc]
    cases expectedLength s.cfg.mfhTypeAtLsb (e.data ++ region) with
    | none => rfl
    | some t =>
      simp only
      by_cases h : t ≤ (e.data ++ region).length
      · rw [if_pos h, if_pos h, withErrors_deliver]; rfl
      · rw [if_neg h, if_neg h]; rfl

theorem withErrors_scanFrames (key : BitVec 16) (errs : List Bool) (fuel : Nat) (b : Bytes) (s : State) :
    scanFrames key fuel b (s.withErrors errs) = (scanFrames key fuel b s).withErrors errs := by
  induction fuel generalizing b s with
  | zero => rfl
  | succ fuel ih =>
    match b with
    | [] => rfl
    | [b] => rfl
    | b0 :: b1 :: r =>
      unfold scanFrames
      have hc : (s.withErrors errs).cfg = s.cfg := rfl
      simp only [hc]
      split
      · rfl
      · split
        · rw [withErrors_deliver, ih]
        · rfl

theorem withErrors_receiveBody (s : State) (errs : List Bool) (h : BlockHeader) (body : Bytes) :
    (s.withErrors errs).receiveBody h body = (s.receiveBody h body).withErrors errs := by
  unfold State.receiveBody
  simp only
  split
  · rfl
  · rw [withErrors_dropEntryIf, withErrors_continueEntry]
    split
    · rw [withErrors_scanFrames]
    · rfl

theorem withErrors_receiveBlock (s : State) (errs : List Bool) (size index : Nat) (blk : Bytes) :
    (s.withErrors errs).receiveBlock size index blk = (s.receiveBlock size index blk).withErrors errs := by
  rw [receiveBlock_eq, receiveBlock_eq]
  have hx : (s.withErrors errs).examined (headerFields blk).ssn
      = (s.examined (headerFields blk).ssn).withErrors errs := rfl
  have hc : (s.withErrors errs).cfg = s.cfg := rfl
  rw [hx, hc]
  split
  · exact withErrors_receiveBody _ _ _ _
  · rw [← withErrors_dropEntryIf]
    rfl

/-! ## The blocks of a burst -/

theorem chunks_append (size n : Nat) {a b : Bytes} (ha : a.length = n * size) (hb : b.length = size) :
    chunks size (n + 1) (a ++ b) = chunks size n a ++ [b] := by
  induction n generalizing a with
  | zero =>
    have : a = [] := List.length_eq_zero_iff.mp (by simpa using ha)
    subst this
    simp [chunks, ← hb]
  | succ n ih =>
    have hle : size ≤ a.length := by rw [ha, Nat.add_mul]; omega
    rw [chunks, List.take_append_of_le_length hle, List.drop_append_of_le_length hle,
      ih (by rw [List.length_drop, ha, Nat.add_mul]; omega)]
    rfl

theorem receiveBlocks_append (size index : Nat) (xs ys : List Bytes) (s : State) :
    State.receiveBlocks size index (xs ++ ys) s
      = State.receiveBlocks size (index + xs.length) ys (State.receiveBlocks size index xs s) := by
  induction xs generalizing index s with
  | nil => rfl
  | cons x xs ih =>
    simp only [List.cons_append, State.receiveBlocks, ih, List.length_cons]
    congr 1
    omega

/-- PHY-RXSOF in `WaitingForSof` (46_arq_fsm.md R304). -/
theorem exec_phyRxSof {s : State} (h : s.fsm = .waitingForSof) (burst : Bytes) :
    exec (.phyRxSof burst) s = .next (s.reassemble burst) := by
  simp [exec, execPhyRxSof, h]

/-- A received burst is its blocks in order, and its error list. -/
theorem reassemble_eq (s : State) (burst : Bytes) :
    s.reassemble burst = (State.receiveBlocks (burstBodySize burst.length) 0 (burstBlocks burst) s).withErrors
      (burstErrors s.cfg.crc burst) := rfl

@[simp] theorem withErrors_rxBlockErrors (s : State) (errs : List Bool) : (s.withErrors errs).rxBlockErrors = errs :=
  rfl

@[simp] theorem withErrors_withErrors (s : State) (e1 e2 : List Bool) :
    (s.withErrors e1).withErrors e2 = s.withErrors e2 := rfl

theorem burstBlocks_of_size {burst : Bytes} {size n : Nat} (hs : burstBodySize burst.length = size)
    (hn : burst.length = n * (size + 8)) : burstBlocks burst = chunks (size + 8) n burst := by
  simp only [burstBlocks, hs]
  have : burst.length / (size + blockOverhead) = n := by
    rw [hn]; exact Nat.mul_div_cancel n (by omega)
  rw [this]
  rfl

theorem burstBlocks_nil : burstBlocks [] = [] := by simp [burstBlocks, chunks]

theorem receiveBlocks_of_size (s : State) {b : Bytes} {size n : Nat} (hn : b.length = n * (size + 8))
    (hb : n = 0 ∨ burstBodySize b.length = size) :
    State.receiveBlocks (burstBodySize b.length) 0 (burstBlocks b) s
        = State.receiveBlocks size 0 (chunks (size + 8) n b) s ∧
      burstErrors s.cfg.crc b = (chunks (size + 8) n b).map fun x => !blockOk s.cfg.crc size x := by
  rcases hb with rfl | hb
  · have : b = [] := List.length_eq_zero_iff.mp (by simpa using hn)
    subst this
    rw [burstErrors, burstBlocks_nil, chunks]
    simp only [State.receiveBlocks, List.map_nil, and_self]
  · rw [burstErrors, burstBlocks_of_size hb hn, hb]
    exact ⟨rfl, rfl⟩

/-- Receiving a burst is receiving the blocks before its last one, then that one (R230). -/
theorem lastBlock_received {s u : State} {burst blk : Bytes} {size index : Nat} (hf : s.fsm = .waitingForSof)
    (h : LastBlock s u burst blk size index) :
    u.cfg = s.cfg ∧ exec (.phyRxSof burst) s
      = .next ((u.receiveBlock size index blk).withErrors
          (u.rxBlockErrors ++ [!blockOk s.cfg.crc size blk])) := by
  obtain ⟨before, rfl, hl, hcase, hu⟩ := h
  rw [exec_phyRxSof hf] at hu
  injection hu with hu
  have hsize : ∃ n, before.length = n * (size + 8) ∧ index = n ∧
      burstBodySize (before ++ blk).length = size ∧ (n = 0 ∨ burstBodySize before.length = size) := by
    rcases hcase with ⟨rfl, rfl, rfl⟩ | ⟨rfl, hb⟩
    · exact ⟨0, by simp, rfl, by simp [burstBodySize, hl, bodyShort, blockOverhead, blockHdrLen, blockCheckLen],
        .inl rfl⟩
    · refine ⟨index, hb, rfl, ?_, ?_⟩
      · simp only [burstBodySize, List.length_append, hl, bodyShort, bodyLong, blockOverhead, blockHdrLen,
          blockCheckLen]
        rw [if_pos (by omega)]
      · rcases Nat.eq_zero_or_pos index with h0 | h0
        · exact .inl h0
        · refine .inr ?_
          simp only [burstBodySize, hb, bodyShort, bodyLong, blockOverhead, blockHdrLen, blockCheckLen]
          rw [if_pos (by omega)]
  obtain ⟨n, hn, rfl, hsz, hbef⟩ := hsize
  have hblocks : burstBlocks (before ++ blk) = chunks (size + 8) index before ++ [blk] := by
    rw [burstBlocks_of_size hsz (n := index + 1) (by rw [List.length_append, hn, hl, Nat.add_mul]; omega),
      chunks_append _ _ hn hl]
  obtain ⟨hrec, herr⟩ := receiveBlocks_of_size s hn hbef
  have hu' : u = (State.receiveBlocks size 0 (chunks (size + 8) index before) s).withErrors
      ((chunks (size + 8) index before).map fun b => !blockOk s.cfg.crc size b) := by
    rw [← hu, ← hrec, ← herr, reassemble_eq]
  refine ⟨?_, ?_⟩
  · obtain ⟨_, _, _, _, _, -, hr⟩ := reassemble_change s before
    rw [← hu, hr]
  · rw [exec_phyRxSof hf]
    congr 1
    rw [reassemble_eq, hsz, hblocks, receiveBlocks_append, chunks_length, Nat.zero_add, hu',
      withErrors_receiveBlock, burstErrors, hblocks, hsz, List.map_append]
    simp only [State.receiveBlocks, withErrors_rxBlockErrors, withErrors_withErrors, List.map_cons, List.map_nil]

end Sys2Proof.Machine
end

