-- ==== Sys2Proof/Laws/Sack.lean ====
section
/-! SUPPORT. The bits the SACK encoder writes and everything the SACK decoder answers (45_sack.md). -/

namespace Sys2Proof.Machine

@[simp] theorem writeFlags_length (buf : Bytes) (p : Nat) (es : List Bool) :
    (writeFlags buf p es).length = buf.length := by
  induction es generalizing buf p with
  | nil => rfl
  | cons e es ih => rw [writeFlags, ih, writeBits_length]

/-- Each flag is one bit, and no other bit changes (R270, R271). -/
theorem bitAt_writeFlags {buf : Bytes} {p : Nat} {es : List Bool} (h : p + es.length ≤ 8 * buf.length) (q : Nat) :
    bitAt (writeFlags buf p es) q = if p ≤ q then es.getD (q - p) (bitAt buf q) else bitAt buf q := by
  induction es generalizing buf p with
  | nil => simp [writeFlags]
  | cons e es ih =>
    simp only [List.length_cons] at h
    rw [writeFlags, ih (by rw [writeBits_length]; omega), bitAt_writeBits _ (by omega)]
    rcases Nat.lt_trichotomy q p with hq | hq | hq
    · simp [show ¬ p ≤ q by omega, show ¬ p + 1 ≤ q by omega]
    · subst hq
      cases e <;> simp
    · obtain ⟨d, rfl⟩ : ∃ d, q = p + 1 + d := ⟨q - (p + 1), by omega⟩
      have h1 : ¬ (p ≤ p + 1 + d ∧ p + 1 + d < p + 1) := by omega
      have h2 : p + 1 + d - (p + 1) = d := by omega
      have h3 : p + 1 + d - p = d + 1 := by omega
      rw [if_neg h1, if_pos (by omega), if_pos (by omega), h2, h3, List.getD_cons_succ]

@[simp] theorem sackEncode_length (errs : List Bool) :
    (sackEncode errs).length = 1 + (errs.length + 7) / 8 := by
  simp [sackEncode, bitmapLength]

/-- The bits of a SACK: the tag, the flags, and zeros (R270 to R272, R274). -/
theorem bitAt_sackEncode (errs : List Bool) (q : Nat) :
    bitAt (sackEncode errs) q = if q < 8 then (0x15).testBit q else errs.getD (q - 8) false := by
  have hl : 8 ≤ 8 * (zeros (1 + bitmapLength errs.length)).length := by rw [zeros_length]; omega
  unfold sackEncode
  rw [bitAt_writeFlags (by rw [writeBits_length, zeros_length, bitmapLength]; omega), bitAt_writeBits _ (by omega)]
  by_cases h : q < 8
  · simp [h, show ¬ 8 ≤ q by omega, sackTag]
  · simp [h, show 8 ≤ q by omega]

theorem readBits_one (b : Bytes) (o : Nat) : readBits b o 1 = (bitAt b o).toNat := by
  simp only [readBits, Nat.add_zero, Nat.zero_add]
  cases bitAt b o <;> rfl

/-- The count is the number of flags set (R273). -/
theorem countFlags_eq (s : Bytes) (n : Nat) :
    countFlags s n = ((List.range n).countP fun i => bitAt s (8 + i)) := by
  induction n with
  | zero => rfl
  | succ n ih =>
    rw [countFlags, ih, readBits_one, List.range_succ, List.countP_append]
    simp only [List.countP_cons, List.countP_nil, Nat.zero_add]
    cases bitAt s (8 + n) <;> rfl

theorem countFlags_le (s : Bytes) (n : Nat) : countFlags s n ≤ n := by
  rw [countFlags_eq]
  exact le_trans List.countP_le_length (by simp)

/-- Everything the decoder can answer (R273 to R275). -/
theorem sackDecode_cases (s : Bytes) (n : Nat) :
    ((s = [] ∨ readBits s 0 8 ≠ 0x15) ∧ sackDecode s n = .error (.badSackTag s.head?)) ∨
    (s ≠ [] ∧ readBits s 0 8 = 0x15 ∧ s.length < 1 + (n + 7) / 8 ∧
      sackDecode s n = .error (.shortSack s.length n)) ∨
    (s ≠ [] ∧ readBits s 0 8 = 0x15 ∧ 1 + (n + 7) / 8 ≤ s.length ∧ sackDecode s n = .ok (countFlags s n)) := by
  unfold sackDecode
  by_cases h1 : s.length < 1 ∨ readBits s 0 8 ≠ sackTag
  · rw [if_pos h1]
    refine .inl ⟨?_, rfl⟩
    rcases h1 with h | h
    · exact .inl (List.length_eq_zero_iff.mp (by omega))
    · exact .inr h
  · rw [if_neg h1]
    have h2 : s ≠ [] := fun h => h1 (.inl (by rw [h]; decide))
    have h3 : readBits s 0 8 = 0x15 := by
      by_contra h
      exact h1 (.inr h)
    by_cases h4 : s.length < 1 + bitmapLength n
    · rw [if_pos h4]; exact .inr (.inl ⟨h2, h3, h4, rfl⟩)
    · rw [if_neg h4]; exact .inr (.inr ⟨h2, h3, by rw [bitmapLength] at h4; omega, rfl⟩)

/-- The count of a well-formed SACK is at most the number of blocks. -/
theorem sackDecode_le {s : Bytes} {n e : Nat} (h : sackDecode s n = .ok e) : e ≤ n := by
  rcases sackDecode_cases s n with ⟨-, h'⟩ | ⟨-, -, -, h'⟩ | ⟨-, -, -, h'⟩ <;> rw [h'] at h
  · cases h
  · cases h
  · injection h with h; subst h; exact countFlags_le s n

/-- The reports of a decode change the counters and the report port, nothing else. -/
theorem reportAll_sackReports (s : State) (r : Except Report Nat) :
    s.reportAll (sackReports r) = { s with
      counters := match r with
        | .error e => s.counters.bump e
        | .ok _ => s.counters
      reports := s.reports ++ sackReports r } := by
  cases r with
  | error e => rfl
  | ok e =>
    by_cases h : e > 0 <;> simp [sackReports, h, State.reportAll, State.report, Counters.bump]

end Sys2Proof.Machine
end

