-- ==== Sys2Proof/Tests/Slice0.lean ====
section
/-! SUPPORT. The model's own tests: ill-formed terms, a written-out word for every row of the opcode table, one
or two small steps of each instruction with the results of spec/95_test_vectors.md or of the rule's own
example, and for every obligation with hypotheses a state and operands that meet them together. -/

namespace Sys2Proof.Tests

open Sys2Proof.Machine

set_option Elab.async false

/-! ## Helpers -/

/-- The next state of an outcome. -/
def nextOf (o : Host.Outcome State Fault Refusal) : Option State :=
  match o with
  | .next t => some t
  | .fault _ => none
  | .refused _ => none

theorem eq_next {o : Host.Outcome State Fault Refusal} {t : State} (h : nextOf o = some t) : o = .next t := by
  cases o <;> simp_all [nextOf]

/-- The next state of an outcome that has one. -/
def after (o : Host.Outcome State Fault Refusal) : State := (nextOf o).getD State.reset

/-- What a test looks at in the next state. -/
def look {α : Type} (i : Instr) (s : State) (f : State → α) : Option α := (nextOf (exec i s)).map f

/-- The address of the slave of 95_test_vectors.md; the master's is that of `Config.default`. -/
def addrS : Addr := ⟨0x02, 0, 0, 0, 0, 0x02⟩

def master : State := State.reset
def slave : State := State.resetOf { Config.default with role := .slave, localAddr := addrS }

/-- The payload "hello". -/
def hello : Bytes := [0x68, 0x65, 0x6C, 0x6C, 0x6F]

/-- The 25-byte frame of 42_mac_frame.md R160 (V3.1). -/
def helloFrame : Bytes :=
  [0x12, 0x40, 0x02, 0x00, 0x00, 0x00, 0x00, 0x02, 0x02, 0x00, 0x00, 0x00, 0x00, 0x01, 0x00, 0x00,
   0x68, 0x65, 0x6C, 0x6C, 0x6F, 0x7D, 0xEF, 0x16, 0x13]

/-- The 27-byte management frame V3.3. -/
def mgmtFrame : Bytes :=
  [0x14, 0xC0, 0x00, 0x00, 0x00, 0x00, 0x02, 0x00, 0x00, 0x00, 0x00, 0x02, 0x02, 0x00, 0x00, 0x00, 0x00, 0x01,
   0x00, 0x00, 0x01, 0x34, 0x12, 0x3F, 0x49, 0x62, 0xA3]

/-- The 136-byte burst V4.4. -/
def helloBurst : Bytes := [0x00, 0x00, 0x00, 0x0A] ++ helloFrame ++ zeros 103 ++ [0x38, 0x7B, 0x1F, 0x86]

/-- A slot for the slave's address with queued frames. -/
def slotOf (frames : List Bytes) : Stream :=
  { inUse := true, dest := addrS, nextSsn := 0, pendingFrames := frames, remainder := [] }

/-- The master with the "hello" frame queued. -/
def queuedMaster : State := { master with streams := [slotOf [helloFrame], Stream.free], inflight := 1 }

/-- The master in the SACK window of a burst of `n` blocks, the timer armed at generation 2 for time 510. -/
def sackWindow (n : BitVec 2) : State :=
  { queuedMaster with
    fsm := .waitingForSack, lastFrameBlockCount := n, timerArmed := true, timerGen := 2, timerDeadline := 510
    lastSoundTime := some 0, now := 510 }

/-- A delivered message. -/
def input (now : Nat) (port : Port) (bytes : Bytes) : Input := ⟨now, ⟨Confounder.zero, 0⟩, port, bytes⟩

/-! ## Ill-formed terms: one for each check -/

theorem test_wellFormed_fieldTooWide :
    (Instr.getField [0] 0 33).illFormed = some (.fieldTooWide 33) ∧ (Instr.getField [0] 0 32).illFormed = none ∧
    (Instr.setField [0] 1 0 33).wellFormed = false := by decide
theorem test_wellFormed_bodyLength :
    (Instr.blockBuild 0 0 false (zeros 127)).illFormed = some (.bodyLength 127) ∧
    (Instr.blockBuild 0 0 false (zeros 128)).illFormed = none := by decide +kernel
theorem test_wellFormed_numberTooLarge :
    (Instr.segment 4294967296).illFormed = some (.numberTooLarge 4294967296) ∧
    (Instr.segment 4294967295).illFormed = none ∧
    (Instr.sackDecode [] 4294967296).wellFormed = false ∧ (Instr.getBytes [] 4294967296 0).wellFormed = false ∧
    (Instr.getBytes [] 0 4294967296).wellFormed = false ∧ (Instr.setBytes [] [] 4294967296).wellFormed = false ∧
    (Instr.setField [] 0 4294967296 0).wellFormed = false ∧ (Instr.getField [] 4294967296 0).wellFormed = false := by
  decide
theorem test_wellFormed_stringTooLong (b : Bytes) (h : b.length = 4294967296) :
    (Instr.macEncode Addr.zero b none).illFormed = some (.stringTooLong 4294967296) := by
  simp [Instr.illFormed, Instr.checks, firstFailure, h]

/-! ## Decoding: a word of every row, from 30_encoding.md R91 to R108 -/

theorem test_decode_reset : decode .code [0x00] = .ok .reset := rfl
theorem test_decode_appSubmit :
    decode .code [0x01, 2, 0, 0, 0, 0, 2, 0x68] = .ok (.appSubmit addrS [0x68]) := rfl
theorem test_decode_mgmtSubmit :
    decode .code [0x02, 2, 0, 0, 0, 0, 2, 0x01, 0x34, 0x12] = .ok (.mgmtSubmit addrS [0x01, 0x34, 0x12]) := rfl
theorem test_decode_phyRxSof : decode .code [0x03, 7, 8] = .ok (.phyRxSof [7, 8]) := rfl
theorem test_decode_phyRxSack : decode .code [0x04, 0x15, 2] = .ok (.phyRxSack [0x15, 2]) := rfl
theorem test_decode_phyRxSound : decode .code [0x05] = .ok .phyRxSound := rfl
theorem test_decode_phyRxEnd : decode .code [0x06] = .ok .phyRxEnd := rfl
theorem test_decode_phyTxEnd : decode .code [0x07] = .ok .phyTxEnd := rfl
theorem test_decode_timerExpire : decode .code [0x08, 2, 1, 0, 0] = .ok (.timerExpire 0x102) := rfl
theorem test_decode_sof : decode .code [0x20, 7] = .ok (.sof [7]) := rfl
theorem test_decode_sound : decode .code [0x21] = .ok .sound := rfl
theorem test_decode_sack : decode .code [0x22, 0x15] = .ok (.sack [0x15]) := rfl
theorem test_decode_searchPpdu : decode .code [0x23] = .ok .searchPpdu := rfl
theorem test_decode_appRx : decode .code [0x24, 7] = .ok (.appRx [7]) := rfl
theorem test_decode_mgmtRx : decode .code [0x25, 7] = .ok (.mgmtRx [7]) := rfl
theorem test_decode_ready : decode .code [0x26] = .ok .ready := rfl
theorem test_decode_setField :
    decode .code [0x10, 1, 0, 0, 0, 0xAA, 0xFF, 1, 0, 0, 3, 0, 0, 0, 5, 0, 0, 0]
      = .ok (.setField [0xAA] 0x1FF 3 5) := rfl
theorem test_decode_getField :
    decode .code [0x11, 2, 0, 0, 0, 0xAA, 0xBB, 3, 0, 0, 0, 5, 0, 0, 0] = .ok (.getField [0xAA, 0xBB] 3 5) := rfl
theorem test_decode_setBytes :
    decode .code [0x12, 2, 0, 0, 0, 0xAA, 0xBB, 1, 0, 0, 0, 0xCC, 1, 0, 0, 0]
      = .ok (.setBytes [0xAA, 0xBB] [0xCC] 1) := rfl
theorem test_decode_getBytes :
    decode .code [0x13, 2, 0, 0, 0, 0xAA, 0xBB, 1, 0, 0, 0, 1, 0, 0, 0] = .ok (.getBytes [0xAA, 0xBB] 1 1) := rfl
theorem test_decode_crc32 : decode .code [0x14, 0x61] = .ok (.crc32 [0x61]) := rfl
theorem test_decode_macEncode :
    decode .code [0x15, 2, 0, 0, 0, 0, 2, 1, 0, 0, 0, 0x78, 0] = .ok (.macEncode addrS [0x78] none) ∧
    decode .code [0x15, 2, 0, 0, 0, 0, 2, 1, 0, 0, 0, 0x78, 1, 9, 8, 7, 6]
      = .ok (.macEncode addrS [0x78] (some ⟨9, 8, 7, 6⟩)) := ⟨rfl, rfl⟩
theorem test_decode_macDecode : decode .code [0x16, 0x12] = .ok (.macDecode [0x12]) := rfl
theorem test_decode_segment : decode .code [0x17, 3, 0, 0, 0] = .ok (.segment 3) := rfl
theorem test_decode_reassemble : decode .code [0x18, 7] = .ok (.reassemble [7]) := rfl
theorem test_decode_sackEncode : decode .code [0x19, 0, 1] = .ok (.sackEncode [false, true]) := rfl
theorem test_decode_sackDecode :
    decode .code [0x1A, 2, 0, 0, 0, 0x15, 2, 3, 0, 0, 0] = .ok (.sackDecode [0x15, 2] 3) := rfl
theorem test_decode_blockBuild :
    (decode .code ([0x1B, 0x34, 0x12, 1, 0, 0xFF, 1, 1] ++ zeros 128)).toOption
      = some (.blockBuild 0x11234 511 true (zeros 128)) := by decide +kernel
theorem test_decode_mfhData : decode .mfh helloFrame = .ok (.mfhData 18 (helloFrame.drop 2)) := rfl
theorem test_decode_mfhMgmt : decode .mfh mgmtFrame = .ok (.mfhMgmt 20 (mgmtFrame.drop 2)) := rfl
theorem test_decode_mfhPad : decode .mfh [0xFF, 0x3F, 7] = .ok (.mfhPad 16383 [7]) := rfl
theorem test_decode_mfhReserved : decode .mfh [0x01, 0x80] = .ok (.mfhReserved 1 []) := rfl
theorem test_decode_sackPayload : decode .sack [0x15, 0x02] = .ok (.sackPayload [0x02]) := rfl
theorem test_decode_phyBlockHeader :
    decode .blockHeader [0x07, 0x00, 0x05, 0x1E, 0xAA] = .ok (.phyBlockHeader
      { ssn := 7, macBoundaryOffset := 5, valid := true, mgmtQueueFlag := true
        macBoundaryFlag := true, oldestSsnFlag := true, reserved := 0 } [0xAA]) := rfl

/-! ## Input events -/

/-- The example of 46_arq_fsm.md R293: READY, then the first sound. -/
theorem test_appSubmit_starts_with_a_sound :
    look (.appSubmit addrS hello) master (fun t => (t.outputs, t.fsm, t.inflight))
      = some ([.ready, .sound], .sendingSofOrSound, 1) := by decide +kernel
/-- The tenth frame is accepted, sets `full` and emits no READY (47_txqueue_mgmt_interface.md R341). -/
theorem test_appSubmit_tenth_frame :
    look (.appSubmit addrS hello) { sackWindow 1 with inflight := 9 } (fun t => (t.outputs, t.full, t.inflight))
      = some ([], true, 10) := by decide +kernel
/-- The example of 46_arq_fsm.md R294. -/
theorem test_mgmtSubmit_only_enqueues :
    look (.mgmtSubmit addrS [0x01, 0x34, 0x12]) master (fun t => (t.outputs, t.fsm, t.inflight))
      = some ([.ready], .waitingForApp, 1) := by decide +kernel
/-- V3.3 as it stands in the queue. -/
theorem test_mgmtSubmit_queues_the_frame :
    look (.mgmtSubmit addrS [0x01, 0x34, 0x12]) master (fun t => t.streams.head?)
      = some (some (slotOf [mgmtFrame])) := by decide +kernel
/-- V5.1. -/
theorem test_phyRxSof_delivers :
    look (.phyRxSof helloBurst) slave (fun t => (t.outputs, t.rxBlockErrors, t.lastReceivedSsn, t.entry))
      = some ([.appRx hello], [false], some 0, none) := by decide +kernel
/-- A burst at a master is ignored (46_arq_fsm.md R310). -/
theorem test_phyRxSof_at_a_master : look (.phyRxSof helloBurst) master id = some master := by decide +kernel
/-- The example of 46_arq_fsm.md R297. -/
theorem test_phyRxSack_counts :
    look (.phyRxSack [0x15, 0x02]) (sackWindow 2) (fun t => (t.lastSackErrored, t.timerArmed, t.reports))
      = some (1, false, [.sackResult 1]) := by decide +kernel
/-- A malformed SACK still cancels the timer (46_arq_fsm.md R297). -/
theorem test_phyRxSack_malformed :
    look (.phyRxSack [0x14, 0x00]) (sackWindow 2) (fun t => (t.timerArmed, t.counters.format, t.reports))
      = some (false, 1, [.badSackTag (some 0x14)]) := by decide +kernel
theorem test_phyRxSound_clears :
    look .phyRxSound { slave with rxBlockErrors := [true] } (·.rxBlockErrors) = some [] := by decide +kernel
/-- The example of 46_arq_fsm.md R298. -/
theorem test_phyRxEnd_sends_the_burst :
    look .phyRxEnd { sackWindow 0 with now := 21 } (fun t => (t.outputs, t.timerArmed, t.lastFrameBlockCount))
      = some ([.sof 0 0 helloBurst, .searchPpdu], false, 1) := by decide +kernel
/-- The example of 46_arq_fsm.md R299. -/
theorem test_phyRxEnd_answers_with_a_sack :
    look .phyRxEnd { slave with rxBlockErrors := [false] } (fun t => (t.outputs, t.fsm, t.rxBlockErrors))
      = some ([.sack [0x15, 0x00], .searchPpdu], .sendingSack, []) := by decide +kernel
/-- The example of 46_arq_fsm.md R295. -/
theorem test_phyTxEnd_arms_the_timer :
    look .phyTxEnd { master with fsm := .sendingSofOrSound, now := 5 }
      (fun t => (t.timerArmed, t.timerGen, t.timerDeadline, t.fsm)) = some (true, 1, 505, .waitingForSack) := by
  decide +kernel
theorem test_phyTxEnd_after_a_sack :
    look .phyTxEnd { slave with fsm := .sendingSack } (fun t => (t.fsm, t.timerArmed))
      = some (.waitingForSof, false) := by decide +kernel
/-- A valid expiry counts the burst as lost and sends on (46_arq_fsm.md R306); no search-ppdu. -/
theorem test_timerExpire_resends :
    look (.timerExpire 2) (sackWindow 3) (fun t => (t.lastSackErrored, t.counters.timeout, t.outputs))
      = some (3, 1, [.sof 0 0 helloBurst]) := by decide +kernel
/-- One tick before the deadline the expiry is stale (46_arq_fsm.md R307). -/
theorem test_timerExpire_early :
    look (.timerExpire 2) { sackWindow 3 with now := 509 } id = some { sackWindow 3 with now := 509 } := by
  decide +kernel
theorem test_reset_clears :
    look .reset { sackWindow 3 with entry := some ⟨1, [2]⟩, full := true } (fun t => (t.fsm, t.entry, t.inflight))
      = some (.waitingForApp, none, 0) := by decide +kernel

/-! ## Output events -/

theorem test_sof : look (.sof [7]) master (·.outputs) = some [.sof 0 0 [7]] := by decide +kernel
theorem test_sound : look .sound master (·.outputs) = some [.sound] := by decide +kernel
theorem test_sack : look (.sack [0x15]) slave (·.outputs) = some [.sack [0x15]] := by decide +kernel
theorem test_searchPpdu : look .searchPpdu master (·.outputs) = some [.searchPpdu] := by decide +kernel
theorem test_appRx : look (.appRx hello) slave (·.outputs) = some [.appRx hello] := by decide +kernel
theorem test_mgmtRx : look (.mgmtRx [1]) slave (·.outputs) = some [.mgmtRx [1]] := by decide +kernel
theorem test_ready : look .ready master (·.outputs) = some [.ready] := by decide +kernel

/-! ## Datapath operations -/

/-- V1.1 and V1.2. -/
theorem test_setField :
    look (.setField (zeros 4) 0x1FF 3 9) master (·.result) = some (.buffer [0xF8, 0x0F, 0, 0] 12) ∧
    look (.setField [0xFF, 0xFF, 0xFF, 0xFF] 0 3 9) master (·.result)
      = some (.buffer [0x07, 0xF0, 0xFF, 0xFF] 12) := by decide +kernel
/-- V1.10. -/
theorem test_setField_bounds :
    look (.setField [0, 0] 1 16 1) master (fun t => (t.result, t.boundsFault)) = some (.none, some ⟨16, 1, 2⟩) := by
  decide +kernel
/-- V1.3 and V1.6. -/
theorem test_getField :
    look (.getField [0x5A, 0xC3, 0x0F] 4 12) master (·.result) = some (.value 0xC35) ∧
    look (.getField [0x78, 0x56, 0x34, 0x12] 0 32) master (·.result) = some (.value 0x12345678) := by decide +kernel
/-- V1.9. -/
theorem test_getField_bounds :
    look (.getField [0, 0] 10 8) master (fun t => (t.result, t.boundsFault)) = some (.none, some ⟨10, 8, 2⟩) := by
  decide +kernel
/-- The example of 40_bitfield.md R132. -/
theorem test_setBytes :
    look (.setBytes (zeros 8) [2, 0, 0, 0, 0, 1] 2) master (·.result) = some (.buffer [0, 0, 2, 0, 0, 0, 0, 1] 8) := by
  decide +kernel
/-- The example of 40_bitfield.md R133. -/
theorem test_getBytes :
    look (.getBytes [0, 0, 2, 0, 0, 0, 0, 1] 2 6) master (·.result) = some (.bytes [2, 0, 0, 0, 0, 1]) := by
  decide +kernel
/-- V2.2. -/
theorem test_crc32 :
    look (.crc32 [0x31, 0x32, 0x33, 0x34, 0x35, 0x36, 0x37, 0x38, 0x39]) master (·.result)
      = some (.value 0xCBF43926) := by decide +kernel
/-- V3.1 and V3.3. -/
theorem test_macEncode :
    look (.macEncode addrS hello none) master (·.result) = some (.frame (some helloFrame)) ∧
    look (.macEncode addrS [0x01, 0x34, 0x12] (some Confounder.zero)) master (·.result)
      = some (.frame (some mgmtFrame)) := by decide +kernel
/-- V3.4 and V3.5. -/
theorem test_macDecode :
    look (.macDecode helloFrame) slave (·.result) = some (.payload (some (hello, false))) ∧
    look (.macDecode mgmtFrame) slave (·.result) = some (.payload (some ([0x01, 0x34, 0x12], true))) := by
  decide +kernel
/-- V3.9 and V3.10. -/
theorem test_macDecode_lengths :
    look (.macDecode (helloFrame ++ [0])) slave (·.reports) = some [.badLength 25 26] ∧
    look (.macDecode [0x12]) slave (·.reports) = some [.shortFrame 1] := by decide +kernel
/-- V4.4. -/
theorem test_segment :
    look (.segment 0) queuedMaster (fun t => (t.result, t.streams.head?.map Stream.nextSsn))
      = some (.burst helloBurst 1 1, some 1) := by decide +kernel
/-- V4.6 and V4.11: 128 pending bytes take a long body, and the counter wraps. -/
theorem test_segment_long :
    look (.segment 0) { master with streams := [{ slotOf [zeros 128] with nextSsn := 65535 }] }
      (fun t => match t.result with
        | .burst b n k => (b.length, n, k, t.streams.head?.map Stream.nextSsn)
        | _ => (0, 0, 0, none)) = some (520, 1, 1, some 0) := by decide +kernel
/-- V5.2. -/
theorem test_reassemble_gap :
    look (.reassemble helloBurst) { slave with lastReceivedSsn := some 5 }
      (fun t => (t.outputs, t.reports, t.result))
      = some ([.appRx hello], [.gap 6 0], .blockErrors [false]) := by decide +kernel
/-- V5.4 on a short block: one flipped body bit. -/
theorem test_reassemble_failed_block :
    look (.reassemble (helloBurst.set 14 0xFF)) slave (fun t => (t.outputs, t.reports, t.result))
      = some ([], [.block 0 0], .blockErrors [true]) := by decide +kernel
/-- The example of 45_sack.md R270, and `n = 9`. -/
theorem test_sackEncode :
    look (.sackEncode [false, true, false]) slave (·.result) = some (.bytes [0x15, 0x02]) ∧
    look (.sackEncode (List.replicate 8 false ++ [true])) slave (·.result) = some (.bytes [0x15, 0x00, 0x01]) := by
  decide +kernel
/-- The examples of 45_sack.md R273, and a SACK too short for its blocks. -/
theorem test_sackDecode :
    look (.sackDecode [0x15, 0xFF] 3) master (·.result) = some (.count (some 3)) ∧
    look (.sackDecode [0x15, 0x02] 2) master (·.result) = some (.count (some 1)) ∧
    look (.sackDecode [0x15] 3) master (·.reports) = some [.shortSack 1 3] := by decide +kernel
/-- The header and the check of V4.4. -/
theorem test_blockBuild :
    look (.blockBuild 0 0 true (helloFrame ++ zeros 103)) master (·.result) = some (.bytes helloBurst) := by
  decide +kernel
/-- V4.3, and the last counter value of 43_segmenter.md R203, 65635, whose low 16 bits are 99. -/
theorem test_blockBuild_header :
    look (.blockBuild 0x1234 511 true (zeros 512)) master
      (fun t => match t.result with
        | .bytes b => b.take 4
        | _ => []) = some [0x34, 0x12, 0xFF, 0x0B] ∧
    look (.blockBuild 65635 0 false (zeros 128)) master
      (fun t => match t.result with
        | .bytes b => b.take 4
        | _ => []) = some [0x63, 0x00, 0x00, 0x02] := by decide +kernel

/-! ## Wire tags -/

theorem test_mfhData : look (.mfhData 18 (helloFrame.drop 2)) slave (·.outputs) = some [.appRx hello] := by
  decide +kernel
theorem test_mfhMgmt :
    look (.mfhMgmt 20 (mgmtFrame.drop 2)) slave (·.outputs) = some [.mgmtRx [0x01, 0x34, 0x12]] := by decide +kernel
/-- V3.8. -/
theorem test_mfhPad : look (.mfhPad 18 (helloFrame.drop 2)) slave (·.reports) = some [.badType 0] := by decide +kernel
/-- V3.7. -/
theorem test_mfhReserved : look (.mfhReserved 18 (helloFrame.drop 2)) slave (·.reports) = some [.badType 2] := by
  decide +kernel
theorem test_sackPayload :
    look (.sackPayload [0x02]) (sackWindow 2) (fun t => (t.result, t.reports))
      = some (.count (some 1), [.sackResult 1]) := by decide +kernel
theorem test_phyBlockHeader :
    look (.phyBlockHeader (headerFields helloBurst) (helloBurst.drop 4)) slave (·.outputs)
      = some [.appRx hello] := by decide +kernel

/-! ## The step and the opcode table -/

/-- A table word is the first instruction to run from reset. -/
theorem test_step_runs_a_table_word :
    (nextOf (step (State.reset.withFetchWord 8 0x26))).map (·.outputs) = some [.ready] := by decide +kernel
theorem test_step_waits : nextOf (step State.reset) = some State.reset := by decide +kernel

/-! ## Witnesses: for each obligation with hypotheses, states and operands that meet them together

Where an obligation has several clauses, a witness stands at a boundary of each. -/

theorem zeros_len (n : Nat) : (zeros n).length = n := List.length_replicate

theorem test_witness_DecodeInvertsEncode :
    (Instr.setField [1] 1 0 32).wellFormed = true ∧ (Instr.blockBuild 0 511 true (zeros 512)).wellFormed = true ∧
    (Instr.segment 4294967295).wellFormed = true := by decide +kernel

theorem test_witness_DecodedMessageIsAnEncoding :
    decode .code [0x08, 2, 1, 0, 0] = .ok (.timerExpire 0x102) ∧ decode .mfh [0x12, 0x40] = .ok (.mfhData 18 []) ∧
    decode .sack [0x15] = .ok (.sackPayload []) := ⟨rfl, rfl, rfl⟩

/-- The first and the last code of each reserved range. -/
theorem test_witness_ReservedCodesAreRefused :
    ∀ c ∈ [0x09#8, 0x0F#8, 0x1C#8, 0x1F#8, 0x27#8, 0x2F#8],
      { master with inbox := [input 0 .code [c]] }.inbox = input 0 .code [c] :: [] ∧
      master.now ≤ (input 0 .code [c]).now ∧ (input 0 .code [c]).port = .code ∧
      (input 0 .code [c]).bytes = c :: [] ∧
      ((0x09 ≤ c.toNat ∧ c.toNat ≤ 0x0F) ∨ (0x1C ≤ c.toNat ∧ c.toNat ≤ 0x1F) ∨
        (0x27 ≤ c.toNat ∧ c.toNat ≤ 0x2F)) := by decide

theorem test_witness_StepRunsTheDecodedInstruction :
    { master with inbox := [input 0 .code [0x07]] }.inbox = input 0 .code [0x07] :: [] ∧
    master.now ≤ (input 0 .code [0x07]).now ∧
    decode (input 0 .code [0x07]).port (input 0 .code [0x07]).bytes = .ok .phyTxEnd := ⟨rfl, by decide, rfl⟩

theorem test_witness_StepWithoutAnInstruction :
    master.inbox = [] ∧
    { master with inbox := [input 4 .code [0x30]], now := 5 }.inbox = input 4 .code [0x30] :: [] ∧
    (input 4 .code [0x30]).now < 5 ∧ 4 ≤ (input 4 .code [0x30]).now ∧
    decode .code [0x30] = .error (.unassignedCode 0x30) := ⟨rfl, rfl, by decide, by decide, rfl⟩

theorem test_witness_NothingWritesTheConfiguration :
    exec .reset master = .next (after (exec .reset master)) ∧ step master = .next (after (step master)) :=
  ⟨eq_next (by decide +kernel), eq_next (by decide +kernel)⟩

/-- The last field inside four bytes and the first outside, at the widest width. -/
theorem test_witness_SetFieldWritesTheFieldBits :
    32 ≤ 32 ∧ 8 * (zeros 4).length < 1 + 32 ∧ 0 + 32 ≤ 8 * (zeros 4).length := by decide

theorem test_witness_GetFieldReadsTheFieldBits :
    32 ≤ 32 ∧ 8 * (zeros 4).length < 1 + 32 ∧ 0 + 32 ≤ 8 * (zeros 4).length := by decide

/-- The last string inside eight bytes and the first outside, with the most bytes SETFIELD takes. -/
theorem test_witness_SetBytesWritesTheBytes :
    (zeros 8).length < 5 + (zeros 4).length ∧ 4 + (zeros 4).length ≤ (zeros 8).length ∧ (zeros 4).length ≤ 4 := by
  decide

theorem test_witness_GetBytesReadsTheBytes : (zeros 8).length < 3 + 6 ∧ 2 + 6 ≤ (zeros 8).length := by decide

theorem test_witness_BoundsErrorEndsItsOperation :
    (1 ≤ 32 ∧ 8 * (zeros 2).length < 16 + 1) ∧ (zeros 2).length < 2 + [0#8].length ∧
    ((∀ buf v o w, Instr.phyTxEnd ≠ .setField buf v o w) ∧ (∀ buf o w, Instr.phyTxEnd ≠ .getField buf o w) ∧
      (∀ buf b k, Instr.phyTxEnd ≠ .setBytes buf b k) ∧ (∀ buf k n, Instr.phyTxEnd ≠ .getBytes buf k n) ∧
      exec .phyTxEnd master = .next master) :=
  ⟨by decide, by decide, by simp, by simp, by simp, by simp, eq_next (by decide +kernel)⟩

theorem test_witness_FieldWidthZeroAndAboveThirtyTwo :
    16 ≤ 8 * (zeros 2).length ∧ 8 * (zeros 2).length < 17 ∧ 32 < 33 := by decide

theorem test_witness_SetThenGetReturnsTheLowBits : 32 ≤ 32 ∧ 63 + 32 ≤ 8 * 12 := by decide

/-- A field with neighbours that touch it on both sides. -/
theorem test_witness_SettingAFieldLeavesTheOthers :
    9 ≤ 32 ∧ 3 + 9 ≤ 8 * (zeros 4).length ∧ (0 + 3 ≤ 3 ∨ 3 + 9 ≤ 0) ∧ (12 + 20 ≤ 3 ∨ 3 + 9 ≤ 12) ∧
    (2 < 3 ∨ 3 + 9 ≤ 2) ∧ (12 < 3 ∨ 3 + 9 ≤ 12) := by decide

theorem test_witness_CrcIsTheReflectedLoop : master.cfg.crc = CrcAlgo.isoHdlc := rfl

/-- The first and the last bit of the body, and the first and the last covered bit of a frame. -/
theorem test_witness_SingleBitErrorsAreDetected :
    (slave.cfg.crc = CrcAlgo.isoHdlc ∧ slave.fsm = .waitingForSof ∧
      exec (.phyRxSof helloBurst) slave = .next (after (exec (.phyRxSof helloBurst) slave)) ∧
      (after (exec (.phyRxSof helloBurst) slave)).rxBlockErrors[0]? = some false ∧
      0 < 8 * (if helloBurst.length > 136 then 512 else 128) ∧
      1023 < 8 * (if helloBurst.length > 136 then 512 else 128)) ∧
    exec (.macDecode helloFrame) slave = .next { slave with result := .payload (some (hello, false)) } ∧
    16 ≤ 16 ∧ 16 < 8 * (helloFrame.length - 4) ∧ 16 ≤ 167 ∧ 167 < 8 * (helloFrame.length - 4) :=
  ⟨⟨rfl, rfl, eq_next (by decide +kernel), by decide +kernel, by decide +kernel, by decide +kernel⟩,
    eq_next (by decide +kernel), by decide⟩

/-- The longest payloads of V3.11 and V3.13. -/
theorem test_witness_MacFrameLayout :
    (zeros 16370).length + (if (none : Option Confounder).isSome then 4 else 0) + 13 ≤ 16383 ∧
    (zeros 16366).length + (if (some Confounder.zero).isSome then 4 else 0) + 13 ≤ 16383 := by
  simp only [zeros_len]
  decide

theorem test_witness_MacDecodeInvertsEncode :
    slave.cfg.crc = master.cfg.crc ∧ slave.cfg.mfhTypeAtLsb = master.cfg.mfhTypeAtLsb ∧
    (zeros 16366).length + (if (some Confounder.zero).isSome then 4 else 0) + 13 ≤ 16383 := by
  simp only [zeros_len]
  decide

/-- The shortest payloads of V3.12 and V3.14. -/
theorem test_witness_FrameTooLongIsRefused :
    16384 = (zeros 16371).length + (if (none : Option Confounder).isSome then 4 else 0) + 13 ∧ 16383 < 16384 ∧
    master.full = false ∧ 16383 < (zeros 16371).length + 13 ∧ 16383 < (zeros 16367).length + 17 := by
  simp only [zeros_len]
  decide

theorem test_witness_MfhRowsReceiveTheirFrame : slave.cfg.mfhTypeAtLsb = false := rfl

/-- The last slot of the table and the first number beyond it, a counter at the end of its range. -/
theorem test_witness_SegmentCutsUpToThreeBlocks :
    master.streams[4]? = none ∧ master.streams[3]? = some Stream.free ∧
    { Stream.free with nextSsn := 65535 }.nextSsn.toNat < master.cfg.ssnMod.toNat := by decide

theorem test_witness_SegmentEmitsTheNextBytesInOrder : queuedMaster.streams[0]? = some (slotOf [helloFrame]) := rfl

/-- The first frame of a burst, and a frame that starts in its second block. -/
theorem test_witness_SegmentMarksTheFirstBoundary :
    queuedMaster.streams[0]? = some (slotOf [helloFrame]) ∧ (∀ f ∈ [helloFrame], f ≠ []) ∧
    (slotOf [helloFrame]).nextSsn.toNat < queuedMaster.cfg.ssnMod.toNat ∧
    (0 < [helloFrame].length ∧ 0 * 128 ≤ ((List.take 0 [helloFrame]).map List.length).sum ∧
      ((List.take 0 [helloFrame]).map List.length).sum < (0 + 1) * 128) ∧
    (1 < [zeros 600, helloFrame].length ∧ 1 * 512 ≤ ((List.take 1 [zeros 600, helloFrame]).map List.length).sum ∧
      ((List.take 1 [zeros 600, helloFrame]).map List.length).sum < (1 + 1) * 512 ∧
      ∀ m < 1, ((List.take m [zeros 600, helloFrame]).map List.length).sum < 1 * 512) := by
  refine ⟨rfl, by decide, by decide, by decide, by decide, ?_, ?_, ?_⟩
  · rw [List.take_one, List.head?_cons, Option.toList_some, List.map_singleton, List.sum_singleton, zeros_len]
    decide
  · rw [List.take_one, List.head?_cons, Option.toList_some, List.map_singleton, List.sum_singleton, zeros_len]
    decide
  · intro m hm
    obtain rfl : m = 0 := by omega
    decide

/-- A long block with a partial frame from its start on. -/
def longBlock : Bytes := blockBytes CrcAlgo.isoHdlc ⟨0, 0, true, false, true, false, 0⟩ ([0xFF, 0x7F] ++ zeros 510)

/-- A burst of whole blocks, a long one with trailing bytes, and one of 137 bytes, which has no whole block. -/
theorem test_witness_ReceivedBurstIsCheckedBlockByBlock :
    slave.fsm = .waitingForSof ∧ 0 < helloBurst.length / (128 + 8) ∧
    (longBlock ++ zeros 5).take ((longBlock ++ zeros 5).length / (512 + 8) * (512 + 8)) = longBlock ∧
    (helloBurst ++ [0]).take ((helloBurst ++ [0]).length / (512 + 8) * (512 + 8)) = [] ∧
    encode (.phyBlockHeader (headerFields helloBurst) (helloBurst.drop 4)) = helloBurst :=
  ⟨rfl, by decide +kernel, by decide +kernel, by decide +kernel, by decide +kernel⟩

/-- A block of a short burst that fails its check. -/
def failedShort : Bytes := helloBurst.set 14 0xFF
/-- What `burst` leaves at the slave. -/
def received (burst : Bytes) : State := after (exec (.phyRxSof burst) slave)

/-- A short burst is its one block, the last of it (the first clause of `LastBlock`). -/
theorem lastBlock_short {blk : Bytes} (h : blk.length = 136) : LastBlock slave (received []) blk blk 128 0 :=
  ⟨[], rfl, h, .inl ⟨rfl, rfl, rfl⟩, eq_next (by decide +kernel)⟩

/-- A long block after `longBlock` is the second and last one of its burst (the second clause). -/
theorem lastBlock_long {blk : Bytes} (h : blk.length = 520) :
    LastBlock slave (received longBlock) (longBlock ++ blk) blk 512 1 :=
  ⟨longBlock, rfl, h, .inr ⟨rfl, by decide +kernel⟩, eq_next (by decide +kernel)⟩

/-- A long block alone is the first one of its burst. -/
theorem lastBlock_long_first {blk : Bytes} (h : blk.length = 520) : LastBlock slave (received []) blk blk 512 0 :=
  ⟨[], rfl, h, .inr ⟨rfl, rfl⟩, eq_next (by decide +kernel)⟩

/-- A failed block with no entry, and one the entry waits for (its number is 1, then 9). -/
theorem test_witness_FailedBlockContributesNothing :
    slave.fsm = .waitingForSof ∧
    (LastBlock slave (received []) failedShort failedShort 128 0 ∧
      ¬ BlockPasses slave.cfg.crc 128 failedShort) ∧
    (LastBlock slave (received longBlock) (longBlock ++ (1 :: zeros 519)) (1 :: zeros 519) 512 1 ∧
      ¬ BlockPasses slave.cfg.crc 512 (1 :: zeros 519) ∧
      (received longBlock).entry.map Entry.key = some (headerFields (1 :: zeros 519)).ssn) ∧
    (received longBlock).entry.map Entry.key ≠ some (headerFields (9 :: zeros 519)).ssn :=
  ⟨rfl, ⟨lastBlock_short (by decide +kernel), by decide +kernel⟩,
    ⟨lastBlock_long (by decide +kernel), by decide +kernel, by decide +kernel⟩, by decide +kernel⟩

theorem test_witness_SequenceGapsAreReportedAndCounted : slave.fsm = .waitingForSof := rfl

/-- The first offset past a short body. -/
theorem test_witness_BadBoundaryIsReported :
    ∃ blk, blk = blockBytes CrcAlgo.isoHdlc ⟨0, 128, true, false, true, false, 0⟩ (zeros 128) ∧
      slave.fsm = .waitingForSof ∧ LastBlock slave (received []) blk blk 128 0 ∧
      BlockPasses slave.cfg.crc 128 blk ∧ (headerFields blk).macBoundaryFlag = true ∧
      128 ≤ (headerFields blk).macBoundaryOffset.toNat :=
  ⟨_, rfl, rfl, lastBlock_short (by decide +kernel), by decide +kernel, by decide +kernel, by decide +kernel⟩

/-- A block without a boundary at number 1, its body zeros. -/
def contBlock : Bytes := blockBytes CrcAlgo.isoHdlc ⟨1, 0, true, false, false, false, 0⟩ (zeros 512)

/-- With no entry; with an entry it does not complete; and (from an entry whose frame ends with the block, and
one that waits for another block) with one that it completes, and with one of another key. -/
theorem test_witness_BlockWithoutBoundaryContinuesTheEntry :
    slave.fsm = .waitingForSof ∧ BlockPasses slave.cfg.crc 512 contBlock ∧
    (headerFields contBlock).macBoundaryFlag = false ∧
    (LastBlock slave (received []) contBlock contBlock 512 0 ∧ (received []).entry = none) ∧
    (LastBlock slave (received longBlock) (longBlock ++ contBlock) contBlock 512 1 ∧
      ∃ e, (received longBlock).entry = some e ∧ e.key = (headerFields contBlock).ssn ∧
        (e.data ++ slice contBlock 4 (4 + 512)).length
          < frameTotal slave.cfg (e.data ++ slice contBlock 4 (4 + 512))) ∧
    (∃ s u, s.fsm = .waitingForSof ∧ s.cfg = slave.cfg ∧ LastBlock s u contBlock contBlock 512 0 ∧
      ∃ e, u.entry = some e ∧ e.key = (headerFields contBlock).ssn ∧
        2 ≤ (e.data ++ slice contBlock 4 (4 + 512)).length ∧
        frameTotal slave.cfg (e.data ++ slice contBlock 4 (4 + 512))
          = (e.data ++ slice contBlock 4 (4 + 512)).length) ∧
    ∃ s u, s.fsm = .waitingForSof ∧ s.cfg = slave.cfg ∧ LastBlock s u contBlock contBlock 512 0 ∧
      ∃ e, u.entry = some e ∧ e.key ≠ (headerFields contBlock).ssn := by
  refine ⟨rfl, by decide +kernel, by decide +kernel, ⟨lastBlock_long_first (by decide +kernel), by decide +kernel⟩,
    ⟨lastBlock_long (by decide +kernel), ⟨1, [0xFF, 0x7F] ++ zeros 510⟩, by decide +kernel, by decide +kernel,
      by decide +kernel⟩, ?_, ?_⟩
  · exact ⟨{ slave with entry := some ⟨1, [0xFB, 0x41]⟩ },
      after (exec (.phyRxSof []) { slave with entry := some ⟨1, [0xFB, 0x41]⟩ }), rfl, rfl,
      ⟨[], rfl, by decide +kernel, .inr ⟨rfl, rfl⟩, eq_next (by decide +kernel)⟩,
      ⟨1, [0xFB, 0x41]⟩, by decide +kernel, by decide +kernel, by decide +kernel, by decide +kernel⟩
  · exact ⟨{ slave with entry := some ⟨2, [0xFB, 0x41]⟩ },
      after (exec (.phyRxSof []) { slave with entry := some ⟨2, [0xFB, 0x41]⟩ }), rfl, rfl,
      ⟨[], rfl, by decide +kernel, .inr ⟨rfl, rfl⟩, eq_next (by decide +kernel)⟩,
      ⟨2, [0xFB, 0x41]⟩, by decide +kernel, by decide +kernel⟩

/-- A block with its boundary at offset `mbo` and the last bytes of its body given. -/
def boundaryBlock (mbo : BitVec 9) (rest : Bytes) : Bytes :=
  blockBytes CrcAlgo.isoHdlc ⟨0, mbo, true, false, true, false, 0⟩ (zeros mbo.toNat ++ rest)

/-- The first boundary of a body, with a frame and padding after it, and the last one, with a single byte. -/
theorem test_witness_BlockWithBoundaryDeliversItsFrames :
    slave.fsm = .waitingForSof ∧
    (∃ blk, blk = boundaryBlock 0 (helloFrame ++ zeros 103) ∧ LastBlock slave (received []) blk blk 128 0 ∧
      BlockPasses slave.cfg.crc 128 blk ∧ (headerFields blk).macBoundaryFlag = true ∧
      (headerFields blk).macBoundaryOffset.toNat < 128 ∧
      slice blk (4 + (headerFields blk).macBoundaryOffset.toNat) (4 + 128) = [helloFrame].flatten ++ zeros 103 ∧
      (∀ f ∈ [helloFrame], 2 ≤ f.length ∧ frameType slave.cfg f ≠ 0 ∧ f.length = frameTotal slave.cfg f) ∧
      ¬ (2 ≤ (zeros 103).length ∧ frameType slave.cfg (zeros 103) ≠ 0 ∧
        frameTotal slave.cfg (zeros 103) ≤ (zeros 103).length)) ∧
    (∃ blk, blk = boundaryBlock 127 [0x17] ∧ LastBlock slave (received []) blk blk 128 0 ∧
      BlockPasses slave.cfg.crc 128 blk ∧ (headerFields blk).macBoundaryFlag = true ∧
      (headerFields blk).macBoundaryOffset.toNat < 128 ∧
      slice blk (4 + (headerFields blk).macBoundaryOffset.toNat) (4 + 128) = ([] : List Bytes).flatten ++ [0x17] ∧
      ¬ (2 ≤ [0x17#8].length ∧ frameType slave.cfg [0x17] ≠ 0 ∧
        frameTotal slave.cfg [0x17] ≤ [0x17#8].length)) := by
  refine ⟨rfl, ⟨_, rfl, lastBlock_short (by decide +kernel), ?_⟩, ⟨_, rfl, lastBlock_short (by decide +kernel), ?_⟩⟩
  · decide +kernel
  · decide +kernel

theorem test_witness_SegmentThenReassembleReturnsTheFrames :
    queuedMaster.cfg.ssnMod = .m65536 ∧ slave.cfg.crc = queuedMaster.cfg.crc ∧
    slave.cfg.mfhTypeAtLsb = queuedMaster.cfg.mfhTypeAtLsb ∧ slave.fsm = .waitingForSof ∧ slave.entry = none ∧
    queuedMaster.streams[0]? = some (slotOf [helloFrame]) ∧ (slotOf [helloFrame]).remainder = [] ∧
    (slotOf [helloFrame]).nextSsn.toNat < 65536 ∧
    (∀ l, slave.lastReceivedSsn = some l → BitVec.ofNat 16 (slotOf [helloFrame]).nextSsn.toNat = l + 1) ∧
    (∀ l, { slave with lastReceivedSsn := some 65535 }.lastReceivedSsn = some l →
      BitVec.ofNat 16 (slotOf [helloFrame]).nextSsn.toNat = l + 1) ∧
    List.Forall₂ (fun x f => exec (.macEncode x.1 x.2.1 x.2.2) queuedMaster
        = .next { queuedMaster with result := .frame (some f) })
      [(addrS, hello, none)] (slotOf [helloFrame]).pendingFrames ∧
    ∃ s' r', Carried 0 queuedMaster slave s' r' ∧ ∀ st', s'.streams[0]? = some st' → st'.pending = 0 := by
  refine ⟨rfl, rfl, rfl, rfl, rfl, rfl, rfl, by decide, (by rintro l ⟨⟩), (by rintro l ⟨⟩; rfl), .cons (eq_next (by decide +kernel)) .nil,
    after (exec (.segment 0) queuedMaster), received helloBurst, ?_, ?_⟩
  · exact .round (burst := helloBurst) (n := 1) (k := 1) (eq_next (by decide +kernel)) (by decide +kernel)
      (eq_next (by decide +kernel)) (.done _ _)
  · have h : (after (exec (.segment 0) queuedMaster)).streams[0]? = some { slotOf [] with nextSsn := 1 } := by
      decide +kernel
    intro st' hst
    rw [h] at hst
    cases hst
    rfl

theorem test_witness_IgnoredHeaderBitsChangeNothing :
    ((zeros 128).length = 128 ∨ (zeros 128).length = 512) ∧ ((zeros 512).length = 128 ∨ (zeros 512).length = 512) ∧
    (⟨7, 5, false, true, true, true, 7⟩ : BlockHeader).ssn = (⟨7, 5, true, false, true, false, 0⟩ : BlockHeader).ssn ∧
    (⟨7, 5, false, true, true, true, 7⟩ : BlockHeader).macBoundaryOffset
      = (⟨7, 5, true, false, true, false, 0⟩ : BlockHeader).macBoundaryOffset ∧
    (⟨7, 5, false, true, true, true, 7⟩ : BlockHeader).macBoundaryFlag
      = (⟨7, 5, true, false, true, false, 0⟩ : BlockHeader).macBoundaryFlag := by
  simp only [zeros_len]
  decide

theorem test_witness_SackDecodeCountsTheFlags :
    [0x15#8, 2] = 0x15#8 :: [2] ∧ 2 = (sackWindow 2).lastFrameBlockCount.toNat := by decide

/-! ### Submissions -/

theorem slotFor_first : queuedMaster.SlotFor addrS 0 (slotOf [helloFrame]) :=
  ⟨rfl, .inl ⟨rfl, rfl, fun _ h => absurd h (Nat.not_lt_zero _)⟩⟩

/-- The lowest free slot, after one in use for another destination. -/
theorem slotFor_free : queuedMaster.SlotFor Addr.zero 1 Stream.free := by
  refine ⟨rfl, .inr ⟨rfl, by decide, ?_⟩⟩
  intro j hj st' hst
  obtain rfl : j = 0 := by omega
  cases hst
  rfl

theorem test_witness_AppSubmitOnlyEnqueuesOutsideWaitingForApp :
    (sackWindow 1).fsm ≠ .waitingForApp ∧ (sackWindow 1).full = false ∧
    (sackWindow 1).SlotFor addrS 0 (slotOf [helloFrame]) ∧ (sackWindow 1).SlotFor Addr.zero 1 Stream.free ∧
    (zeros 16370).length + 13 ≤ 16383 :=
  ⟨by decide, rfl, slotFor_first, slotFor_free, by simp only [zeros_len]; decide⟩

theorem test_witness_AppSubmitInWaitingForAppStartsACycle :
    queuedMaster.fsm = .waitingForApp ∧ queuedMaster.full = false ∧
    queuedMaster.SlotFor addrS 0 (slotOf [helloFrame]) ∧ queuedMaster.SlotFor Addr.zero 1 Stream.free ∧
    (zeros 16370).length + 13 ≤ 16383 :=
  ⟨rfl, rfl, slotFor_first, slotFor_free, by simp only [zeros_len]; decide⟩

theorem test_witness_MgmtSubmitNeverStartsACycle :
    queuedMaster.full = false ∧ queuedMaster.SlotFor addrS 0 (slotOf [helloFrame]) ∧
    queuedMaster.SlotFor Addr.zero 1 Stream.free ∧ (zeros 16366).length + 17 ≤ 16383 :=
  ⟨rfl, slotFor_first, slotFor_free, by simp only [zeros_len]; decide⟩

theorem test_witness_RejectedSubmissionOnlyReports :
    { master with full := true }.full = true ∧
    { master with streams := [slotOf []] }.full = false ∧
    (∀ st ∈ [slotOf []], st.inUse = true ∧ st.dest ≠ Addr.zero) ∧ (zeros 16370).length + 13 ≤ 16383 ∧
    (zeros 16366).length + 17 ≤ 16383 :=
  ⟨rfl, rfl, by decide, by simp only [zeros_len]; decide, by simp only [zeros_len]; decide⟩

/-! ### The state machine -/

theorem test_witness_RxEndClosesTheSackWindow : (sackWindow 1).fsm = .waitingForSack := rfl

/-- At the last time at which no sound is due. -/
theorem test_witness_EveryStreamWithDataCanBeDrawn :
    { sackWindow 1 with now := 1000 }.fsm = .waitingForSack ∧
    { sackWindow 1 with now := 1000 }.lastSoundTime = some 0 ∧
    1000 ≤ (0#64).toNat + { sackWindow 1 with now := 1000 }.cfg.soundPeriodTicks ∧
    { sackWindow 1 with now := 1000 }.streams[0]? = some (slotOf [helloFrame]) ∧
    0 < (slotOf [helloFrame]).pending := ⟨rfl, rfl, by decide, rfl, by decide⟩

/-- The example of 46_arq_fsm.md R301: no sound is due at 1000, one is at 1001; after it, none within the
period. -/
theorem test_witness_SoundIsSentWhenDue :
    (sackWindow 1).fsm = .waitingForSack ∧ 1001 < 2 ^ 64 ∧ (∃ st ∈ (sackWindow 1).streams, 0 < st.pending) ∧
    (∀ l, (sackWindow 1).lastSoundTime = some l → l.toNat + (sackWindow 1).cfg.soundPeriodTicks < 1001) ∧
    ¬ (∀ l, (sackWindow 1).lastSoundTime = some l → l.toNat + (sackWindow 1).cfg.soundPeriodTicks < 1000) ∧
    exec .phyRxEnd { sackWindow 1 with now := 1001 } = .next (after (exec .phyRxEnd { sackWindow 1 with now := 1001 })) ∧
    { sackWindow 1 with lastSoundTime := some 1001, now := 2001 }.lastSoundTime
      = (after (exec .phyRxEnd { sackWindow 1 with now := 1001 })).lastSoundTime ∧
    2001 ≤ 1001 + (sackWindow 1).cfg.soundPeriodTicks := by
  refine ⟨rfl, by decide, ⟨slotOf [helloFrame], by decide, by decide⟩, ?_, ?_, eq_next (by decide +kernel),
    by decide +kernel, by decide⟩
  · rintro l hl
    cases hl
    decide
  · intro h
    exact absurd (h 0 rfl) (by decide)

theorem test_witness_TxEndArmsTheTimerOrEndsTheSack :
    { master with fsm := .sendingSofOrSound }.fsm = .sendingSofOrSound ∧
    { slave with fsm := .sendingSack }.fsm = .sendingSack ∧
    (2 ^ 64 - 501) + master.cfg.sackTimeoutTicks < 2 ^ 64 := ⟨rfl, rfl, by decide⟩

theorem test_witness_RxSackDisarmsAndStoresTheCount : (sackWindow 3).fsm = .waitingForSack := rfl

theorem test_witness_RxEndAnswersWithASack : slave.fsm = .waitingForSof := rfl

theorem test_witness_RxSoundClearsTheBlockErrors : slave.fsm = .waitingForSof := rfl

theorem test_witness_EventsWithoutAHandlerAreIgnored :
    (master.fsm ≠ .sendingSofOrSound ∧ master.fsm ≠ .sendingSack) ∧ slave.fsm ≠ .waitingForSack ∧
    (master.fsm ≠ .waitingForSack ∧ master.fsm ≠ .waitingForSof) := by decide

/-- Each way for an expiry to be stale. -/
theorem test_witness_StaleExpiryChangesNothing :
    master.timerArmed = false ∧ 1 ≠ (sackWindow 1).timerGen ∧
    { sackWindow 1 with now := 509 }.now < (sackWindow 1).timerDeadline.toNat := by decide

/-- At the deadline. -/
theorem test_witness_ValidExpiryRunsTheSendPath :
    (sackWindow 1).timerArmed = true ∧ (sackWindow 1).timerDeadline.toNat ≤ (sackWindow 1).now := by decide

theorem test_witness_OneExpiryPerArming :
    ((sackWindow 1).timerArmed = true ∧ (sackWindow 1).timerDeadline.toNat ≤ (sackWindow 1).now ∧
      (∃ st ∈ (sackWindow 1).streams, 0 < st.pending)) ∧
    (∀ st ∈ { sackWindow 1 with streams := master.streams }.streams, st.pending = 0) ∧
    master.timerArmed = false ∧
    ({ master with fsm := .sendingSofOrSound }.timerArmed = false ∧
      exec .phyTxEnd { master with fsm := .sendingSofOrSound }
        = .next (after (exec .phyTxEnd { master with fsm := .sendingSofOrSound })) ∧
      (after (exec .phyTxEnd { master with fsm := .sendingSofOrSound })).timerArmed = true) :=
  ⟨⟨rfl, by decide, slotOf [helloFrame], by decide, by decide⟩, by decide, rfl, rfl, eq_next (by decide +kernel),
    by decide +kernel⟩

/-! ### Invariants -/

/-- A state in the middle of an exchange that satisfies the invariant, and a step from it. -/
theorem test_witness_StepKeepsTheInvariant :
    ∃ s, s.Inv ∧ s.inbox ≠ [] ∧ step s = .next (after (step s)) := by
  refine ⟨{ sackWindow 3 with
    streams := [slotOf [helloFrame], Stream.free, Stream.free, Stream.free]
    inbox := [input 600 .code [0x06]] }, ?_, by simp, eq_next (by decide +kernel)⟩
  decide +kernel

theorem test_witness_SlaveSendsNoBurstOrSound :
    slave.cfg.role = .slave ∧ slave.RoleOk ∧ slave.TimerOk ∧ (∀ b, Instr.phyRxEnd ≠ .sof b) ∧
    Instr.phyRxEnd ≠ .sound ∧ exec .phyRxEnd slave = .next (after (exec .phyRxEnd slave)) :=
  ⟨rfl, by decide, by decide, by simp, by simp, eq_next (by decide +kernel)⟩

/-- An odd number of carriers, the first of them and the last. -/
theorem test_witness_ManagementMessagesReadBack :
    ([1, 2, 15] : List (BitVec 4)).length < 65536 ∧ ([1, 2, 15] : List (BitVec 4)).length % 2 = 1 ∧
    ([1, 2, 15] : List (BitVec 4))[0]? = some 1 ∧ ([1, 2, 15] : List (BitVec 4))[2]? = some 15 := by decide

end Sys2Proof.Tests
end

section
/-! SUPPORT. Everything one instruction can do to the block (10_state.md), once for all 34 rows: `exec_effect`
and `step_cases`. What an instruction keeps is then read off the thirteen cases of `ExecEffect`. -/

namespace Sys2Proof.Machine

/-! ## Ports -/

/-- `t` is `s` but for the counters and the ports of the step. -/
def PortChange (s t : State) : Prop :=
  ∃ c os rs r b, t = { s with counters := c, outputs := os, reports := rs, result := r, boundsFault := b }

namespace PortChange

variable {s t : State}

theorem refl (s : State) : PortChange s s :=
  ⟨s.counters, s.outputs, s.reports, s.result, s.boundsFault, rfl⟩

theorem trans {u : State} (h : PortChange s t) (h' : PortChange t u) : PortChange s u := by
  obtain ⟨_, _, _, _, _, rfl⟩ := h
  obtain ⟨c, os, rs, r, b, rfl⟩ := h'
  exact ⟨c, os, rs, r, b, rfl⟩

theorem emit (h : PortChange s t) (e : OutEvent) : PortChange s (t.emit e) :=
  h.trans ⟨t.counters, _, t.reports, t.result, t.boundsFault, rfl⟩

theorem report (h : PortChange s t) (r : Report) : PortChange s (t.report r) :=
  h.trans ⟨_, t.outputs, _, t.result, t.boundsFault, rfl⟩

theorem setResult (h : PortChange s t) (r : OpResult) : PortChange s (t.setResult r) :=
  h.trans ⟨t.counters, t.outputs, t.reports, _, t.boundsFault, rfl⟩

theorem raiseBounds (h : PortChange s t) (b : BoundsError) : PortChange s (t.raiseBounds b) :=
  h.trans ⟨t.counters, t.outputs, t.reports, t.result, _, rfl⟩

theorem deliver (s : State) (f : Bytes) : PortChange s (s.deliver f) := by
  obtain ⟨os, rs, c, h⟩ := deliver_frame s f
  exact ⟨c, _, _, s.result, s.boundsFault, h⟩

theorem reportAll_sackReports (s : State) (r : Except Report Nat) :
    PortChange s (s.reportAll (sackReports r)) :=
  ⟨_, s.outputs, _, s.result, s.boundsFault, Sys2Proof.Machine.reportAll_sackReports s r⟩

end PortChange

/-! ## One instruction -/

/-- `u` is `s` with a frame of an admissible length accepted (47_txqueue_mgmt_interface.md R340 to R346). -/
def State.Accepts (s u : State) : Prop :=
  ∃ dest f slot, s.full = false ∧ (20 ≤ f.length ∧ f.length ≤ 16390) ∧
    streamFor s.streams dest = some slot ∧ u = (s.enqueue slot dest f).countAccepted

/-- Everything an instruction that has a next state can do. -/
inductive ExecEffect (s : State) : State → Prop where
  /-- Only the ports and the counters are written. -/
  | ports {t} (h : PortChange s t) : ExecEffect s t
  /-- RESET (70_reset_and_hazards.md R400). -/
  | reset : ExecEffect s s.resetBlock
  /-- A burst is received (44_reassembler.md R230). -/
  | received {t} (burst : Bytes) (h : PortChange (s.reassemble burst) t) : ExecEffect s t
  /-- PHY-RXSOUND (46_arq_fsm.md R305). -/
  | errorsCleared : ExecEffect s { s with rxBlockErrors := [] }
  /-- SEGMENT (43_segmenter.md R192). -/
  | segmented {slot st t} (hs : s.streams[slot]? = some st)
      (h : PortChange { s with streams := s.streams.set slot (segment s.cfg st).stream } t) : ExecEffect s t
  /-- A submission is accepted and starts no cycle (46_arq_fsm.md R293, R294). -/
  | accepted {u} (h : s.Accepts u) : ExecEffect s u
  /-- A submission is accepted and starts a send cycle (46_arq_fsm.md R293). -/
  | acceptedAndSent {u} (hf : s.fsm = .waitingForApp) (h : s.Accepts u) : ExecEffect s u.sendPath
  /-- PHY-RXSACK ends the wait, and a well-formed SACK gives the errored count (46_arq_fsm.md R297). -/
  | sackReceived {t} (e : BitVec 32) (hf : s.fsm = .waitingForSack)
      (he : e = s.lastSackErrored ∨ e.toNat ≤ maxSegments)
      (h : PortChange { s.disarmTimer with lastSackErrored := e } t) : ExecEffect s t
  /-- PHY-RXEND closes the SACK window (46_arq_fsm.md R298). -/
  | windowClosed {t} (hf : s.fsm = .waitingForSack) (h : PortChange s.disarmTimer.sendPath t) : ExecEffect s t
  /-- PHY-RXEND answers a burst or a sound (46_arq_fsm.md R299). -/
  | answered {t} (hf : s.fsm = .waitingForSof)
      (h : PortChange { s with rxBlockErrors := [], fsm := .sendingSack } t) : ExecEffect s t
  /-- PHY-TXEND of a sof or sound (46_arq_fsm.md R295). -/
  | burstEnded (hf : s.fsm = .sendingSofOrSound) : ExecEffect s { s.armTimer with fsm := .waitingForSack }
  /-- PHY-TXEND of a SACK (46_arq_fsm.md R296). -/
  | sackEnded (hf : s.fsm = .sendingSack) : ExecEffect s { s with fsm := .waitingForSof }
  /-- A timer expiry that takes effect (46_arq_fsm.md R306). -/
  | expired {u} (ha : s.timerArmed = true)
      (h : PortChange { s.disarmTimer with lastSackErrored := s.lastFrameBlockCount.setWidth 32 } u) :
      ExecEffect s u.sendPath

section Handlers

variable {s t : State}

/-- The next state of an outcome is the one it was built from. -/
theorem ExecEffect.of_next {u : State} (hu : ExecEffect s u)
    (h : (Host.Outcome.next u : Host.Outcome State Fault Refusal) = .next t) : ExecEffect s t := by
  injection h with h
  exact h ▸ hu

/-- A submission is accepted, or the rejection's report is all it does. -/
theorem acceptable_accepts (s : State) (dest : Addr) (p : Bytes) (c : Option Confounder) :
    (∃ r, s.acceptable dest p c = .error r) ∨
    ∃ f slot, s.acceptable dest p c = .ok (f, slot) ∧ s.Accepts (s.enqueue slot dest f).countAccepted := by
  rcases acceptable_cases s dest p c with ⟨-, h⟩ | ⟨-, -, h⟩ | ⟨-, -, -, h⟩ | ⟨f, slot, hf, hm, hs, h⟩
  · exact .inl ⟨_, h⟩
  · exact .inl ⟨_, h⟩
  · exact .inl ⟨_, h⟩
  · exact .inr ⟨f, slot, h, dest, f, slot, hf, macEncode_length hm, hs, rfl⟩

/-- An accepted frame as one update of the state: the slot of its destination, the count, the flag and `READY`. -/
theorem State.Accepts.eq_update {u : State} (h : s.Accepts u) :
    ∃ dest f slot st, s.full = false ∧ (20 ≤ f.length ∧ f.length ≤ 16390) ∧
      streamFor s.streams dest = some slot ∧ s.streams[slot]? = some st ∧
      u = { s with
        streams := s.streams.set slot ((st.claim dest).append f)
        inflight := s.inflight + 1
        full := decide (maxFramesInBuffer ≤ s.inflight + 1)
        outputs := s.outputs ++ if maxFramesInBuffer ≤ s.inflight + 1 then [] else [.ready] } := by
  obtain ⟨dest, f, slot, hf, hlen, hslot, rfl⟩ := h
  obtain ⟨st, hst, -⟩ := streamFor_some hslot
  refine ⟨dest, f, slot, st, hf, hlen, hslot, hst, ?_⟩
  rw [countAccepted_eq (by simpa using hf), enqueue_eq hst]

theorem appSubmit_effect {dest : Addr} {p : Bytes} (h : execAppSubmit dest p s = .next t) : ExecEffect s t := by
  unfold execAppSubmit at h
  rcases acceptable_accepts s dest p none with ⟨r, ha⟩ | ⟨f, slot, ha, hacc⟩ <;> rw [ha] at h
  · exact .of_next (.ports ((PortChange.refl s).report r)) h
  · have hfsm : (s.enqueue slot dest f).countAccepted.fsm = s.fsm := by
      obtain ⟨_, _, _, _, -, -, -, -, hu⟩ := hacc.eq_update
      rw [hu]
    simp only [hfsm] at h
    split at h
    · next hf => exact .of_next (.acceptedAndSent hf hacc) h
    · exact .of_next (.accepted hacc) h

theorem mgmtSubmit_effect {dest : Addr} {mm : Bytes} (h : execMgmtSubmit dest mm s = .next t) :
    ExecEffect s t := by
  unfold execMgmtSubmit at h
  rcases acceptable_accepts s dest mm (some s.draw.confounder) with ⟨r, ha⟩ | ⟨f, slot, ha, hacc⟩
    <;> rw [ha] at h
  · exact .of_next (.ports ((PortChange.refl s).report r)) h
  · exact .of_next (.accepted hacc) h

theorem phyRxSof_effect {b : Bytes} (h : execPhyRxSof b s = .next t) : ExecEffect s t := by
  unfold execPhyRxSof at h
  split at h
  · exact .of_next (.received b (.refl _)) h
  all_goals exact .of_next (.ports (.refl s)) h

/-- The errored count of a SACK is at most `MAX_SEGMENTS` (10_state.md R37: two bits). -/
theorem sackDecode_ofNat_le {b : Bytes} {n : BitVec 2} {e : Nat} (h : sackDecode b n.toNat = .ok e) :
    (BitVec.ofNat 32 e).toNat ≤ maxSegments := by
  have hle := sackDecode_le h
  have hn := n.isLt
  rw [BitVec.toNat_ofNat, maxSegments]
  omega

theorem phyRxSack_effect {b : Bytes} (h : execPhyRxSack b s = .next t) : ExecEffect s t := by
  unfold execPhyRxSack at h
  split at h
  · next hf =>
    simp only [reportAll_sackReports] at h
    cases hd : sackDecode b s.lastFrameBlockCount.toNat with
    | error r =>
      rw [hd] at h
      exact .of_next (.sackReceived _ hf (.inl rfl) ⟨_, _, _, _, _, rfl⟩) h
    | ok e =>
      rw [hd] at h
      exact .of_next (.sackReceived _ hf (.inr (sackDecode_ofNat_le hd)) ⟨_, _, _, _, _, rfl⟩) h
  all_goals exact .of_next (.ports (.refl s)) h

theorem phyRxSound_effect (h : execPhyRxSound s = .next t) : ExecEffect s t := by
  unfold execPhyRxSound at h
  split at h
  · exact .of_next .errorsCleared h
  all_goals exact .of_next (.ports (.refl s)) h

theorem phyRxEnd_effect (h : execPhyRxEnd s = .next t) : ExecEffect s t := by
  unfold execPhyRxEnd at h
  split at h
  · next hf => exact .of_next (.windowClosed hf ((PortChange.refl _).emit _)) h
  · next hf => exact .of_next (.answered hf ⟨_, _, _, _, _, rfl⟩) h
  all_goals exact .of_next (.ports (.refl s)) h

theorem phyTxEnd_effect (h : execPhyTxEnd s = .next t) : ExecEffect s t := by
  unfold execPhyTxEnd at h
  split at h
  · next hf => exact .of_next (.burstEnded hf) h
  · next hf => exact .of_next (.sackEnded hf) h
  all_goals exact .of_next (.ports (.refl s)) h

theorem timerExpire_effect {gen : BitVec 32} (h : execTimerExpire gen s = .next t) : ExecEffect s t := by
  unfold execTimerExpire at h
  split at h
  · next hv =>
    obtain ⟨ha, -, -⟩ := (expiryValid_iff s gen).mp hv
    exact .of_next (.expired ha ⟨_, _, _, _, _, rfl⟩) h
  · exact .of_next (.ports (.refl s)) h

theorem setField_effect {buf : Bytes} {v : BitVec 32} {o w : Nat} (h : execSetField buf v o w s = .next t) :
    ExecEffect s t := by
  unfold execSetField at h
  split at h
  · cases h
  split at h
  · exact .of_next (.ports ((PortChange.refl s).setResult _)) h
  · exact .of_next (.ports ((PortChange.refl s).raiseBounds _)) h

theorem getField_effect {buf : Bytes} {o w : Nat} (h : execGetField buf o w s = .next t) : ExecEffect s t := by
  unfold execGetField at h
  split at h
  · cases h
  split at h
  · exact .of_next (.ports ((PortChange.refl s).setResult _)) h
  · exact .of_next (.ports ((PortChange.refl s).raiseBounds _)) h

theorem setBytes_effect {buf b : Bytes} {k : Nat} (h : execSetBytes buf b k s = .next t) : ExecEffect s t := by
  unfold execSetBytes at h
  split at h
  · exact .of_next (.ports ((PortChange.refl s).setResult _)) h
  · exact .of_next (.ports ((PortChange.refl s).raiseBounds _)) h

theorem getBytes_effect {buf : Bytes} {k n : Nat} (h : execGetBytes buf k n s = .next t) : ExecEffect s t := by
  unfold execGetBytes at h
  split at h
  · exact .of_next (.ports ((PortChange.refl s).setResult _)) h
  · exact .of_next (.ports ((PortChange.refl s).raiseBounds _)) h

theorem macEncode_effect {dest : Addr} {p : Bytes} {c : Option Confounder}
    (h : execMacEncode dest p c s = .next t) : ExecEffect s t := by
  unfold execMacEncode at h
  split at h
  · exact .of_next (.ports ((PortChange.refl s).setResult _)) h
  · exact .of_next (.ports (((PortChange.refl s).report _).setResult _)) h

theorem macDecode_effect {f : Bytes} (h : execMacDecode f s = .next t) : ExecEffect s t := by
  unfold execMacDecode at h
  split at h
  · exact .of_next (.ports ((PortChange.refl s).setResult _)) h
  · exact .of_next (.ports (((PortChange.refl s).report _).setResult _)) h

theorem segment_effect {slot : Nat} (h : execSegment slot s = .next t) : ExecEffect s t := by
  unfold execSegment at h
  split at h
  · cases h
  · next hs => exact .of_next (.segmented hs ((PortChange.refl _).setResult _)) h

/-- Every instruction does one of the things of `ExecEffect`. -/
theorem exec_effect {i : Instr} (h : exec i s = .next t) : ExecEffect s t := by
  cases i with
  | reset => exact .of_next .reset h
  | appSubmit dest payload => exact appSubmit_effect h
  | mgmtSubmit dest mm => exact mgmtSubmit_effect h
  | phyRxSof payload => exact phyRxSof_effect h
  | phyRxSack sackd => exact phyRxSack_effect h
  | phyRxSound => exact phyRxSound_effect h
  | phyRxEnd => exact phyRxEnd_effect h
  | phyTxEnd => exact phyTxEnd_effect h
  | timerExpire gen => exact timerExpire_effect h
  | sof _ | sound | sack _ | searchPpdu | appRx _ | mgmtRx _ | ready =>
    exact .of_next (.ports ((PortChange.refl s).emit _)) h
  | setField buffer value bitOffset bitWidth => exact setField_effect h
  | getField buffer bitOffset bitWidth => exact getField_effect h
  | setBytes buffer bytes byteOffset => exact setBytes_effect h
  | getBytes buffer byteOffset n => exact getBytes_effect h
  | crc32 _ | sackEncode _ | blockBuild _ _ _ _ =>
    exact .of_next (.ports ((PortChange.refl s).setResult _)) h
  | macEncode dest payload confounder => exact macEncode_effect h
  | macDecode frame => exact macDecode_effect h
  | segment slot => exact segment_effect h
  | reassemble _ | phyBlockHeader _ _ => exact .of_next (.received _ ((PortChange.refl _).setResult _)) h
  | sackDecode _ _ | sackPayload _ =>
    exact .of_next (.ports ((PortChange.reportAll_sackReports s _).setResult _)) h
  | mfhData _ _ | mfhMgmt _ _ | mfhPad _ _ | mfhReserved _ _ =>
    exact .of_next (.ports (.deliver s _)) h

/-- A step that has a next state waits, or handles the oldest input (20_memory.md R78, R81). -/
theorem step_cases (h : step s = .next t) :
    t = s.clearPorts ∨ ∃ i later, ExecEffect (s.beginStep i later) t := by
  unfold step at h
  split at h
  · injection h with h
    exact .inl h.symm
  · next i later _ =>
    split at h
    · cases h
    split at h
    · cases h
    · exact .inr ⟨i, later, exec_effect h⟩

end Handlers

end Sys2Proof.Machine
end

section
/-! SUPPORT. No instruction writes the configuration or the environment's side of the state (10_state.md R32). -/

namespace Sys2Proof.Machine

/-- The configuration, the time, the draws and the inputs to come are the same. -/
def SameEnvironment (s t : State) : Prop :=
  t.cfg = s.cfg ∧ t.now = s.now ∧ t.draw = s.draw ∧ t.inbox = s.inbox

variable {s t u : State}

theorem SameEnvironment.refl (s : State) : SameEnvironment s s := ⟨rfl, rfl, rfl, rfl⟩

theorem SameEnvironment.trans (h : SameEnvironment s t) (h' : SameEnvironment t u) : SameEnvironment s u := by
  obtain ⟨hc, hn, hd, hi⟩ := h
  obtain ⟨hc', hn', hd', hi'⟩ := h'
  exact ⟨hc'.trans hc, hn'.trans hn, hd'.trans hd, hi'.trans hi⟩

theorem PortChange.sameEnvironment (h : PortChange s t) : SameEnvironment s t := by
  obtain ⟨_, _, _, _, _, rfl⟩ := h
  exact .refl s

theorem sameEnvironment_reassemble (s : State) (burst : Bytes) : SameEnvironment s (s.reassemble burst) := by
  obtain ⟨_, _, _, _, _, -, h⟩ := reassemble_change s burst
  rw [h]
  exact .refl s

theorem State.Accepts.sameEnvironment (h : s.Accepts u) : SameEnvironment s u := by
  obtain ⟨_, _, _, _, -, -, -, -, rfl⟩ := h.eq_update
  exact .refl s

theorem sameEnvironment_sendPath (s : State) : SameEnvironment s s.sendPath := by
  rcases sendPath_sends s with ⟨-, h⟩ | ⟨-, -, _, -, h⟩ | ⟨_, _, -, -, -, h⟩ <;> rw [h] <;> exact .refl s

theorem ExecEffect.sameEnvironment (h : ExecEffect s t) : SameEnvironment s t := by
  cases h with
  | ports hp => exact hp.sameEnvironment
  | reset => exact .refl s
  | received burst hp => exact (sameEnvironment_reassemble s burst).trans hp.sameEnvironment
  | errorsCleared => exact .refl s
  | segmented _ hp => exact hp.sameEnvironment
  | accepted ha => exact ha.sameEnvironment
  | acceptedAndSent _ ha => exact ha.sameEnvironment.trans (sameEnvironment_sendPath _)
  | sackReceived _ _ _ hp => exact hp.sameEnvironment
  | windowClosed _ hp => exact (sameEnvironment_sendPath s.disarmTimer).trans hp.sameEnvironment
  | answered _ hp => exact hp.sameEnvironment
  | burstEnded _ => exact .refl s
  | sackEnded _ => exact .refl s
  | expired _ hp => exact hp.sameEnvironment.trans (sameEnvironment_sendPath _)

/-- Settles O7: each effect of an instruction leaves the environment's side, and a step's latching of its input
leaves the configuration. -/
theorem nothingWritesTheConfiguration : Obligations.NothingWritesTheConfiguration := by
  refine ⟨fun i s t h => (exec_effect h).sameEnvironment, fun s t h => ?_⟩
  rcases step_cases h with rfl | ⟨i, later, he⟩
  · rfl
  · exact he.sameEnvironment.1

end Sys2Proof.Machine
end

section
/-! SUPPORT. What each effect of an instruction does to the parts of the invariant (10_state.md R40 to R43, R50,
46_arq_fsm.md R311, R313, 47_txqueue_mgmt_interface.md R340, R341), and that every step keeps it. -/

namespace Sys2Proof.Machine

variable {s t : State}

/-! ## One slot of the stream table -/

/-- Replacing one element of a list moves the sum by the difference of the two. -/
theorem sum_map_set {α : Type} (f : α → Nat) {l : List α} {i : Nat} {a : α} (h : l[i]? = some a) (b : α) :
    ((l.set i b).map f).sum + f a = (l.map f).sum + f b := by
  induction l generalizing i with
  | nil => simp at h
  | cons x xs ih =>
    cases i with
    | zero =>
      obtain rfl : x = a := by simpa using h
      simp only [List.set_cons_zero, List.map_cons, List.sum_cons]
      omega
    | succ i =>
      have := ih (by simpa using h)
      simp only [List.set_cons_succ, List.map_cons, List.sum_cons]
      omega

/-- The frames outstanding after one slot is replaced. -/
theorem outstanding_set {i : Nat} {st : Stream} (h : s.streams[i]? = some st) (st' : Stream) :
    ((s.streams.set i st').map Stream.outstanding).sum + st.outstanding = s.outstanding + st'.outstanding :=
  sum_map_set Stream.outstanding h st'

/-- The table stays well-formed when a slot is replaced by a well-formed one whose key, if it is in use, is the
slot's own or nobody's (R40). -/
theorem streamsOk_set {i : Nat} {st st' : Stream} (h : s.StreamsOk) (hi : s.streams[i]? = some st)
    (hok : st'.Ok s.cfg)
    (hkey : st'.inUse = true → (st.inUse = true ∧ st.dest = st'.dest) ∨
      ∀ b ∈ s.streams, b.inUse = true → b.dest ≠ st'.dest) :
    State.StreamsOk { s with streams := s.streams.set i st' } := by
  obtain ⟨hlen, hall, hpw⟩ := h
  obtain ⟨hlt, hst⟩ := List.getElem?_eq_some_iff.mp hi
  rw [List.pairwise_iff_getElem] at hpw
  have hother : ∀ j (hj : j < s.streams.length), j ≠ i → st'.inUse = true → s.streams[j].inUse = true →
      s.streams[j].dest ≠ st'.dest := by
    intro j hj hne hu' hu
    rcases hkey hu' with ⟨hsu, hsd⟩ | hnone
    · rw [← hsd]
      rcases Nat.lt_or_gt_of_ne hne with hji | hij
      · have := hpw j i hj hlt hji hu
        rw [hst] at this
        exact this hsu
      · have := hpw i j hlt hj hij
        rw [hst] at this
        exact (this hsu hu).symm
    · exact hnone _ (List.getElem_mem hj) hu
  refine ⟨by simpa using hlen, ?_, ?_⟩
  · intro b hb
    rcases List.mem_or_eq_of_mem_set hb with hb | rfl
    · exact hall b hb
    · exact hok
  · show (s.streams.set i st').Pairwise _
    rw [List.pairwise_iff_getElem]
    intro j k hj hk hjk
    rw [List.length_set] at hj hk
    rw [List.getElem_set, List.getElem_set]
    by_cases hij : i = j
    · rw [if_pos hij, if_neg (by omega)]
      exact fun hu hu' => (hother k hk (by omega) hu hu').symm
    · rw [if_neg hij]
      by_cases hik : i = k
      · rw [if_pos hik]
        exact fun hu hu' => hother j hj (by omega) hu' hu
      · rw [if_neg hik]
        exact hpw j k hj hk hjk

theorem stream_ok (h : s.StreamsOk) {i : Nat} {st : Stream} (hi : s.streams[i]? = some st) : st.Ok s.cfg :=
  h.2.1 st (List.mem_of_getElem? hi)

/-- An invocation of the segmenter keeps the table well-formed (43_segmenter.md R192). -/
theorem streamsOk_segment {i : Nat} {st : Stream} (h : s.StreamsOk) (hi : s.streams[i]? = some st) :
    State.StreamsOk { s with streams := s.streams.set i (segment s.cfg st).stream } :=
  streamsOk_set h hi (segment_ok (stream_ok h hi)) (by simp +contextual)

/-- The frames fully consumed by an invocation are no longer outstanding (R344). -/
theorem outstanding_segment {i : Nat} {st : Stream} (hi : s.streams[i]? = some st) :
    ((s.streams.set i (segment s.cfg st).stream).map Stream.outstanding).sum + (segment s.cfg st).k
      = s.outstanding := by
  have hset := outstanding_set hi (segment s.cfg st).stream
  have hseg := segment_outstanding s.cfg st
  omega

/-! ## A frame appended to a slot -/

/-- A free slot is well-formed in every configuration. -/
theorem free_ok (cfg : Config) : Stream.free.Ok cfg :=
  ⟨SsnMod_toNat_pos cfg.ssnMod, by simp [Stream.free], by simp [Stream.free], fun _ => ⟨rfl, rfl, rfl⟩⟩

@[simp] theorem claim_inUse (st : Stream) (dest : Addr) : (st.claim dest).inUse = true := by
  cases h : st.inUse
  · rw [claim_of_free h]; rfl
  · rw [claim_of_inUse h, h]

theorem claim_ok {cfg : Config} {st : Stream} (h : st.Ok cfg) (dest : Addr) : (st.claim dest).Ok cfg := by
  cases hu : st.inUse
  · obtain ⟨hssn, hframes, hrem, -⟩ := free_ok cfg
    rw [claim_of_free hu]
    exact ⟨hssn, hframes, hrem, fun h => by cases h⟩
  · rwa [claim_of_inUse hu]

/-- A free slot holds nothing, so allocating it loses nothing (R40). -/
theorem claim_outstanding {cfg : Config} {st : Stream} (h : st.Ok cfg) (dest : Addr) :
    (st.claim dest).outstanding = st.outstanding := by
  cases hu : st.inUse
  · obtain ⟨-, -, -, hfree⟩ := h
    obtain ⟨hframes, hrem, -⟩ := hfree hu
    rw [claim_of_free hu, Stream.outstanding, Stream.outstanding, hframes, hrem]
    rfl
  · rw [claim_of_inUse hu]

theorem append_outstanding (st : Stream) (f : Bytes) : (st.append f).outstanding = st.outstanding + 1 := by
  simp only [outstanding_eq, Stream.append, List.length_append, List.length_singleton]
  omega

theorem append_ok {cfg : Config} {st : Stream} {f : Bytes} (h : st.Ok cfg) (hu : st.inUse = true)
    (hf : 20 ≤ f.length ∧ f.length ≤ 16390) : (st.append f).Ok cfg := by
  obtain ⟨hssn, hframes, hrem, -⟩ := h
  refine ⟨hssn, fun g hg => ?_, hrem, fun h0 => ?_⟩
  · rcases List.mem_append.mp hg with hg | hg
    · exact hframes g hg
    · rwa [List.mem_singleton.mp hg]
  · rw [show (st.append f).inUse = st.inUse from rfl, hu] at h0
    cases h0

/-- The table after a frame is accepted into the slot of its destination (R346). -/
theorem streamsOk_accept {dest : Addr} {f : Bytes} {slot : Nat} {st : Stream} (h : s.StreamsOk)
    (hf : 20 ≤ f.length ∧ f.length ≤ 16390) (hslot : streamFor s.streams dest = some slot)
    (hst : s.streams[slot]? = some st) :
    State.StreamsOk { s with streams := s.streams.set slot ((st.claim dest).append f) } := by
  refine streamsOk_set h hst (append_ok (claim_ok (stream_ok h hst) dest) (claim_inUse st dest) hf) fun _ => ?_
  obtain ⟨st', hst', hcase⟩ := streamFor_some hslot
  obtain rfl : st' = st := by rw [hst] at hst'; exact (Option.some.inj hst').symm
  rcases hcase with ⟨hu, -⟩ | ⟨hu, hnone⟩
  · rw [claim_of_inUse hu]; exact .inl ⟨hu, rfl⟩
  · rw [claim_of_free hu]; exact .inr hnone

/-! ## Roles -/

/-- A node in one of the sending states is a master (46_arq_fsm.md R311). -/
theorem master_of_fsm (h : s.RoleOk) (hs : s.fsm ≠ .waitingForSof) (ht : s.fsm ≠ .sendingSack) :
    s.cfg.role = .master := by
  cases hr : s.cfg.role with
  | master => rfl
  | slave =>
    rcases h.2 hr with h | h
    · exact absurd h hs
    · exact absurd h ht

/-- A node in one of the answering states is a slave (46_arq_fsm.md R311). -/
theorem slave_of_fsm (h : s.RoleOk) (hs : s.fsm = .waitingForSof ∨ s.fsm = .sendingSack) :
    s.cfg.role = .slave := by
  cases hr : s.cfg.role with
  | slave => rfl
  | master =>
    obtain ⟨hack, hsof⟩ := h.1 hr
    rcases hs with h | h
    · exact absurd h hsof
    · exact absurd h hack

theorem roleOk_of_master (hr : s.cfg.role = .master) (hack : s.fsm ≠ .sendingSack) (hsof : s.fsm ≠ .waitingForSof) :
    s.RoleOk :=
  ⟨fun _ => ⟨hack, hsof⟩, fun hs => nomatch hr.symm.trans hs⟩

theorem roleOk_of_slave (hr : s.cfg.role = .slave) (h : s.fsm = .waitingForSof ∨ s.fsm = .sendingSack) :
    s.RoleOk :=
  ⟨fun hm => (nomatch hr.symm.trans hm), fun _ => h⟩

/-- An unarmed timer is as it should be (46_arq_fsm.md R313). -/
theorem timerOk_of_unarmed (h : s.timerArmed = false) : s.TimerOk := fun ha => nomatch h.symm.trans ha

/-- Out of `WaitingForSack` the timer is not armed (46_arq_fsm.md R313). -/
theorem unarmed_of_fsm (h : s.TimerOk) (hf : s.fsm ≠ .waitingForSack) : s.timerArmed = false := by
  cases ha : s.timerArmed
  · rfl
  · exact absurd (h ha) hf

/-! ## The effects of an instruction -/

theorem PortChange.inv (h : PortChange s t) (hs : s.Inv) : t.Inv := by
  obtain ⟨_, _, _, _, _, rfl⟩ := h
  exact hs

theorem inv_resetBlock (s : State) : s.resetBlock.Inv := by
  have hout : s.resetBlock.outstanding = 0 := by
    simp [State.outstanding, Stream.outstanding, Stream.free]
  refine ⟨⟨by simp, ?_, ?_⟩, ⟨?_, Nat.zero_le _, ?_⟩, timerOk_of_unarmed rfl, ?_, entryOk_none rfl, ?_⟩
  · intro st hst
    rw [List.eq_of_mem_replicate hst]
    exact free_ok s.cfg
  · rw [State.resetBlock_streams, List.pairwise_replicate]
    exact .inr fun h => by cases h
  · rw [hout]; exact Nat.zero_le _
  · simp [maxFramesInBuffer]
  · cases hr : s.cfg.role with
    | master => exact roleOk_of_master hr (by simp [hr, resetFsm]) (by simp [hr, resetFsm])
    | slave => exact roleOk_of_slave hr (.inl (by simp [hr, resetFsm]))
  · exact Nat.zero_le _

/-- Receiving writes the entry, which stays an incomplete frame, and nothing else of the invariant. -/
theorem inv_reassemble (h : s.Inv) (burst : Bytes) : (s.reassemble burst).Inv := by
  obtain ⟨hstreams, hqueue, htimer, hrole, hentry, hsack⟩ := h
  have hentry' := entryOk_reassemble hentry burst
  obtain ⟨_, _, _, _, _, -, hr⟩ := reassemble_change s burst
  rw [hr] at hentry' ⊢
  exact ⟨hstreams, hqueue, htimer, hrole, hentry', hsack⟩

/-- SEGMENT on its own: fewer frames are outstanding while the count is not written (log entry 16). -/
theorem inv_segment {slot : Nat} {st : Stream} (h : s.Inv) (hst : s.streams[slot]? = some st) :
    State.Inv { s with streams := s.streams.set slot (segment s.cfg st).stream } := by
  obtain ⟨hstreams, ⟨hcount, hmax, hfull⟩, htimer, hrole, hentry, hsack⟩ := h
  have hout := outstanding_segment hst
  exact ⟨streamsOk_segment hstreams hst, ⟨by simp only [State.outstanding]; omega, hmax, hfull⟩,
    htimer, hrole, hentry, hsack⟩

/-- An accepted frame is one more outstanding and one more counted (47_txqueue_mgmt_interface.md R340, R341). -/
theorem inv_accepts {u : State} (h : s.Inv) (ha : s.Accepts u) : u.Inv := by
  obtain ⟨dest, f, slot, st, hf, hlen, hslot, hst, rfl⟩ := ha.eq_update
  obtain ⟨hstreams, ⟨hcount, hmax, hfull⟩, htimer, hrole, hentry, hsack⟩ := h
  have hlt : s.inflight ≠ maxFramesInBuffer := fun he => nomatch hf.symm.trans (hfull.mpr he)
  have hout := outstanding_set hst ((st.claim dest).append f)
  rw [append_outstanding, claim_outstanding (stream_ok hstreams hst)] at hout
  refine ⟨streamsOk_accept hstreams hlen hslot hst, ⟨?_, ?_, ?_⟩, htimer, hrole, hentry, hsack⟩
  · simp only [State.outstanding]; omega
  · simp only; omega
  · simp only [decide_eq_true_eq]; omega

/-- The send path of a master whose timer is not armed (46_arq_fsm.md R300 to R303). -/
theorem inv_sendPath (h : s.Inv) (hu : s.timerArmed = false) (hm : s.cfg.role = .master) : s.sendPath.Inv := by
  obtain ⟨hstreams, hqueue, -, -, hentry, hsack⟩ := h
  rcases sendPath_sends s with ⟨-, hs⟩ | ⟨-, -, _, -, hs⟩ | ⟨i, st, hst, -, -, hs⟩ <;> rw [hs]
  · exact ⟨hstreams, hqueue, timerOk_of_unarmed hu, roleOk_of_master hm (by simp) (by simp), hentry, hsack⟩
  · exact ⟨hstreams, hqueue, timerOk_of_unarmed hu, roleOk_of_master hm (by simp) (by simp), hentry, hsack⟩
  · obtain ⟨hcount, hmax, hfull⟩ := hqueue
    have hout := outstanding_segment hst
    refine ⟨streamsOk_segment hstreams hst, ⟨?_, ?_, ?_⟩, timerOk_of_unarmed hu,
      roleOk_of_master hm (by simp) (by simp), hentry, hsack⟩
    · simp only [State.outstanding]; omega
    · simp only; omega
    · simp only [Bool.and_eq_true, decide_eq_true_eq, hfull]; omega

/-- Disarming keeps the invariant, and so does an errored count within its range. -/
theorem inv_disarmTimer (h : s.Inv) {e : BitVec 32} (he : e.toNat ≤ maxSegments) :
    State.Inv { s.disarmTimer with lastSackErrored := e } := by
  obtain ⟨hstreams, hqueue, -, hrole, hentry, -⟩ := h
  exact ⟨hstreams, hqueue, timerOk_of_unarmed rfl, hrole, hentry, he⟩

/-- The send path once the wait for a SACK is over (46_arq_fsm.md R298, R306): only a master waits for one. -/
theorem inv_sendPath_after_wait {u : State} {e : BitVec 32} (h : s.Inv) (hf : s.fsm = .waitingForSack)
    (he : e.toNat ≤ maxSegments) (hp : PortChange { s.disarmTimer with lastSackErrored := e } u) :
    u.sendPath.Inv := by
  have ⟨_, _, _, hrole, _, _⟩ := h
  have hm := master_of_fsm hrole (by simp [hf]) (by simp [hf])
  have hu := hp.inv (inv_disarmTimer h he)
  obtain ⟨_, _, _, _, _, rfl⟩ := hp
  exact inv_sendPath hu rfl hm

theorem ExecEffect.inv (h : ExecEffect s t) (hs : s.Inv) : t.Inv := by
  have ⟨hstreams, hqueue, htimer, hrole, hentry, hsack⟩ := hs
  cases h with
  | ports hp => exact hp.inv hs
  | reset => exact inv_resetBlock s
  | received burst hp => exact hp.inv (inv_reassemble hs burst)
  | errorsCleared => exact hs
  | segmented hst hp => exact hp.inv (inv_segment hs hst)
  | accepted ha => exact inv_accepts hs ha
  | acceptedAndSent hf ha =>
    have hu := inv_accepts hs ha
    have hm := master_of_fsm hrole (by simp [hf]) (by simp [hf])
    have hun := unarmed_of_fsm htimer (by simp [hf])
    obtain ⟨_, _, _, _, -, -, -, -, rfl⟩ := ha.eq_update
    exact inv_sendPath hu hun hm
  | sackReceived e _ he hp =>
    have he : e.toNat ≤ maxSegments := by
      rcases he with rfl | he
      · exact hsack
      · exact he
    exact hp.inv (inv_disarmTimer hs he)
  | windowClosed hf hp => exact hp.inv (inv_sendPath_after_wait hs hf hsack (.refl _))
  | answered hf hp =>
    have hr := slave_of_fsm hrole (.inl hf)
    have hun := unarmed_of_fsm htimer (by simp [hf])
    exact hp.inv
      ⟨hstreams, hqueue, timerOk_of_unarmed hun, roleOk_of_slave hr (.inr rfl), hentry, hsack⟩
  | burstEnded hf =>
    have hm := master_of_fsm hrole (by simp [hf]) (by simp [hf])
    exact ⟨hstreams, hqueue, fun _ => rfl, roleOk_of_master hm (by simp) (by simp), hentry, hsack⟩
  | sackEnded hf =>
    have hr := slave_of_fsm hrole (.inr hf)
    have hun := unarmed_of_fsm htimer (by simp [hf])
    exact ⟨hstreams, hqueue, timerOk_of_unarmed hun, roleOk_of_slave hr (.inl rfl), hentry, hsack⟩
  | expired ha hp =>
    have he : (s.lastFrameBlockCount.setWidth 32).toNat ≤ maxSegments := by
      have := s.lastFrameBlockCount.isLt
      rw [BitVec.toNat_setWidth, maxSegments]
      omega
    exact inv_sendPath_after_wait hs (htimer ha) he hp

/-- Settles O57: latching an input writes nothing the invariant speaks of, and every effect of an instruction
keeps it. -/
theorem stepKeepsTheInvariant : Obligations.StepKeepsTheInvariant := by
  intro s t hs h
  rcases step_cases h with rfl | ⟨i, later, he⟩
  · exact hs
  · exact he.inv (s := s.beginStep i later) hs

end Sys2Proof.Machine
end

section
/-! SUPPORT. A step that runs an instruction: the one the oldest input's message decodes to, in the state that
input is latched into (20_memory.md R78, R81). -/

namespace Sys2Proof.Machine

variable {s : State} {i : Input} {later : List Input} {instr : Instr}

/-- A step on an input that is not early and whose message is an instruction (46_arq_fsm.md R291). -/
theorem step_of_decode (hinbox : s.inbox = i :: later) (htime : s.now ≤ i.now)
    (hdecode : decode i.port i.bytes = .ok instr) : step s = exec instr (s.beginStep i later) := by
  have htimely : ¬ i.now < s.now := Nat.not_lt.mpr htime
  simp only [step, hinbox, if_neg htimely, hdecode]

/-- Settles O5: neither refusal applies, and the state the instruction runs in is the latched one, whose updates
are the ones named. -/
theorem stepRunsTheDecodedInstruction : Obligations.StepRunsTheDecodedInstruction := by
  intro s i later instr hinbox htime hdecode
  calc step s
    _ = exec instr (s.beginStep i later) := step_of_decode hinbox htime hdecode
    _ = exec instr { s with
          now := i.now, draw := i.draw, inbox := later
          outputs := [], reports := [], result := .none, boundsFault := none } := rfl

end Sys2Proof.Machine
end

section
/-! SUPPORT. The decoder and the encoder as one relation (30_encoding.md R105 to R110): `decode_eq_ok_iff`. Each
operand reader answers exactly on the bytes the encoder writes for its operand, so each row of the table does, and
so does the decoder on each port. -/

namespace Sys2Proof

open Machine

/-! ## Operand readers -/

theorem bind_eq_ok {α β : Type} {x : Except DecodeError α} {f : α → Except DecodeError β} {y : β} :
    x >>= f = .ok y ↔ ∃ a, x = .ok a ∧ f a = .ok y := by
  cases x <;> simp [bind, Except.bind]

theorem take32_eq_ok {b r : Bytes} {n : Nat} : take32 b = .ok (n, r) ↔ n < 2 ^ 32 ∧ b = leBytes 4 n ++ r := by
  refine ⟨fun h => (take32_ok h).symm, ?_⟩
  rintro ⟨hn, rfl⟩
  exact take32_leBytes hn r

theorem take16_eq_ok {b r : Bytes} {n : Nat} : take16 b = .ok (n, r) ↔ n < 2 ^ 16 ∧ b = leBytes 2 n ++ r := by
  refine ⟨fun h => (take16_ok h).symm, ?_⟩
  rintro ⟨hn, rfl⟩
  exact take16_leBytes hn r

theorem takeFlag_eq_ok {b r : Bytes} {f : Bool} : takeFlag b = .ok (f, r) ↔ b = encodeFlag f :: r := by
  refine ⟨takeFlag_ok, ?_⟩
  rintro rfl
  exact takeFlag_encodeFlag f r

theorem takeFlags_eq_ok {b : Bytes} {fs : List Bool} : takeFlags b = .ok fs ↔ b = fs.map encodeFlag := by
  refine ⟨takeFlags_ok, ?_⟩
  rintro rfl
  exact takeFlags_map fs

theorem takeAddr_eq_ok {b r : Bytes} {a : Addr} : takeAddr b = .ok (a, r) ↔ b = a.bytes ++ r := by
  refine ⟨takeAddr_ok, ?_⟩
  rintro rfl
  exact takeAddr_bytes a r

theorem takeConfounder_eq_ok {b r : Bytes} {c : Confounder} : takeConfounder b = .ok (c, r) ↔ b = c.bytes ++ r := by
  refine ⟨takeConfounder_ok, ?_⟩
  rintro rfl
  exact takeConfounder_bytes c r

theorem takeString_eq_ok {b r s : Bytes} :
    takeString b = .ok (s, r) ↔ s.length < 2 ^ 32 ∧ b = encodeString s ++ r := by
  refine ⟨fun h => (takeString_ok h).symm, ?_⟩
  rintro ⟨hs, rfl⟩
  exact takeString_encodeString hs r

theorem finish_eq_ok {r : Bytes} {i j : Instr} : finish r i = .ok j ↔ r = [] ∧ j = i := by
  refine ⟨finish_ok, ?_⟩
  rintro ⟨rfl, rfl⟩
  exact finish_nil j

theorem checked_eq_ok {i j : Instr} : checked i = .ok j ↔ j = i ∧ i.wellFormed = true := by
  refine ⟨checked_ok, ?_⟩
  rintro ⟨rfl, hw⟩
  exact checked_of_wellFormed hw

/-- A number that was read as `w` bits is the value of those bits. -/
theorem toNat_ofNat_of_lt {w n : Nat} (h : n < 2 ^ w) : (BitVec.ofNat w n).toNat = n := by
  rw [BitVec.toNat_ofNat, Nat.mod_eq_of_lt h]

/-! ## Rows of the table

The operand bytes each row's decoder accepts and the instruction it answers. -/

section Rows

variable {b : Bytes} {i : Instr}

theorem decodeSubmit_eq_ok {mk : Addr → Bytes → Instr} :
    decodeSubmit mk b = .ok i ↔ ∃ dest p, b = dest.bytes ++ p ∧ i = mk dest p := by
  simp only [decodeSubmit, bind_eq_ok, Prod.exists, takeAddr_eq_ok, Except.ok.injEq, eq_comm (b := i)]

theorem decodeTimerExpire_eq_ok :
    decodeTimerExpire b = .ok i ↔ ∃ gen : BitVec 32, b = leBytes 4 gen.toNat ∧ i = .timerExpire gen := by
  simp only [decodeTimerExpire, bind_eq_ok, Prod.exists, take32_eq_ok, finish_eq_ok]
  constructor
  · rintro ⟨n, _, ⟨hn, rfl⟩, rfl, rfl⟩
    exact ⟨BitVec.ofNat 32 n, by rw [toNat_ofNat_of_lt hn, List.append_nil], rfl⟩
  · rintro ⟨gen, rfl, rfl⟩
    exact ⟨gen.toNat, [], ⟨gen.isLt, by simp⟩, rfl, by simp⟩

theorem decodeSetField_eq_ok :
    decodeSetField b = .ok i ↔ ∃ buf, ∃ v : BitVec 32, ∃ o w, buf.length < 2 ^ 32 ∧ o < 2 ^ 32 ∧ w < 2 ^ 32 ∧
      b = encodeString buf ++ leBytes 4 v.toNat ++ leBytes 4 o ++ leBytes 4 w ∧ i = .setField buf v o w := by
  simp only [decodeSetField, bind_eq_ok, Prod.exists, takeString_eq_ok, take32_eq_ok, finish_eq_ok]
  constructor
  · rintro ⟨buf, _, ⟨hbuf, rfl⟩, v, _, ⟨hv, rfl⟩, o, _, ⟨ho, rfl⟩, w, _, ⟨hw, rfl⟩, rfl, rfl⟩
    exact ⟨buf, BitVec.ofNat 32 v, o, w, hbuf, ho, hw, by simp [toNat_ofNat_of_lt hv], rfl⟩
  · rintro ⟨buf, v, o, w, hbuf, ho, hw, rfl, rfl⟩
    exact ⟨buf, _, ⟨hbuf, by simp only [List.append_assoc]⟩, v.toNat, _, ⟨v.isLt, rfl⟩, o, leBytes 4 w, ⟨ho, rfl⟩,
      w, [], ⟨hw, by simp⟩, rfl, by simp⟩

theorem decodeGetField_eq_ok :
    decodeGetField b = .ok i ↔ ∃ buf o w, buf.length < 2 ^ 32 ∧ o < 2 ^ 32 ∧ w < 2 ^ 32 ∧
      b = encodeString buf ++ leBytes 4 o ++ leBytes 4 w ∧ i = .getField buf o w := by
  simp only [decodeGetField, bind_eq_ok, Prod.exists, takeString_eq_ok, take32_eq_ok, finish_eq_ok]
  constructor
  · rintro ⟨buf, _, ⟨hbuf, rfl⟩, o, _, ⟨ho, rfl⟩, w, _, ⟨hw, rfl⟩, rfl, rfl⟩
    exact ⟨buf, o, w, hbuf, ho, hw, by simp, rfl⟩
  · rintro ⟨buf, o, w, hbuf, ho, hw, rfl, rfl⟩
    exact ⟨buf, _, ⟨hbuf, by rw [List.append_assoc]⟩, o, leBytes 4 w, ⟨ho, rfl⟩, w, [], ⟨hw, by simp⟩, rfl, rfl⟩

theorem decodeSetBytes_eq_ok :
    decodeSetBytes b = .ok i ↔ ∃ buf s k, buf.length < 2 ^ 32 ∧ s.length < 2 ^ 32 ∧ k < 2 ^ 32 ∧
      b = encodeString buf ++ encodeString s ++ leBytes 4 k ∧ i = .setBytes buf s k := by
  simp only [decodeSetBytes, bind_eq_ok, Prod.exists, takeString_eq_ok, take32_eq_ok, finish_eq_ok]
  constructor
  · rintro ⟨buf, _, ⟨hbuf, rfl⟩, s, _, ⟨hs, rfl⟩, k, _, ⟨hk, rfl⟩, rfl, rfl⟩
    exact ⟨buf, s, k, hbuf, hs, hk, by simp, rfl⟩
  · rintro ⟨buf, s, k, hbuf, hs, hk, rfl, rfl⟩
    exact ⟨buf, _, ⟨hbuf, by rw [List.append_assoc]⟩, s, leBytes 4 k, ⟨hs, rfl⟩, k, [], ⟨hk, by simp⟩, rfl, rfl⟩

theorem decodeGetBytes_eq_ok :
    decodeGetBytes b = .ok i ↔ ∃ buf k n, buf.length < 2 ^ 32 ∧ k < 2 ^ 32 ∧ n < 2 ^ 32 ∧
      b = encodeString buf ++ leBytes 4 k ++ leBytes 4 n ∧ i = .getBytes buf k n := by
  simp only [decodeGetBytes, bind_eq_ok, Prod.exists, takeString_eq_ok, take32_eq_ok, finish_eq_ok]
  constructor
  · rintro ⟨buf, _, ⟨hbuf, rfl⟩, k, _, ⟨hk, rfl⟩, n, _, ⟨hn, rfl⟩, rfl, rfl⟩
    exact ⟨buf, k, n, hbuf, hk, hn, by simp, rfl⟩
  · rintro ⟨buf, k, n, hbuf, hk, hn, rfl, rfl⟩
    exact ⟨buf, _, ⟨hbuf, by rw [List.append_assoc]⟩, k, leBytes 4 n, ⟨hk, rfl⟩, n, [], ⟨hn, by simp⟩, rfl, rfl⟩

theorem decodeMacEncode_eq_ok :
    decodeMacEncode b = .ok i ↔ ∃ dest p, p.length < 2 ^ 32 ∧
      ((b = dest.bytes ++ encodeString p ++ [encodeFlag false] ∧ i = .macEncode dest p none) ∨
        ∃ c : Confounder, b = dest.bytes ++ encodeString p ++ [encodeFlag true] ++ c.bytes ∧
          i = .macEncode dest p (some c)) := by
  simp only [decodeMacEncode, bind_eq_ok, Prod.exists, takeAddr_eq_ok, takeString_eq_ok, takeFlag_eq_ok]
  constructor
  · rintro ⟨dest, _, rfl, p, _, ⟨hp, rfl⟩, mgmt, r, rfl, h⟩
    refine ⟨dest, p, hp, ?_⟩
    cases mgmt with
    | false =>
      obtain ⟨rfl, rfl⟩ := finish_eq_ok.mp h
      exact .inl ⟨by simp, rfl⟩
    | true =>
      simp only [if_true, bind_eq_ok, Prod.exists, takeConfounder_eq_ok, finish_eq_ok] at h
      obtain ⟨c, _, rfl, rfl, rfl⟩ := h
      exact .inr ⟨c, by simp, rfl⟩
  · rintro ⟨dest, p, hp, ⟨rfl, rfl⟩ | ⟨c, rfl, rfl⟩⟩
    · exact ⟨dest, _, by rw [List.append_assoc], p, [encodeFlag false], ⟨hp, rfl⟩, false, [], rfl, rfl⟩
    · exact ⟨dest, _, by simp only [List.append_assoc], p, [encodeFlag true] ++ c.bytes, ⟨hp, rfl⟩, true, c.bytes, rfl, rfl⟩

theorem decodeSegment_eq_ok :
    decodeSegment b = .ok i ↔ ∃ slot < 2 ^ 32, b = leBytes 4 slot ∧ i = .segment slot := by
  simp only [decodeSegment, bind_eq_ok, Prod.exists, take32_eq_ok, finish_eq_ok]
  constructor
  · rintro ⟨slot, _, ⟨hslot, rfl⟩, rfl, rfl⟩
    exact ⟨slot, hslot, by simp, rfl⟩
  · rintro ⟨slot, hslot, rfl, rfl⟩
    exact ⟨slot, [], ⟨hslot, by simp⟩, rfl, rfl⟩

theorem decodeSackEncode_eq_ok :
    decodeSackEncode b = .ok i ↔ ∃ errs : List Bool, b = errs.map encodeFlag ∧ i = .sackEncode errs := by
  simp only [decodeSackEncode, bind_eq_ok, takeFlags_eq_ok, Except.ok.injEq, eq_comm (b := i)]

theorem decodeSackDecode_eq_ok :
    decodeSackDecode b = .ok i ↔ ∃ s n, s.length < 2 ^ 32 ∧ n < 2 ^ 32 ∧
      b = encodeString s ++ leBytes 4 n ∧ i = .sackDecode s n := by
  simp only [decodeSackDecode, bind_eq_ok, Prod.exists, takeString_eq_ok, take32_eq_ok, finish_eq_ok]
  constructor
  · rintro ⟨s, _, ⟨hs, rfl⟩, n, _, ⟨hn, rfl⟩, rfl, rfl⟩
    exact ⟨s, n, hs, hn, by simp, rfl⟩
  · rintro ⟨s, n, hs, hn, rfl, rfl⟩
    exact ⟨s, _, ⟨hs, rfl⟩, n, [], ⟨hn, by simp⟩, rfl, rfl⟩

/-- The operands of 32 and 16 bits that are no counter and no offset are refused, so no bit of them is dropped. -/
theorem decodeBlockBuild_eq_ok :
    decodeBlockBuild b = .ok i ↔ ∃ (ssn : BitVec 17) (mbo : BitVec 9) (f : Bool) (body : Bytes),
      b = leBytes 4 ssn.toNat ++ leBytes 2 mbo.toNat ++ [encodeFlag f] ++ body ∧ i = .blockBuild ssn mbo f body := by
  simp only [decodeBlockBuild, bind_eq_ok, Prod.exists, take32_eq_ok, take16_eq_ok, takeFlag_eq_ok]
  constructor
  · rintro ⟨ssn, _, ⟨-, rfl⟩, mbo, _, ⟨-, rfl⟩, f, body, rfl, h⟩
    split at h
    · cases h
    split at h
    · cases h
    · next hssn hmbo =>
      cases h
      exact ⟨BitVec.ofNat 17 ssn, BitVec.ofNat 9 mbo, f, body,
        by simp [toNat_ofNat_of_lt (w := 17) (Nat.not_le.mp hssn), toNat_ofNat_of_lt (w := 9) (Nat.not_le.mp hmbo)], rfl⟩
  · rintro ⟨ssn, mbo, f, body, rfl, rfl⟩
    have hssn := ssn.isLt
    have hmbo := mbo.isLt
    refine ⟨ssn.toNat, _, ⟨by omega, by simp⟩, mbo.toNat, _, ⟨by omega, rfl⟩, f, body, rfl, ?_⟩
    rw [if_neg (by omega), if_neg (by omega)]
    simp

end Rows

/-! ## Operand ranges -/

theorem wellFormed_setField {buf : Bytes} {v : BitVec 32} {o w : Nat} :
    (Instr.setField buf v o w).wellFormed = true ↔ buf.length < 2 ^ 32 ∧ o < 2 ^ 32 ∧ w ≤ 32 := by
  simp [Instr.wellFormed, Instr.checks]

theorem wellFormed_getField {buf : Bytes} {o w : Nat} :
    (Instr.getField buf o w).wellFormed = true ↔ buf.length < 2 ^ 32 ∧ o < 2 ^ 32 ∧ w ≤ 32 := by
  simp [Instr.wellFormed, Instr.checks]

theorem wellFormed_setBytes {buf s : Bytes} {k : Nat} :
    (Instr.setBytes buf s k).wellFormed = true ↔ buf.length < 2 ^ 32 ∧ s.length < 2 ^ 32 ∧ k < 2 ^ 32 := by
  simp [Instr.wellFormed, Instr.checks]

theorem wellFormed_getBytes {buf : Bytes} {k n : Nat} :
    (Instr.getBytes buf k n).wellFormed = true ↔ buf.length < 2 ^ 32 ∧ k < 2 ^ 32 ∧ n < 2 ^ 32 := by
  simp [Instr.wellFormed, Instr.checks]

theorem wellFormed_macEncode {dest : Addr} {p : Bytes} {c : Option Confounder} :
    (Instr.macEncode dest p c).wellFormed = true ↔ p.length < 2 ^ 32 := by
  simp [Instr.wellFormed, Instr.checks]

theorem wellFormed_segment {slot : Nat} : (Instr.segment slot).wellFormed = true ↔ slot < 2 ^ 32 := by
  simp [Instr.wellFormed, Instr.checks]

theorem wellFormed_sackDecode {s : Bytes} {n : Nat} :
    (Instr.sackDecode s n).wellFormed = true ↔ s.length < 2 ^ 32 ∧ n < 2 ^ 32 := by
  simp [Instr.wellFormed, Instr.checks]

/-! ## The code port -/

theorem eq_ofNat_of_toNat {c : Byte} {n : Nat} (h : c.toNat = n) : c = BitVec.ofNat 8 n := by
  rw [← h, BitVec.ofNat_toNat, BitVec.setWidth_eq]

/-- What decodes under a code is an instruction of the code port whose message begins with that code. -/
theorem encode_of_decodeCode {c : Byte} {b : Bytes} {i : Instr} (h : decodeCode c b = .ok i) :
    i.port = .code ∧ encode i = c :: b := by
  unfold decodeCode at h
  split at h
  -- the rows without operands
  case h_1 hc | h_6 hc | h_7 hc | h_8 hc | h_23 hc | h_25 hc | h_28 hc =>
    obtain rfl := eq_ofNat_of_toNat hc
    obtain ⟨rfl, rfl⟩ := finish_ok h
    exact ⟨rfl, rfl⟩
  -- the rows of one byte string
  case h_4 hc | h_5 hc | h_14 hc | h_16 hc | h_18 hc | h_22 hc | h_24 hc | h_26 hc | h_27 hc =>
    obtain rfl := eq_ofNat_of_toNat hc
    cases h
    exact ⟨rfl, rfl⟩
  case h_2 hc | h_3 hc =>
    obtain rfl := eq_ofNat_of_toNat hc
    obtain ⟨dest, p, rfl, rfl⟩ := decodeSubmit_eq_ok.mp h
    exact ⟨rfl, rfl⟩
  case h_9 hc =>
    obtain rfl := eq_ofNat_of_toNat hc
    obtain ⟨gen, rfl, rfl⟩ := decodeTimerExpire_eq_ok.mp h
    exact ⟨rfl, rfl⟩
  case h_10 hc =>
    obtain rfl := eq_ofNat_of_toNat hc
    obtain ⟨buf, v, o, w, -, -, -, rfl, rfl⟩ := decodeSetField_eq_ok.mp h
    exact ⟨rfl, rfl⟩
  case h_11 hc =>
    obtain rfl := eq_ofNat_of_toNat hc
    obtain ⟨buf, o, w, -, -, -, rfl, rfl⟩ := decodeGetField_eq_ok.mp h
    exact ⟨rfl, rfl⟩
  case h_12 hc =>
    obtain rfl := eq_ofNat_of_toNat hc
    obtain ⟨buf, s, k, -, -, -, rfl, rfl⟩ := decodeSetBytes_eq_ok.mp h
    exact ⟨rfl, rfl⟩
  case h_13 hc =>
    obtain rfl := eq_ofNat_of_toNat hc
    obtain ⟨buf, k, n, -, -, -, rfl, rfl⟩ := decodeGetBytes_eq_ok.mp h
    exact ⟨rfl, rfl⟩
  case h_15 hc =>
    obtain rfl := eq_ofNat_of_toNat hc
    obtain ⟨dest, p, -, ⟨rfl, rfl⟩ | ⟨c, rfl, rfl⟩⟩ := decodeMacEncode_eq_ok.mp h
    · exact ⟨rfl, rfl⟩
    · exact ⟨rfl, rfl⟩
  case h_17 hc =>
    obtain rfl := eq_ofNat_of_toNat hc
    obtain ⟨slot, -, rfl, rfl⟩ := decodeSegment_eq_ok.mp h
    exact ⟨rfl, rfl⟩
  case h_19 hc =>
    obtain rfl := eq_ofNat_of_toNat hc
    obtain ⟨errs, rfl, rfl⟩ := decodeSackEncode_eq_ok.mp h
    exact ⟨rfl, rfl⟩
  case h_20 hc =>
    obtain rfl := eq_ofNat_of_toNat hc
    obtain ⟨s, n, -, -, rfl, rfl⟩ := decodeSackDecode_eq_ok.mp h
    exact ⟨rfl, rfl⟩
  case h_21 hc =>
    obtain rfl := eq_ofNat_of_toNat hc
    obtain ⟨ssn, mbo, f, body, rfl, rfl⟩ := decodeBlockBuild_eq_ok.mp h
    exact ⟨rfl, rfl⟩
  case h_29 => split_ifs at h

/-- The message of a well-formed instruction of the code port decodes to it, by its row. -/
theorem decodeCode_of_encode {c : Byte} {b : Bytes} {i : Instr} (hw : i.wellFormed = true) (hp : i.port = .code)
    (h : encode i = c :: b) : decodeCode c b = .ok i := by
  cases i with
  | reset | phyRxSound | phyRxEnd | phyTxEnd | sound | searchPpdu | ready => cases h; rfl
  | phyRxSof | phyRxSack | sof | sack | appRx | mgmtRx | crc32 | macDecode | reassemble => cases h; rfl
  | appSubmit dest p | mgmtSubmit dest p =>
    cases h
    exact decodeSubmit_eq_ok.mpr ⟨dest, p, rfl, rfl⟩
  | timerExpire gen =>
    cases h
    exact decodeTimerExpire_eq_ok.mpr ⟨gen, rfl, rfl⟩
  | setField buf v o w =>
    cases h
    obtain ⟨hbuf, ho, hwidth⟩ := wellFormed_setField.mp hw
    exact decodeSetField_eq_ok.mpr ⟨buf, v, o, w, hbuf, ho, by omega, rfl, rfl⟩
  | getField buf o w =>
    cases h
    obtain ⟨hbuf, ho, hwidth⟩ := wellFormed_getField.mp hw
    exact decodeGetField_eq_ok.mpr ⟨buf, o, w, hbuf, ho, by omega, rfl, rfl⟩
  | setBytes buf s k =>
    cases h
    obtain ⟨hbuf, hs, hk⟩ := wellFormed_setBytes.mp hw
    exact decodeSetBytes_eq_ok.mpr ⟨buf, s, k, hbuf, hs, hk, rfl, rfl⟩
  | getBytes buf k n =>
    cases h
    obtain ⟨hbuf, hk, hn⟩ := wellFormed_getBytes.mp hw
    exact decodeGetBytes_eq_ok.mpr ⟨buf, k, n, hbuf, hk, hn, rfl, rfl⟩
  | macEncode dest p confounder =>
    have hlen := wellFormed_macEncode.mp hw
    cases confounder with
    | none =>
      cases h
      exact decodeMacEncode_eq_ok.mpr ⟨dest, p, hlen, .inl ⟨rfl, rfl⟩⟩
    | some x =>
      cases h
      exact decodeMacEncode_eq_ok.mpr ⟨dest, p, hlen, .inr ⟨x, rfl, rfl⟩⟩
  | segment slot =>
    cases h
    exact decodeSegment_eq_ok.mpr ⟨slot, wellFormed_segment.mp hw, rfl, rfl⟩
  | sackEncode errs =>
    cases h
    exact decodeSackEncode_eq_ok.mpr ⟨errs, rfl, rfl⟩
  | sackDecode s n =>
    cases h
    obtain ⟨hs, hn⟩ := wellFormed_sackDecode.mp hw
    exact decodeSackDecode_eq_ok.mpr ⟨s, n, hs, hn, rfl, rfl⟩
  | blockBuild ssn mbo f body =>
    cases h
    exact decodeBlockBuild_eq_ok.mpr ⟨ssn, mbo, f, body, rfl, rfl⟩
  | mfhData | mfhMgmt | mfhPad | mfhReserved | sackPayload | phyBlockHeader => cases hp

/-- Every message of the code port begins with a code. -/
theorem encode_ne_nil {i : Instr} (hp : i.port = .code) : encode i ≠ [] := by
  cases i
  case macEncode _ _ confounder => cases confounder <;> exact List.cons_ne_nil _ _
  case mfhData | mfhMgmt | mfhPad | mfhReserved | sackPayload | phyBlockHeader => cases hp
  all_goals exact List.cons_ne_nil _ _

theorem decode_code_eq_ok {b : Bytes} {i : Instr} :
    decode .code b = .ok i ↔ i.wellFormed = true ∧ i.port = .code ∧ encode i = b := by
  cases b with
  | nil =>
    refine ⟨fun h => (nomatch h), ?_⟩
    rintro ⟨-, hp, h⟩
    exact absurd h (encode_ne_nil hp)
  | cons c b =>
    have hdec : decode .code (c :: b) = decodeCode c b >>= checked := rfl
    rw [hdec, bind_eq_ok]
    constructor
    · rintro ⟨j, hj, hcheck⟩
      obtain ⟨rfl, hw⟩ := checked_eq_ok.mp hcheck
      exact ⟨hw, encode_of_decodeCode hj⟩
    · rintro ⟨hw, hp, h⟩
      exact ⟨i, decodeCode_of_encode hw hp h, checked_of_wellFormed hw⟩

/-! ## The ports of the wire structures -/

/-- The instruction of an MFH by its `type` field (30_encoding.md R98). -/
def mfhRow (type : Nat) (len : BitVec 14) (rest : Bytes) : Instr :=
  if type = typePad then .mfhPad len rest
  else if type = typeData then .mfhData len rest
  else if type = typeReserved then .mfhReserved len rest
  else .mfhMgmt len rest

theorem decodeMfh_eq_mfhRow (m0 m1 : Byte) (rest : Bytes) :
    decodeMfh m0 m1 rest = mfhRow (mfhType false [m0, m1]) (BitVec.ofNat 14 (mfhLen false [m0, m1])) rest := by
  have ht := mfhType_lt false [m0, m1]
  unfold decodeMfh
  generalize mfhType false [m0, m1] = type at ht ⊢
  interval_cases type <;> rfl

/-- A row of an MFH is well-formed, of the MFH port, and its message is its MFH and the bytes after it. -/
theorem mfhRow_encode {type : Nat} (ht : type < 4) (len : BitVec 14) (rest : Bytes) :
    (mfhRow type len rest).wellFormed = true ∧ (mfhRow type len rest).port = .mfh ∧
      encode (mfhRow type len rest) = mfhBytes false type len.toNat ++ rest := by
  interval_cases type <;> exact ⟨rfl, rfl, rfl⟩

theorem decode_mfhBytes {type : Nat} (ht : type < 4) (len : BitVec 14) (rest : Bytes) :
    decode .mfh (mfhBytes false type len.toNat ++ rest) = .ok (mfhRow type len rest) := by
  obtain ⟨m0, m1, hm⟩ := List.length_eq_two.mp (mfhBytes_length false type len.toNat)
  have htype := mfhType_mfhBytes false (l := len.toNat) ht []
  have hlen := mfhLen_mfhBytes false (t := type) len.isLt []
  rw [List.append_nil, hm] at htype hlen
  have hdec : decode .mfh ([m0, m1] ++ rest) = .ok (decodeMfh m0 m1 rest) := rfl
  rw [hm, hdec, decodeMfh_eq_mfhRow, htype, hlen, BitVec.ofNat_toNat, BitVec.setWidth_eq]

theorem decode_mfh_eq_ok {b : Bytes} {i : Instr} :
    decode .mfh b = .ok i ↔ i.wellFormed = true ∧ i.port = .mfh ∧ encode i = b := by
  constructor
  · intro h
    match b, h with
    | m0 :: m1 :: rest, h =>
      cases h
      rw [decodeMfh_eq_mfhRow]
      obtain ⟨hw, hp, henc⟩ := mfhRow_encode (mfhType_lt false [m0, m1])
        (BitVec.ofNat 14 (mfhLen false [m0, m1])) rest
      refine ⟨hw, hp, ?_⟩
      rw [henc, toNat_ofNat_of_lt (mfhLen_lt false _), mfhBytes_fields]
      rfl
  · rintro ⟨-, hp, rfl⟩
    cases i with
    | mfhPad len rest => exact decode_mfhBytes (type := typePad) (by decide) len rest
    | mfhData len rest => exact decode_mfhBytes (type := typeData) (by decide) len rest
    | mfhReserved len rest => exact decode_mfhBytes (type := typeReserved) (by decide) len rest
    | mfhMgmt len rest => exact decode_mfhBytes (type := typeMgmt) (by decide) len rest
    | _ => cases hp

theorem decode_blockHeader_eq_ok {b : Bytes} {i : Instr} :
    decode .blockHeader b = .ok i ↔ i.wellFormed = true ∧ i.port = .blockHeader ∧ encode i = b := by
  constructor
  · intro h
    match b, h with
    | h0 :: h1 :: h2 :: h3 :: rest, h =>
      cases h
      refine ⟨rfl, rfl, ?_⟩
      rw [encode, headerBytes_headerFields rfl]
      rfl
  · rintro ⟨-, hp, rfl⟩
    cases i with
    | phyBlockHeader hdr rest =>
      rw [encode]
      obtain ⟨h0, h1, h2, h3, hb⟩ := List.length_eq_four.mp (headerBytes_length hdr)
      have hfields := headerFields_headerBytes hdr []
      rw [List.append_nil, hb] at hfields
      rw [hb, ← hfields]
      rfl
    | _ => cases hp

theorem decode_sack_eq_ok {b : Bytes} {i : Instr} :
    decode .sack b = .ok i ↔ i.wellFormed = true ∧ i.port = .sack ∧ encode i = b := by
  constructor
  · intro h
    match b, h with
    | tag :: bitmap, h =>
      simp only [decode] at h
      split at h
      · next htag =>
        cases h
        exact ⟨rfl, rfl, by rw [htag, encode]⟩
      · cases h
  · rintro ⟨-, hp, rfl⟩
    cases i with
    | sackPayload bitmap => rfl
    | _ => cases hp

/-! ## The decoder -/

/-- The decoder answers exactly the well-formed instructions of the port, each on its own message. -/
theorem decode_eq_ok_iff {p : Port} {b : Bytes} {i : Instr} :
    decode p b = .ok i ↔ i.wellFormed = true ∧ i.port = p ∧ encode i = b := by
  cases p with
  | code => exact decode_code_eq_ok
  | mfh => exact decode_mfh_eq_ok
  | blockHeader => exact decode_blockHeader_eq_ok
  | sack => exact decode_sack_eq_ok

/-- Settles O1: the decoder's relation, read from the instruction to its message. -/
theorem decodeInvertsEncode : Obligations.DecodeInvertsEncode :=
  fun _ hw => decode_eq_ok_iff.mpr ⟨hw, rfl, rfl⟩

/-- Settles O2: the decoder's relation, read from the message to its instruction. -/
theorem decodedMessageIsAnEncoding : Obligations.DecodedMessageIsAnEncoding :=
  fun _ _ _ h => decode_eq_ok_iff.mp h

end Sys2Proof
end

section
/-! SUPPORT. The encoded frame field by field (30_encoding.md R91, 42_mac_frame.md R160 to R166). -/

namespace Sys2Proof.Machine

/-! ## Slices of a concatenation -/

/-- The piece of a string that stands between two others. -/
theorem slice_of_eq_append {f a m b : Bytes} {i j : Nat} (hf : f = a ++ (m ++ b)) (hi : a.length = i)
    (hj : i + m.length = j) : slice f i j = m := by
  subst hf hi hj
  rw [slice, List.take_append, Nat.add_sub_cancel_left, List.take_of_length_le (by omega), List.drop_left,
    List.take_left]

/-! ## The frame -/

theorem leNat_take_mfhBytes (lsb : Bool) {type len : Nat} (ht : type < 4) (hl : len < 2 ^ 14) (rest : Bytes) :
    leNat ((mfhBytes lsb type len ++ rest).take 2) = if lsb then 4 * len + type else len + 16384 * type := by
  rw [List.take_left' (mfhBytes_length lsb type len), mfhBytes_eq_leBytes lsb ht hl, leNat_leBytes_of_lt]
  split <;> omega

/-- The fields of a frame stand at their offsets, those after a confounder of `c` bytes moved by it (R91). -/
theorem macFrame_fields {cfg : Config} {dest : Addr} {p mfh icv f : Bytes} {confounder : Option Confounder} {c : Nat}
    (hf : f = mfh ++ macCovered cfg dest p confounder ++ icv) (hm : mfh.length = 2)
    (hc : confounderLength confounder = c) :
    (∀ x, confounder = some x → slice f 2 6 = x.bytes) ∧
      slice f (2 + c) (8 + c) = dest.bytes ∧
      slice f (8 + c) (14 + c) = cfg.localAddr.bytes ∧
      slice f (14 + c) (16 + c) = [0#8, 0#8] ∧
      slice f (16 + c) (16 + c + p.length) = p := by
  have hx : ((confounder.map Confounder.bytes).getD []).length = c := by rw [confounder_bytes_length, hc]
  have hx' : ∀ x, confounder = some x → (confounder.map Confounder.bytes).getD [] = x.bytes := by
    rintro x rfl
    rfl
  unfold macCovered at hf
  generalize (confounder.map Confounder.bytes).getD [] = x at hf hx hx'
  have hf : f = mfh ++ (x ++ (dest.bytes ++ (cfg.localAddr.bytes ++ (zeros reservedLen ++ (p ++ icv))))) := by
    simpa only [List.append_assoc] using hf
  refine ⟨?_, ?_, ?_, ?_, ?_⟩
  · intro y hy
    rw [← hx' y hy]
    exact slice_of_eq_append hf hm (by rw [hx' y hy]; rfl)
  · refine slice_of_eq_append (a := mfh ++ x) (by rw [hf, List.append_assoc]) ?_ ?_
    all_goals simp only [List.length_append, Addr_bytes_length]; omega
  · refine slice_of_eq_append (a := mfh ++ x ++ dest.bytes) (b := zeros reservedLen ++ (p ++ icv))
      (by simp only [hf, List.append_assoc]) ?_ ?_
    all_goals simp only [List.length_append, Addr_bytes_length]; omega
  · rw [← show zeros reservedLen = [0#8, 0#8] from rfl]
    refine slice_of_eq_append (a := mfh ++ x ++ dest.bytes ++ cfg.localAddr.bytes) (b := p ++ icv)
      (by simp only [hf, List.append_assoc]) ?_ ?_
    all_goals simp only [List.length_append, Addr_bytes_length, zeros_length, reservedLen]; omega
  · refine slice_of_eq_append (a := mfh ++ x ++ dest.bytes ++ cfg.localAddr.bytes ++ zeros reservedLen) (b := icv)
      (by simp only [hf, List.append_assoc]) ?_ rfl
    simp only [List.length_append, Addr_bytes_length, zeros_length, reservedLen]
    omega

/-- MAC-ENCODE within the limit: its result is the frame (R160, R167). -/
theorem exec_macEncode_of_ok {s : State} {dest : Addr} {p f : Bytes} {confounder : Option Confounder}
    (h : macEncode s.cfg dest p confounder = .ok f) :
    exec (.macEncode dest p confounder) s = .next { s with result := .frame (some f) } := by
  have harm : exec (.macEncode dest p confounder) s = execMacEncode dest p confounder s := rfl
  rw [harm, execMacEncode, h]
  rfl

/-- Settles O19: the frame is `macEncode`'s, whose pieces are the fields in order; the ICV field is the register
value of everything between the MFH and itself. -/
theorem macFrameLayout : Obligations.MacFrameLayout := by
  intro s dest p confounder c type hlen
  have hc : confounderLength confounder = c := confounderLength_eq confounder
  have htype : type < 4 := by
    unfold type
    split <;> omega
  rw [← hc] at hlen
  obtain ⟨f, henc⟩ := macEncode_fits (cfg := s.cfg) (dest := dest) hlen
  obtain ⟨-, hf, hlength⟩ := macEncode_ok henc
  rw [hc] at hf hlength hlen
  have hend : f.length - 4 = 16 + c + p.length := by omega
  have hcov := macCovered_length s.cfg dest p confounder
  have hcovered : slice f 2 (f.length - 4) = macCovered s.cfg dest p confounder := by
    rw [List.append_assoc] at hf
    exact slice_of_eq_append hf (mfhBytes_length _ _ _) (by omega)
  have hicv : f.drop (f.length - 4) = checkBytes (crc32 s.cfg.crc (macCovered s.cfg dest p confounder)) := by
    conv => lhs; arg 2; rw [hf]
    exact List.drop_left' (by simp only [List.length_append, mfhBytes_length]; omega)
  obtain ⟨hconf, hdest, hsrc, hres, hpay⟩ := macFrame_fields hf (mfhBytes_length _ _ _) hc
  refine ⟨f, exec_macEncode_of_ok henc, hlength, ?_, hconf, hdest, hsrc, hres, ?_, ?_⟩
  · rw [hf, List.append_assoc]
    exact leNat_take_mfhBytes _ htype (by omega) _
  · rw [hend, hpay]
  · rw [hicv, hcovered, checkBytes_eq_leBytes, leNat_leBytes_of_lt (by exact (crc32 _ _).isLt)]

end Sys2Proof.Machine
end

section
/-! SUPPORT. The decoder on a frame given as its MFH and the bytes after it, and the MFH rows that deliver such a
frame (30_encoding.md R98, 42_mac_frame.md R168, 44_reassembler.md R249). -/

namespace Sys2Proof.Machine

/-! ## The decoder after the MFH -/

theorem slice_append_right (a b : Bytes) (i j : Nat) :
    slice (a ++ b) (a.length + i) (a.length + j) = slice b i j := by
  rw [slice, slice, List.take_length_add_append, List.drop_length_add_append]

/-- The checks of R168 on a frame with MFH fields `type` and `l`, in the configured layout: what each looks at is a
piece of the bytes after the MFH. -/
theorem macDecode_mfhBytes (cfg : Config) {type l : Nat} (ht : type < 4) (hl : l < 2 ^ 14) (rest : Bytes) :
    macDecode cfg (mfhBytes cfg.mfhTypeAtLsb type l ++ rest) =
      if type ≠ 1 ∧ type ≠ 3 then .error (.badType type)
      else if rest.length ≠ l + 5 then .error (.badLength (l + 7) (rest.length + 2))
      else if l < 13 + (if type = 3 then 4 else 0) then .error (.shortFrame (rest.length + 2))
      else if crc32 cfg.crc (rest.take (l + 1)) ≠ BitVec.ofNat 32 (leNat (rest.drop (l + 1))) then
        .error (.macIcv (crc32 cfg.crc (rest.take (l + 1))) (BitVec.ofNat 32 (leNat (rest.drop (l + 1)))))
      else .ok (slice rest (14 + (if type = 3 then 4 else 0)) (l + 1), type == 3) := by
  have hm := mfhBytes_length cfg.mfhTypeAtLsb type l
  have hslice (i j : Nat) : slice (mfhBytes cfg.mfhTypeAtLsb type l ++ rest) (2 + i) (2 + j) = slice rest i j := by
    rw [← hm]
    exact slice_append_right _ _ i j
  have hlength : (mfhBytes cfg.mfhTypeAtLsb type l ++ rest).length = rest.length + 2 := by
    rw [List.length_append, hm, Nat.add_comm]
  have hend : l + (2 + 4 + 1) - 4 = 2 + (l + 1) := by omega
  have hcovered : slice (mfhBytes cfg.mfhTypeAtLsb type l ++ rest) 2 (2 + (l + 1)) = rest.take (l + 1) :=
    hslice 0 (l + 1)
  have hpayload (c : Nat) : slice (mfhBytes cfg.mfhTypeAtLsb type l ++ rest) (16 + c) (2 + (l + 1))
      = slice rest (14 + c) (l + 1) := by
    rw [← hslice, ← Nat.add_assoc 2 14]
  have hfield : checkValue ((mfhBytes cfg.mfhTypeAtLsb type l ++ rest).drop (2 + (l + 1)))
      = BitVec.ofNat 32 (leNat (rest.drop (l + 1))) := by
    rw [checkValue_eq_leNat, ← hm, List.drop_length_add_append]
  unfold macDecode
  simp only [mfhType_mfhBytes cfg.mfhTypeAtLsb ht, mfhLen_mfhBytes cfg.mfhTypeAtLsb hl, hlength, hend, hcovered,
    hpayload, hfield, typeData, typeMgmt, mfhSize, confounderLen, lenBias, icvLen, beq_iff_eq]
  rw [if_neg (by omega)]
  refine if_congr Iff.rfl rfl (if_congr (by omega) rfl (if_congr ?_ rfl rfl))
  split <;> omega

/-- What a delivery does with a frame of a type that is neither data nor management (R98, R169). -/
theorem deliver_badType (s : State) {type l : Nat} (ht : type < 4) (hkind : type ≠ 1 ∧ type ≠ 3) (hl : l < 2 ^ 14)
    (rest : Bytes) :
    s.deliver (mfhBytes s.cfg.mfhTypeAtLsb type l ++ rest) = s.report (.badType type) := by
  rw [State.deliver, macDecode_mfhBytes s.cfg ht hl, if_pos hkind]

/-- What a delivery does with a data or a management frame: its payload's event when the length, the least length
and the ICV are right, and else the report of the first that is not (R168, R249). -/
theorem deliver_dataOrMgmt (s : State) (mgmt : Bool) {l : Nat} (hl : l < 2 ^ 14) (rest : Bytes) :
    s.deliver (mfhBytes s.cfg.mfhTypeAtLsb (if mgmt then 3 else 1) l ++ rest) =
      if rest.length ≠ l + 5 then s.report (.badLength (l + 7) (rest.length + 2))
      else if l < 13 + (if mgmt then 4 else 0) then s.report (.shortFrame (rest.length + 2))
      else if crc32 s.cfg.crc (rest.take (l + 1)) ≠ BitVec.ofNat 32 (leNat (rest.drop (l + 1))) then
        s.report (.macIcv (crc32 s.cfg.crc (rest.take (l + 1))) (BitVec.ofNat 32 (leNat (rest.drop (l + 1)))))
      else s.emit (if mgmt then .mgmtRx (slice rest 18 (l + 1)) else .appRx (slice rest 14 (l + 1))) := by
  cases mgmt with
  | false =>
    rw [State.deliver, macDecode_mfhBytes s.cfg (by decide) hl, if_neg (by decide)]
    simp only [reduceIte, Nat.reduceEqDiff, Bool.false_eq_true]
    split_ifs <;> rfl
  | true =>
    rw [State.deliver, macDecode_mfhBytes s.cfg (by decide) hl, if_neg (by decide)]
    simp only [reduceIte]
    split_ifs <;> rfl

/-! ## The rows -/

variable {s : State} {len : BitVec 14} {rest : Bytes}

theorem exec_mfhData : exec (.mfhData len rest) s = .next (s.deliver (mfhBytes false typeData len.toNat ++ rest)) := rfl

theorem exec_mfhMgmt : exec (.mfhMgmt len rest) s = .next (s.deliver (mfhBytes false typeMgmt len.toNat ++ rest)) := rfl

theorem exec_mfhPad : exec (.mfhPad len rest) s = .next (s.deliver (mfhBytes false typePad len.toNat ++ rest)) := rfl

theorem exec_mfhReserved :
    exec (.mfhReserved len rest) s = .next (s.deliver (mfhBytes false typeReserved len.toNat ++ rest)) := rfl

/-- An MFH of the table is the two bytes of its word (R97). -/
theorem mfhBytes_tableWord {type : Nat} (ht : type < 4) (len : BitVec 14) :
    mfhBytes false type len.toNat = leBytes 2 (len.toNat + 16384 * type) := by
  rw [mfhBytes_eq_leBytes false ht len.isLt]
  rfl

/-- Settles O23: each row delivers the frame its MFH word begins, and in the layout of the table the `type` field of
that word is the row's, which decides between a report and the checks of a data or management frame. -/
theorem mfhRowsReceiveTheirFrame : Obligations.MfhRowsReceiveTheirFrame := by
  intro s len rest l report icv field badIcv
  refine ⟨⟨?_, ?_, ?_, ?_⟩, fun hlsb => ⟨?_, ?_, ?_, ?_⟩⟩
  · rw [exec_mfhData, mfhBytes_tableWord (by decide)]; rfl
  · rw [exec_mfhMgmt, mfhBytes_tableWord (by decide)]; rfl
  · rw [exec_mfhPad, mfhBytes_tableWord (by decide)]; rfl
  · rw [exec_mfhReserved, mfhBytes_tableWord (by decide)]; rfl
  · rw [exec_mfhData, ← hlsb]
    exact congrArg _ (deliver_dataOrMgmt s false len.isLt rest)
  · rw [exec_mfhMgmt, ← hlsb]
    exact congrArg _ (deliver_dataOrMgmt s true len.isLt rest)
  · rw [exec_mfhPad, ← hlsb]
    exact congrArg _ (deliver_badType s (type := typePad) (by decide) (by decide) len.isLt rest)
  · rw [exec_mfhReserved, ← hlsb]
    exact congrArg _ (deliver_badType s (type := typeReserved) (by decide) (by decide) len.isLt rest)

end Sys2Proof.Machine
end

section
/-! SUPPORT. A burst of one built block: its check passes whatever its header, and the header bits that R93 leaves
unused are not read (30_encoding.md R93, R109, 44_reassembler.md R230 to R238). -/

namespace Sys2Proof.Machine

/-! ## A built block -/

theorem headerFields_blockBytes (a : CrcAlgo) (h : BlockHeader) (body : Bytes) :
    headerFields (blockBytes a h body) = h := by
  rw [blockBytes, List.append_assoc, headerFields_headerBytes]

theorem slice_body_blockBytes (a : CrcAlgo) (h : BlockHeader) (body : Bytes) :
    slice (blockBytes a h body) 4 (4 + body.length) = body := by
  rw [blockBytes, List.append_assoc]
  exact slice_of_eq_append rfl (headerBytes_length h) rfl

/-- A block as it was built passes its check (41_crc32.md R154, R155). -/
theorem blockPasses_blockBytes (a : CrcAlgo) (h : BlockHeader) (body : Bytes) :
    BlockPasses a body.length (blockBytes a h body) := by
  have hl : (headerBytes h ++ body).length = body.length + 4 := by
    rw [List.length_append, headerBytes_length, Nat.add_comm]
  rw [BlockPasses, blockBytes, List.take_left' hl, List.drop_left' hl,
    List.take_of_length_le (checkBytes_length _).le, ← checkValue_eq_leNat, checkValue_checkBytes']

/-! ## Its reception -/

/-- Only the sequence number, the boundary and its flag are read of a header. -/
theorem receiveBody_congr (s : State) {h h' : BlockHeader} (body : Bytes) (hssn : h'.ssn = h.ssn)
    (hmbo : h'.macBoundaryOffset = h.macBoundaryOffset) (hflag : h'.macBoundaryFlag = h.macBoundaryFlag) :
    s.receiveBody h' body = s.receiveBody h body := by
  unfold State.receiveBody
  rw [hssn, hmbo, hflag]

theorem burstBodySize_oneBlock {body : Bytes} (hb : body.length = 128 ∨ body.length = 512) :
    burstBodySize (body.length + 8) = body.length := by
  rcases hb with hb | hb <;> rw [hb] <;> rfl

/-- A burst of one built block is received by the examination of its number, its body, and one good block error
flag (44_reassembler.md R230, R250). -/
theorem reassemble_blockBytes (s : State) (h : BlockHeader) {body : Bytes}
    (hb : body.length = 128 ∨ body.length = 512) :
    s.reassemble (blockBytes s.cfg.crc h body) = ((s.examined h.ssn).receiveBody h body).withErrors [false] := by
  have hlength := blockBytes_length s.cfg.crc h body
  have hsize : burstBodySize (blockBytes s.cfg.crc h body).length = body.length := by
    rw [hlength, burstBodySize_oneBlock hb]
  have hblocks : burstBlocks (blockBytes s.cfg.crc h body) = [blockBytes s.cfg.crc h body] := by
    rw [burstBlocks_of_size hsize (n := 1) (by rw [hlength, Nat.one_mul]), chunks, chunks,
      List.take_of_length_le hlength.le]
  have hpass := blockPasses_blockBytes s.cfg.crc h body
  rw [reassemble_eq, burstErrors, hsize, hblocks, List.map_cons, List.map_nil, (blockOk_iff _ _ _).mpr hpass,
    State.receiveBlocks, State.receiveBlocks, receiveBlock_eq, if_pos hpass, headerFields_blockBytes,
    slice_body_blockBytes]
  rfl

/-- PHY-RXSOF in any other state is ignored (46_arq_fsm.md R310). -/
theorem exec_phyRxSof_of_ne {s : State} (hf : s.fsm ≠ .waitingForSof) (burst : Bytes) :
    exec (.phyRxSof burst) s = .next s := by
  have harm : exec (.phyRxSof burst) s = execPhyRxSof burst s := rfl
  rw [harm, execPhyRxSof]
  split
  · next h => exact absurd h hf
  all_goals rfl

/-- Settles O35: outside `WaitingForSof` no block is read, and in it the block passes its check under either header
and its reception reads only the three fields on which the headers agree. -/
theorem ignoredHeaderBitsChangeNothing : Obligations.IgnoredHeaderBitsChangeNothing := by
  intro s h h' body hb hssn hmbo hflag
  by_cases hf : s.fsm = .waitingForSof
  · rw [exec_phyRxSof hf, exec_phyRxSof hf, reassemble_blockBytes s h' hb, reassemble_blockBytes s h hb, hssn,
      receiveBody_congr _ body hssn hmbo hflag]
  · rw [exec_phyRxSof_of_ne hf, exec_phyRxSof_of_ne hf]

end Sys2Proof.Machine
end

section
/-! SUPPORT. Words and messages of the code port that need no operands: the rows of the table written out, the
reserved codes (30_encoding.md R107, R108), and the rows of the output events (R106). -/

namespace Sys2Proof.Machine

/-- Settles O3: each word, evaluated. -/
theorem opcodeTableWordsDecode : Obligations.OpcodeTableWordsDecode :=
  ⟨rfl, rfl, rfl, rfl, rfl, rfl, rfl⟩

/-! ## Reserved codes -/

/-- A code that is in no row of the table is refused by the range it lies in. -/
theorem decodeCode_of_reserved {c : Byte}
    (hc : (0x09 ≤ c.toNat ∧ c.toNat ≤ 0x0F) ∨ (0x1C ≤ c.toNat ∧ c.toNat ≤ 0x1F) ∨ (0x27 ≤ c.toNat ∧ c.toNat ≤ 0x2F))
    (operands : Bytes) :
    decodeCode c operands =
      if c.toNat < 0x10 then .error (.reservedInputCode c)
      else if c.toNat < 0x20 then .error (.reservedOperationCode c)
      else if c.toNat < 0x30 then .error (.reservedOutputCode c)
      else .error (.unassignedCode c) := by
  unfold decodeCode
  split
  case h_29 => rfl
  all_goals omega

theorem decode_of_decodeCode_error {c : Byte} {operands : Bytes} {e : DecodeError}
    (h : decodeCode c operands = .error e) : decode .code (c :: operands) = .error e := by
  have hdec : decode .code (c :: operands) = (decodeCode c operands).bind checked := rfl
  rw [hdec, h]
  rfl

/-- A step on an input that is not early and whose message is no instruction (R107). -/
theorem step_of_undecodable {s : State} {i : Input} {later : List Input} {e : DecodeError}
    (hinbox : s.inbox = i :: later) (htime : s.now ≤ i.now) (hdecode : decode i.port i.bytes = .error e) :
    step s = .refused (.undecodable e) := by
  simp only [step, hinbox, if_neg (Nat.not_lt.mpr htime), hdecode]

/-- Settles O4: in each reserved range no row matches, and the range's own refusal is the first that applies. -/
theorem reservedCodesAreRefused : Obligations.ReservedCodesAreRefused := by
  intro s i later c operands hinbox htime hport hbytes
  have refused {e : DecodeError} (he : decodeCode c operands = .error e) : step s = .refused (.undecodable e) :=
    step_of_undecodable hinbox htime (by rw [hport, hbytes, decode_of_decodeCode_error he])
  refine ⟨fun hc => refused ?_, fun hc => refused ?_, fun hc => refused ?_⟩
  · rw [decodeCode_of_reserved (.inl hc), if_pos (by omega)]
  · rw [decodeCode_of_reserved (.inr (.inl hc)), if_neg (by omega), if_pos (by omega)]
  · rw [decodeCode_of_reserved (.inr (.inr hc)), if_neg (by omega), if_neg (by omega), if_pos (by omega)]

/-! ## Output events -/

/-- Settles O56: the meaning of each row is the emission of its event. -/
theorem outputRowsEmitTheirEvent : Obligations.OutputRowsEmitTheirEvent := by
  intro s b
  exact ⟨rfl, rfl, rfl, rfl, rfl, rfl, rfl⟩

end Sys2Proof.Machine
end

section
/-! SUPPORT. The bit-field operations as instructions: the next state of each as one equation (40_bitfield.md R130 to
R136), what an overwrite of bytes is in bits (R132), and the statements of the family. -/

namespace Sys2Proof.Machine

/-! ## The next state of each operation -/

/-- SETFIELD checks the bounds and then writes the field (R130, R135). -/
theorem exec_setField {w : Nat} (hw : w ≤ 32) (s : State) (buf : Bytes) (v : BitVec 32) (o : Nat) :
    exec (.setField buf v o w) s =
      if 8 * buf.length < o + w then .next { s with boundsFault := some ⟨o, w, buf.length⟩ }
      else .next { s with result := .buffer (writeBits buf v.toNat o w) (o + w) } := by
  have harm : exec (.setField buf v o w) s = execSetField buf v o w s := rfl
  rw [harm, execSetField, maxFieldWidth, if_neg (Nat.not_lt.mpr hw), setField]
  by_cases h : 8 * buf.length < o + w
  · rw [if_pos h, if_pos h]; rfl
  · rw [if_neg h, if_neg h]; rfl

theorem exec_setField_tooWide {w : Nat} (hw : 32 < w) (s : State) (buf : Bytes) (v : BitVec 32) (o : Nat) :
    exec (.setField buf v o w) s = .refused (.fieldTooWide w) := by
  have harm : exec (.setField buf v o w) s = execSetField buf v o w s := rfl
  rw [harm, execSetField, maxFieldWidth, if_pos hw]

/-- GETFIELD checks the bounds and then reads the field (R131, R135). -/
theorem exec_getField {w : Nat} (hw : w ≤ 32) (s : State) (buf : Bytes) (o : Nat) :
    exec (.getField buf o w) s =
      if 8 * buf.length < o + w then .next { s with boundsFault := some ⟨o, w, buf.length⟩ }
      else .next { s with result := .value (BitVec.ofNat 32 (readBits buf o w)) } := by
  have harm : exec (.getField buf o w) s = execGetField buf o w s := rfl
  rw [harm, execGetField, maxFieldWidth, if_neg (Nat.not_lt.mpr hw), getField]
  by_cases h : 8 * buf.length < o + w
  · rw [if_pos h, if_pos h]; rfl
  · rw [if_neg h, if_neg h]; rfl

theorem exec_getField_tooWide {w : Nat} (hw : 32 < w) (s : State) (buf : Bytes) (o : Nat) :
    exec (.getField buf o w) s = .refused (.fieldTooWide w) := by
  have harm : exec (.getField buf o w) s = execGetField buf o w s := rfl
  rw [harm, execGetField, maxFieldWidth, if_pos hw]

/-- SETBYTES checks the bounds and then writes the bytes (R132, R135). -/
theorem exec_setBytes (s : State) (buf bytes : Bytes) (k : Nat) :
    exec (.setBytes buf bytes k) s =
      if buf.length < k + bytes.length then
        .next { s with boundsFault := some ⟨8 * k, 8 * bytes.length, buf.length⟩ }
      else .next { s with result := .buffer (overwrite buf bytes k) (k + bytes.length) } := by
  have harm : exec (.setBytes buf bytes k) s = execSetBytes buf bytes k s := rfl
  rw [harm, execSetBytes, setBytes]
  by_cases h : buf.length < k + bytes.length
  · rw [if_pos h, if_pos h]; rfl
  · rw [if_neg h, if_neg h]; rfl

/-- GETBYTES answers what `getBytes` does (R133, R135). -/
theorem exec_getBytes_error {buf : Bytes} {k n : Nat} {e : BoundsError} (h : getBytes buf k n = .error e) (s : State) :
    exec (.getBytes buf k n) s = .next { s with boundsFault := some e } := by
  have harm : exec (.getBytes buf k n) s = execGetBytes buf k n s := rfl
  rw [harm, execGetBytes, h]
  rfl

theorem exec_getBytes_ok {buf b : Bytes} {k n : Nat} (h : getBytes buf k n = .ok b) (s : State) :
    exec (.getBytes buf k n) s = .next { s with result := .bytes b } := by
  have harm : exec (.getBytes buf k n) s = execGetBytes buf k n s := rfl
  rw [harm, execGetBytes, h]
  rfl

/-! ## The value of a field -/

/-- A field of a legal width fits the 32 bits of GETFIELD's result (R131). -/
theorem toNat_ofNat_readBits (buf : Bytes) (o : Nat) {w : Nat} (hw : w ≤ 32) :
    (BitVec.ofNat 32 (readBits buf o w)).toNat = readBits buf o w := by
  have hlt : readBits buf o w < 2 ^ 32 :=
    (readBits_lt buf o w).trans_le (Nat.pow_le_pow_right (by decide) hw)
  rw [BitVec.toNat_ofNat, Nat.mod_eq_of_lt hlt]

/-- GETFIELD depends on the length of the buffer and the bits of the field only, at every width. -/
theorem exec_getField_congr {b b' : Bytes} {o w : Nat} (hlength : b'.length = b.length)
    (hbits : readBits b' o w = readBits b o w) (s : State) :
    exec (.getField b' o w) s = exec (.getField b o w) s := by
  rcases Nat.lt_or_ge 32 w with hw | hw
  · rw [exec_getField_tooWide hw, exec_getField_tooWide hw]
  · rw [exec_getField hw, exec_getField hw, hlength, hbits]

/-! ## Bytes as bits -/

theorem bitAt_overwrite {buf bytes : Bytes} {k : Nat} (h : k + bytes.length ≤ buf.length) (p : Nat) :
    bitAt (overwrite buf bytes k) p =
      if 8 * k ≤ p ∧ p < 8 * k + 8 * bytes.length then bitAt bytes (p - 8 * k) else bitAt buf p := by
  simp only [bitAt, List.getD_eq_getElem?_getD, overwrite_getElem? h]
  by_cases hp : 8 * k ≤ p ∧ p < 8 * k + 8 * bytes.length
  · have hbyte : (p - 8 * k) / 8 = p / 8 - k := by omega
    have hbit : (p - 8 * k) % 8 = p % 8 := by omega
    rw [if_pos hp, if_pos (by omega), hbyte, hbit]
  · rw [if_neg hp, if_neg (by omega)]

/-- Bytes are written as the field of their little-endian value (R132). -/
theorem writeBits_leNat {buf bytes : Bytes} {k : Nat} (h : k + bytes.length ≤ buf.length) :
    writeBits buf (leNat bytes) (8 * k) (8 * bytes.length) = overwrite buf bytes k := by
  apply bytes_ext
  · rw [writeBits_length, overwrite_length h]
  · intro p _
    rw [bitAt_writeBits _ (by omega), bitAt_overwrite h, testBit_leNat]

/-- At most 4 bytes have a little-endian value of 32 bits. -/
theorem toNat_ofNat_leNat {bytes : Bytes} (h : bytes.length ≤ 4) :
    (BitVec.ofNat 32 (leNat bytes)).toNat = leNat bytes := by
  have hlt : leNat bytes < 2 ^ 32 := calc
    leNat bytes < 256 ^ bytes.length := leNat_lt bytes
    _ ≤ 256 ^ 4 := Nat.pow_le_pow_right (by decide) h
    _ = 2 ^ 32 := rfl
  rw [BitVec.toNat_ofNat, Nat.mod_eq_of_lt hlt]

/-! ## The statements -/

/-- Settles O8: the buffer is the one `writeBits` leaves, whose bits `bitAt_writeBits` gives. -/
theorem setFieldWritesTheFieldBits : Obligations.SetFieldWritesTheFieldBits := by
  intro s buf v o w hw
  refine ⟨rfl, fun hout => ?_, fun hin => ?_⟩
  · rw [exec_setField hw, if_pos hout]
  · refine ⟨writeBits buf v.toNat o w, writeBits_length .., bitAt_writeBits v.toNat hin, ?_⟩
    rw [exec_setField hw, if_neg (Nat.not_lt.mpr hin)]

/-- Settles O9: the value is the number `readBits` reads, which fits the result's 32 bits. -/
theorem getFieldReadsTheFieldBits : Obligations.GetFieldReadsTheFieldBits := by
  intro s buf o w hw
  have hvalue := toNat_ofNat_readBits buf o hw
  refine ⟨rfl, fun hout => ?_, fun hin => ?_⟩
  · rw [exec_getField hw, if_pos hout]
  · refine ⟨BitVec.ofNat 32 (readBits buf o w), ?_, fun j => ?_, ?_⟩
    · rw [hvalue]
      exact readBits_lt buf o w
    · rw [BitVec.getLsbD, hvalue, testBit_readBits]
    · rw [exec_getField hw, if_neg (Nat.not_lt.mpr hin)]

/-- Settles O10: the buffer is the one `overwrite` leaves, and for at most 4 bytes SETFIELD leaves the same one. -/
theorem setBytesWritesTheBytes : Obligations.SetBytesWritesTheBytes := by
  intro s buf bytes k
  refine ⟨fun hout => ?_, fun hin => ?_⟩
  · rw [exec_setBytes, if_pos hout]
  · refine ⟨overwrite buf bytes k, overwrite_length hin, overwrite_getElem? hin, ?_, fun hfour => ?_⟩
    · rw [exec_setBytes, if_neg (Nat.not_lt.mpr hin)]
    · rw [exec_setField (by omega), if_neg (by omega), toNat_ofNat_leNat hfour, writeBits_leNat hin]

/-- Settles O11: the two answers of `getBytes_spec`, each excluded on the other's side of the bound. -/
theorem getBytesReadsTheBytes : Obligations.GetBytesReadsTheBytes := by
  intro s buf k n
  refine ⟨rfl, ?_⟩
  rcases getBytes_spec buf k n with ⟨hout, herror⟩ | ⟨b, hin, hok, hlength, hbytes⟩
  · exact ⟨fun _ => exec_getBytes_error herror s, fun hin => absurd hin (Nat.not_le.mpr hout)⟩
  · exact ⟨fun hout => absurd hin (Nat.not_le.mpr hout), fun _ => ⟨b, hlength, hbytes, exec_getBytes_ok hok s⟩⟩

/-- Settles O14: the round trip `readBits_writeBits` in a buffer of zeros. -/
theorem setThenGetReturnsTheLowBits : Obligations.SetThenGetReturnsTheLowBits := by
  intro s n v o w hw hin
  have hzeros : o + w ≤ 8 * (zeros n).length := by rwa [zeros_length]
  refine ⟨writeBits (zeros n) v.toNat o w, .ofNat 32 (readBits (writeBits (zeros n) v.toNat o w) o w), ?_, ?_, ?_⟩
  · rw [exec_setField hw, if_neg (Nat.not_lt.mpr hzeros)]
  · rw [exec_getField hw, writeBits_length, if_neg (Nat.not_lt.mpr hzeros)]
  · rw [toNat_ofNat_readBits _ _ hw, readBits_writeBits _ hzeros]

/-- Settles O15: `bitAt_writeBits` outside the field, and `readBits_writeBits_of_disjoint` for another field. -/
theorem settingAFieldLeavesTheOthers : Obligations.SettingAFieldLeavesTheOthers := by
  intro s buf v o w hw hin
  refine ⟨writeBits buf v.toNat o w, ?_, fun p hp => ?_, fun o2 w2 hdisjoint => ?_⟩
  · rw [exec_setField hw, if_neg (Nat.not_lt.mpr hin)]
  · rw [bitAt_writeBits _ hin, if_neg (by omega)]
  · exact exec_getField_congr (writeBits_length ..) (readBits_writeBits_of_disjoint _ hin hdisjoint) s

/-- Settles O13: a field of width 0 has no bit to write or to read, and its bounds check is that of its offset. -/
theorem fieldWidthZeroAndAboveThirtyTwo : Obligations.FieldWidthZeroAndAboveThirtyTwo := by
  intro s buf v o w
  have hzero : 0 ≤ 32 := Nat.zero_le 32
  refine ⟨fun hin => ⟨?_, ?_⟩, fun hout => ⟨?_, ?_⟩, fun hw => ⟨?_, ?_⟩⟩
  · rw [exec_setField hzero, Nat.add_zero, if_neg (Nat.not_lt.mpr hin)]; rfl
  · rw [exec_getField hzero, Nat.add_zero, if_neg (Nat.not_lt.mpr hin)]; rfl
  · rw [exec_setField hzero, Nat.add_zero, if_pos hout]
  · rw [exec_getField hzero, Nat.add_zero, if_pos hout]
  · exact exec_setField_tooWide hw s buf v o
  · exact exec_getField_tooWide hw s buf o

end Sys2Proof.Machine
end

section
/-! SUPPORT. The CRC loop as an iterated shift, the pieces of a buffer with one bit replaced, and the detection of
such a bit by the block check and by the ICV (41_crc32.md R150, R154 to R156). -/

namespace Sys2Proof.Machine

/-! ## The loop of R150 -/

/-- The model's shifts are the iteration of one shift. -/
theorem crcShiftRight_eq_iterate (poly : BitVec 32) (k : Nat) (c : BitVec 32) :
    crcShiftRight poly k c =
      Nat.iterate (fun d : BitVec 32 => if d.getLsbD 0 then (d >>> 1) ^^^ poly else d >>> 1) k c := by
  induction k generalizing c with
  | zero => rfl
  | succ k ih => rw [crcShiftRight, ih, Function.iterate_succ_apply]

theorem exec_crc32 (s : State) (b : Bytes) :
    exec (.crc32 b) s = .next { s with result := .value (crc32 s.cfg.crc b) } := rfl

/-- Settles O16: `crc32_isoHdlc` gives the fold over the bytes, and each byte's shifts are iterated. -/
theorem crcIsTheReflectedLoop : Obligations.CrcIsTheReflectedLoop := by
  intro s b shift register
  refine ⟨exec_crc32 s b, fun hcrc => ?_⟩
  have hbyte : crcByteRight 0xEDB88320#32 = fun c x => Nat.iterate shift 8 (c ^^^ x.setWidth 32) := by
    funext c x
    exact crcShiftRight_eq_iterate ..
  rw [exec_crc32, hcrc, crc32_isoHdlc, hbyte]

/-! ## A buffer with one bit replaced -/

/-- Only the byte that holds the bit is replaced. -/
theorem setBit_eq_append {buf : Bytes} {p : Nat} (hp : p / 8 < buf.length) (b : Bool) :
    setBit buf p b = buf.take (p / 8) ++ putBit buf[p / 8] (p % 8) b :: buf.drop (p / 8 + 1) := by
  rw [setBit, List.getD_eq_getElem _ _ hp, List.set_eq_take_append_cons_drop, if_pos hp]

theorem setBit_take_of_lt {buf : Bytes} {n p : Nat} (hp : p < 8 * n) (b : Bool) :
    (setBit buf p b).take n = setBit (buf.take n) p b := by
  have hbyte : p / 8 < n := by omega
  simp only [setBit, List.take_set, List.getD_eq_getElem?_getD, List.getElem?_take_of_lt hbyte]

theorem setBit_take_of_le {buf : Bytes} {n p : Nat} (hp : 8 * n ≤ p) (b : Bool) :
    (setBit buf p b).take n = buf.take n := by
  rw [setBit, List.take_set_of_le (by omega)]

theorem setBit_drop_of_le {buf : Bytes} {n p : Nat} (hp : 8 * n ≤ p) (b : Bool) :
    (setBit buf p b).drop n = setBit (buf.drop n) (p - 8 * n) b := by
  have hbyte : p / 8 = n + (p - 8 * n) / 8 := by omega
  have hbit : p % 8 = (p - 8 * n) % 8 := by omega
  simp only [setBit, List.drop_set, List.getD_eq_getElem?_getD, List.getElem?_drop, ← hbyte, ← hbit]
  rw [if_neg (by omega)]
  congr 1
  omega

theorem setBit_drop_of_lt {buf : Bytes} {n p : Nat} (hp : p < 8 * n) (b : Bool) :
    (setBit buf p b).drop n = buf.drop n := by
  rw [setBit, List.drop_set_of_lt (by omega)]

/-! ## One bit changes the CRC -/

theorem putBit_ne {x : Byte} {k : Nat} (hk : k < 8) {b : Bool} (hb : b ≠ x.getLsbD k) : x ≠ putBit x k b := by
  intro heq
  have hbit : (putBit x k b).getLsbD k = b := by rw [putBit_getLsbD x k b k hk, if_pos rfl]
  rw [← heq] at hbit
  exact hb hbit.symm

/-- Strings that differ in one byte have different CRCs: the registers differ after that byte, and the bytes after
it keep them apart. -/
theorem crc32_ne_of_byte_ne (a c : Bytes) {x y : Byte} (h : x ≠ y) :
    crc32 CrcAlgo.isoHdlc (a ++ x :: c) ≠ crc32 CrcAlgo.isoHdlc (a ++ y :: c) := by
  rw [crc32_isoHdlc, crc32_isoHdlc, Ne, BitVec.xor_left_inj, List.foldl_append, List.foldl_append]
  exact (crcFold_injective c).ne (crcByte_ne h)

/-- R156 for any string. -/
theorem crc32_setBit_ne {buf : Bytes} {p : Nat} (hp : p < 8 * buf.length) {b : Bool} (hb : b ≠ bitAt buf p) :
    crc32 CrcAlgo.isoHdlc buf ≠ crc32 CrcAlgo.isoHdlc (setBit buf p b) := by
  have hbyte : p / 8 < buf.length := by omega
  rw [bitAt, List.getD_eq_getElem _ _ hbyte] at hb
  rw [setBit_eq_append hbyte]
  conv_lhs => rw [← List.take_append_drop (p / 8) buf, List.drop_eq_getElem_cons hbyte]
  exact crc32_ne_of_byte_ne _ _ (putBit_ne (Nat.mod_lt _ (by decide)) hb)

/-! ## The block check -/

/-- A block that passes its check does not pass with one bit of its header or body replaced. -/
theorem not_blockPasses_setBit {size p : Nat} {blk : Bytes} (hlength : size + 4 ≤ blk.length) (hp : p < 8 * (size + 4))
    {b : Bool} (hb : b ≠ bitAt blk p) (hpass : BlockPasses CrcAlgo.isoHdlc size blk) :
    ¬ BlockPasses CrcAlgo.isoHdlc size (setBit blk p b) := by
  rw [BlockPasses, setBit_take_of_lt hp, setBit_drop_of_lt hp, ← hpass]
  refine (crc32_setBit_ne ?_ ?_).symm
  · rwa [List.length_take_of_le hlength]
  · rwa [bitAt_take hp]

theorem burstBodySize_eq (l : Nat) : burstBodySize l = if l > 136 then 512 else 128 := rfl

/-- The `i`-th block of a burst (44_reassembler.md R231). -/
def blockAt (size i : Nat) (burst : Bytes) : Bytes := (burst.drop (i * (size + 8))).take (size + 8)

theorem burstBlocks_getElem? {burst : Bytes} {size : Nat} (hs : burstBodySize burst.length = size) {i : Nat}
    (hi : i < burst.length / (size + 8)) : (burstBlocks burst)[i]? = some (blockAt size i burst) := by
  subst hs
  exact chunks_getElem? _ _ burst hi

theorem burstBlocks_length {burst : Bytes} {size : Nat} (hs : burstBodySize burst.length = size) :
    (burstBlocks burst).length = burst.length / (size + 8) := by
  subst hs
  exact chunks_length _ _ burst

/-- The `i`-th flag of the block-error list is whether the `i`-th block fails its check (R250). -/
theorem burstErrors_getElem?_eq_some {a : CrcAlgo} {burst : Bytes} {size : Nat} (hs : burstBodySize burst.length = size)
    {i : Nat} {e : Bool} :
    (burstErrors a burst)[i]? = some e ↔
      i < burst.length / (size + 8) ∧ (e = true ↔ ¬ BlockPasses a size (blockAt size i burst)) := by
  rw [burstErrors, List.getElem?_map, hs]
  rcases Nat.lt_or_ge i (burst.length / (size + 8)) with hi | hi
  · rw [burstBlocks_getElem? hs hi, ← blockOk_iff]
    cases e <;> simp [hi]
  · rw [List.getElem?_eq_none (by rwa [burstBlocks_length hs])]
    simp [Nat.not_lt.mpr hi]

theorem blockAt_length {burst : Bytes} {size i : Nat} (hi : i < burst.length / (size + 8)) :
    (blockAt size i burst).length = size + 8 := by
  have hend : (i + 1) * (size + 8) ≤ burst.length := Nat.mul_le_of_le_div _ _ _ hi
  rw [Nat.add_mul, Nat.one_mul] at hend
  rw [blockAt, List.length_take, List.length_drop]
  omega

theorem bitAt_blockAt {size p : Nat} (hp : p < 8 * (size + 8)) (i : Nat) (burst : Bytes) :
    bitAt (blockAt size i burst) p = bitAt burst (8 * (i * (size + 8)) + p) := by
  rw [blockAt, bitAt_take hp, bitAt_drop]

theorem blockAt_setBit {size p : Nat} (hp : p < 8 * (size + 8)) (i : Nat) (burst : Bytes) (b : Bool) :
    blockAt size i (setBit burst (8 * (i * (size + 8)) + p) b) = setBit (blockAt size i burst) p b := by
  rw [blockAt, setBit_drop_of_le (Nat.le_add_right ..), Nat.add_sub_cancel_left, setBit_take_of_lt hp, blockAt]

/-- A bit replaced in the header or the body of a block without error makes the burst report that block. -/
theorem burstErrors_setBit {burst : Bytes} {size i p : Nat} (hs : burstBodySize burst.length = size)
    (hp : p < 8 * (size + 4)) {b : Bool} (hb : b ≠ bitAt burst (8 * (i * (size + 8)) + p))
    (hgood : (burstErrors CrcAlgo.isoHdlc burst)[i]? = some false) :
    (burstErrors CrcAlgo.isoHdlc (setBit burst (8 * (i * (size + 8)) + p) b))[i]? = some true := by
  have hp' : p < 8 * (size + 8) := by omega
  obtain ⟨hi, hpass⟩ := (burstErrors_getElem?_eq_some hs).mp hgood
  have hpass : BlockPasses CrcAlgo.isoHdlc size (blockAt size i burst) := by simpa using hpass
  rw [← bitAt_blockAt hp'] at hb
  have hfails := not_blockPasses_setBit (by rw [blockAt_length hi]; omega) hp hb hpass
  have hs' : burstBodySize (setBit burst (8 * (i * (size + 8)) + p) b).length = size := by rwa [setBit_length]
  rw [burstErrors_getElem?_eq_some hs', setBit_length, blockAt_setBit hp']
  exact ⟨hi, iff_of_true rfl hfails⟩

theorem reassemble_rxBlockErrors (s : State) (burst : Bytes) :
    (s.reassemble burst).rxBlockErrors = burstErrors s.cfg.crc burst := rfl

/-! ## The ICV -/

/-- The checks of 42_mac_frame.md R168 before the ICV, which read the length of the frame and its MFH only. -/
def MfhChecks (cfg : Config) (f : Bytes) : Prop :=
  mfhSize ≤ f.length ∧
    (mfhType cfg.mfhTypeAtLsb f = typeData ∨ mfhType cfg.mfhTypeAtLsb f = typeMgmt) ∧
    f.length = mfhLen cfg.mfhTypeAtLsb f + lenBias ∧
    (if mfhType cfg.mfhTypeAtLsb f == typeMgmt then confounderLen else 0) + 20 ≤ f.length

theorem mfhChecks_congr {cfg : Config} {f f' : Bytes} (hlength : f'.length = f.length) (hmfh : f'.take 2 = f.take 2) :
    MfhChecks cfg f' ↔ MfhChecks cfg f := by
  simp only [MfhChecks, mfhType_eq_leNat, mfhLen_eq_leNat, hlength, hmfh]

/-- After the other checks the decoder's answer is that of the ICV (R168, R171). -/
theorem macDecode_of_mfhChecks {cfg : Config} {f : Bytes} (h : MfhChecks cfg f) :
    macDecode cfg f =
      if crc32 cfg.crc (slice f 2 (f.length - 4)) ≠ checkValue (f.drop (f.length - 4)) then
        .error (.macIcv (crc32 cfg.crc (slice f 2 (f.length - 4))) (checkValue (f.drop (f.length - 4))))
      else .ok (slice f (16 + if mfhType cfg.mfhTypeAtLsb f == typeMgmt then confounderLen else 0) (f.length - 4),
        mfhType cfg.mfhTypeAtLsb f == typeMgmt) := by
  obtain ⟨hshort, htype, hlength, hleast⟩ := h
  rw [macDecode, if_neg (Nat.not_lt.mpr hshort), if_neg (by tauto)]
  simp only [← hlength]
  rw [if_neg (not_not.mpr rfl), if_neg (Nat.not_lt.mpr hleast)]
  rfl

/-- A check whose failure is a report is passed whenever a value is answered. -/
theorem ite_error_eq_ok {ε α : Type} {c : Prop} [Decidable c] {e : ε} {x : Except ε α} {r : α} :
    (if c then .error e else x) = .ok r ↔ ¬ c ∧ x = .ok r := by
  by_cases hc : c <;> simp [hc]

/-- A frame that decodes passes the checks before the ICV. -/
theorem mfhChecks_of_ok {cfg : Config} {f : Bytes} {r : Bytes × Bool} (h : macDecode cfg f = .ok r) :
    MfhChecks cfg f := by
  simp only [macDecode, ite_error_eq_ok, not_not] at h
  obtain ⟨hshort, htype, hlength, hleast, -⟩ := h
  refine ⟨Nat.not_lt.mp hshort, by tauto, hlength, ?_⟩
  rw [hlength]
  exact Nat.not_lt.mp hleast

theorem icv_of_ok {cfg : Config} {f : Bytes} {r : Bytes × Bool} (h : macDecode cfg f = .ok r) :
    crc32 cfg.crc (slice f 2 (f.length - 4)) = checkValue (f.drop (f.length - 4)) := by
  by_contra hne
  rw [macDecode_of_mfhChecks (mfhChecks_of_ok h), if_pos hne] at h
  cases h

/-- A frame that decodes is rejected for its ICV with one covered bit replaced (R153, R156). -/
theorem macDecode_setBit {cfg : Config} (hcrc : cfg.crc = CrcAlgo.isoHdlc) {f : Bytes} {r : Bytes × Bool}
    (h : macDecode cfg f = .ok r) {q : Nat} (hlow : 16 ≤ q) (hhigh : q < 8 * (f.length - 4)) {b : Bool}
    (hb : b ≠ bitAt f q) :
    ∃ computed received, macDecode cfg (setBit f q b) = .error (.macIcv computed received) := by
  have hchecks : MfhChecks cfg (setBit f q b) :=
    (mfhChecks_congr (setBit_length ..) (setBit_take_of_le hlow b)).mpr (mfhChecks_of_ok h)
  have hcovered : slice (setBit f q b) 2 (f.length - 4) = setBit (slice f 2 (f.length - 4)) (q - 16) b := by
    rw [slice, setBit_take_of_lt hhigh, setBit_drop_of_le hlow]
    rfl
  have hfield : (setBit f q b).drop (f.length - 4) = f.drop (f.length - 4) := setBit_drop_of_lt hhigh b
  have hbit : b ≠ bitAt (slice f 2 (f.length - 4)) (q - 16) := by
    rwa [slice, bitAt_drop, show 8 * 2 + (q - 16) = q by omega, bitAt_take hhigh]
  have hicv : crc32 cfg.crc (slice (setBit f q b) 2 (f.length - 4))
      ≠ checkValue ((setBit f q b).drop (f.length - 4)) := by
    rw [hfield, ← icv_of_ok h, hcovered, hcrc]
    exact (crc32_setBit_ne (by rw [slice_length]; omega) hbit).symm
  rw [macDecode_of_mfhChecks hchecks, setBit_length, if_pos hicv]
  exact ⟨_, _, rfl⟩

theorem exec_macDecode_error {s : State} {f : Bytes} {e : Report} (h : macDecode s.cfg f = .error e) :
    exec (.macDecode f) s = .next ((s.report e).setResult (.payload none)) := by
  have harm : exec (.macDecode f) s = execMacDecode f s := rfl
  rw [harm, execMacDecode, h]

theorem exec_macDecode_ok {s : State} {f : Bytes} {r : Bytes × Bool} (h : macDecode s.cfg f = .ok r) :
    exec (.macDecode f) s = .next (s.setResult (.payload (some r))) := by
  have harm : exec (.macDecode f) s = execMacDecode f s := rfl
  rw [harm, execMacDecode, h]

/-- MAC-DECODE leaves a payload on the result port for a frame that decodes, and for no other. -/
theorem macDecode_of_exec {s t : State} {f : Bytes} {r : Bytes × Bool} (h : exec (.macDecode f) s = .next t)
    (hresult : t.result = .payload (some r)) : macDecode s.cfg f = .ok r := by
  cases hdecode : macDecode s.cfg f with
  | error e =>
    rw [exec_macDecode_error hdecode] at h
    injection h with h
    rw [← h] at hresult
    cases hresult
  | ok r' =>
    rw [exec_macDecode_ok hdecode] at h
    injection h with h
    rw [← h] at hresult
    injection hresult with hresult
    rw [Option.some.inj hresult]

/-! ## The statement -/

/-- Settles O17: the block check by `burstErrors_setBit`, the bits of a body standing after the 4 header bytes, and
the ICV by `macDecode_setBit`. -/
theorem singleBitErrorsAreDetected : Obligations.SingleBitErrorsAreDetected := by
  refine ⟨fun s t burst i p hcrc hfsm hreceived hgood hp q hq => ?_, fun s f p mgmt q hcrc hdecoded hlow hhigh => ?_⟩
  · rw [← burstBodySize_eq] at hp hq
    rw [exec_phyRxSof hfsm] at hreceived
    injection hreceived with hreceived
    rw [← hreceived, reassemble_rxBlockErrors, hcrc] at hgood
    have hq : q = 8 * (i * (burstBodySize burst.length + 8)) + (32 + p) := by omega
    subst hq
    refine ⟨_, exec_phyRxSof hfsm _, ?_⟩
    rw [reassemble_rxBlockErrors, hcrc]
    exact burstErrors_setBit rfl (by omega) (Bool.not_ne_self _) hgood
  · have hok := macDecode_of_exec hdecoded rfl
    obtain ⟨computed, received, herror⟩ := macDecode_setBit hcrc hok hlow hhigh (Bool.not_ne_self _)
    exact ⟨computed, received, exec_macDecode_error herror⟩

end Sys2Proof.Machine
end

section
/-! SUPPORT. MAC-ENCODE as writes into a buffer of zeros, MAC-DECODE as checks on the number of the frame's first two
bytes, and the round trip (42_mac_frame.md R160 to R174). -/

namespace Sys2Proof.Machine

/-! ## Writing into the bytes at the end of a buffer -/

theorem zeros_add (m n : Nat) : zeros (m + n) = zeros m ++ zeros n := List.replicate_add ..

/-- A field within the first part of a buffer is written there. -/
theorem writeBits_append_left {a : Bytes} {o w : Nat} (v : Nat) (h : o + w ≤ 8 * a.length) (b : Bytes) :
    writeBits (a ++ b) v o w = writeBits a v o w ++ b := by
  have hab : o + w ≤ 8 * (a ++ b).length := by rw [List.length_append]; omega
  apply bytes_ext (by simp only [writeBits_length, List.length_append])
  intro q _
  rw [bitAt_writeBits v hab, bitAt_append, bitAt_append, writeBits_length, bitAt_writeBits v h]
  by_cases hq : q < 8 * a.length
  · rw [if_pos hq, if_pos hq]
  · rw [if_neg hq, if_neg hq, if_neg (by omega)]

/-- A field past the first part of a buffer is written in the second. -/
theorem writeBits_append_right (a : Bytes) {b : Bytes} {o w : Nat} (v : Nat) (h : o + w ≤ 8 * b.length) :
    writeBits (a ++ b) v (8 * a.length + o) w = a ++ writeBits b v o w := by
  have hab : 8 * a.length + o + w ≤ 8 * (a ++ b).length := by rw [List.length_append]; omega
  apply bytes_ext (by simp only [writeBits_length, List.length_append])
  intro q _
  rw [bitAt_writeBits v hab, bitAt_append, bitAt_append, bitAt_writeBits v h]
  by_cases hq : q < 8 * a.length
  · rw [if_pos hq, if_pos hq, if_neg (by omega)]
  · rw [if_neg hq, if_neg hq, Nat.sub_sub]
    exact if_congr (by omega) rfl rfl

/-- Bytes written at the end of what is filled so far come before the zeros that are left. -/
theorem overwrite_append_zeros {a bytes : Bytes} {k m n : Nat} (hk : a.length = k) (hm : m = bytes.length + n) :
    overwrite (a ++ zeros m) bytes k = a ++ bytes ++ zeros n := by
  subst hk hm
  rw [overwrite, List.take_left, List.drop_length_add_append, zeros_add, List.drop_left' (zeros_length _)]

/-! ## The encoder's pseudocode -/

/-- The MFH fields written into a buffer of zeros, in the configured order (R163, R175). -/
theorem writeMfh_zeros (lsb : Bool) (type len n : Nat) :
    (if lsb then writeBits (writeBits (zeros (2 + n)) type 0 2) len 2 14
      else writeBits (writeBits (zeros (2 + n)) len 0 14) type 14 2) = mfhBytes lsb type len ++ zeros n := by
  rw [zeros_add, mfhBytes]
  split
  all_goals
    rw [writeBits_append_left _ (by simp), writeBits_append_left _ (by simp)]
    rfl

/-- The confounder, if there is one, written after an MFH (R164). -/
theorem writeConfounder {mfh : Bytes} {confounder : Option Confounder} {c n : Nat} (hm : mfh.length = 2)
    (hc : confounderLength confounder = c) :
    confounder.elim (mfh ++ zeros (c + n)) (fun x => overwrite (mfh ++ zeros (c + n)) x.bytes 2) =
      mfh ++ (confounder.map Confounder.bytes).getD [] ++ zeros n := by
  subst hc
  cases confounder with
  | none =>
    rw [Option.elim_none, Option.map_none, Option.getD_none, List.append_nil, confounderLength, Nat.zero_add]
  | some x => exact overwrite_append_zeros hm rfl

/-- The addresses and the payload written after an MFH and a confounder of `c` bytes, the reserved bytes left zero
(R160, R165). -/
theorem writeAddressesAndPayload {cfg : Config} {dest : Addr} {p mfh : Bytes} {confounder : Option Confounder}
    {c : Nat} (hm : mfh.length = 2) (hc : confounderLength confounder = c) :
    overwrite (overwrite (overwrite (mfh ++ (confounder.map Confounder.bytes).getD [] ++ zeros (p.length + 18))
      dest.bytes (2 + c)) cfg.localAddr.bytes (8 + c)) p (16 + c) =
      mfh ++ macCovered cfg dest p confounder ++ zeros 4 := by
  have hx : ((confounder.map Confounder.bytes).getD []).length = c := by rw [confounder_bytes_length, hc]
  unfold macCovered
  generalize (confounder.map Confounder.bytes).getD [] = x at hx
  have hdest : (mfh ++ x).length = 2 + c := by rw [List.length_append, hm, hx]
  have hsrc : (mfh ++ x ++ dest.bytes).length = 8 + c := by
    rw [List.length_append, hdest, Addr_bytes_length]; omega
  have hpay : (mfh ++ x ++ dest.bytes ++ cfg.localAddr.bytes ++ zeros 2).length = 16 + c := by
    rw [List.length_append, List.length_append, hsrc, Addr_bytes_length, zeros_length]; omega
  have hreserved : zeros (p.length + 6) = zeros 2 ++ zeros (p.length + 4) := by
    rw [← zeros_add]; congr 1; omega
  rw [overwrite_append_zeros (n := p.length + 12) hdest (by rw [Addr_bytes_length]; omega),
    overwrite_append_zeros (n := p.length + 6) hsrc (by rw [Addr_bytes_length]; omega), hreserved,
    ← List.append_assoc, overwrite_append_zeros hpay rfl]
  simp only [List.append_assoc, reservedLen]

/-- The ICV computed over the filled buffer and written at its end (R166). -/
theorem writeIcv {mfh covered : Bytes} {n : Nat} (hm : mfh.length = 2) (hn : 2 + covered.length = n) (a : CrcAlgo) :
    writeBits (mfh ++ covered ++ zeros 4) (crc32 a (slice (mfh ++ covered ++ zeros 4) 2 n)).toNat (8 * n) 32 =
      mfh ++ covered ++ checkBytes (crc32 a covered) := by
  have hcovered : slice (mfh ++ covered ++ zeros 4) 2 n = covered :=
    slice_of_eq_append (List.append_assoc ..) hm hn
  have hend : 8 * n = 8 * (mfh ++ covered).length + 0 := by rw [List.length_append, hm, hn, Nat.add_zero]
  rw [hcovered, hend, writeBits_append_right _ _ (by rw [zeros_length])]
  rfl

/-- MAC-ENCODE above the limit: no frame, and its report (R167). -/
theorem exec_macEncode_tooLong {s : State} {dest : Addr} {p : Bytes} {confounder : Option Confounder}
    (h : 16383 < p.length + confounderLength confounder + 13) :
    exec (.macEncode dest p confounder) s = .next { s with
      counters := { s.counters with format := s.counters.format + 1 }
      reports := s.reports ++ [.frameTooLong (p.length + confounderLength confounder + 13)]
      result := .frame none } := by
  have harm : exec (.macEncode dest p confounder) s = execMacEncode dest p confounder s := rfl
  rw [harm, execMacEncode, macEncode_error h]
  rfl

theorem encode_macEncode_head (dest : Addr) (p : Bytes) (confounder : Option Confounder) :
    (encode (.macEncode dest p confounder)).head? = some 0x15#8 := by
  cases confounder <;> rfl

/-- Settles O18: each write of the pseudocode puts the next piece of the encoder's frame before the zeros that are
left, the ICV in place of the last four. -/
theorem macEncodeIsThePseudocode : Obligations.MacEncodeIsThePseudocode := by
  intro s dest p confounder
  refine ⟨encode_macEncode_head dest p confounder, ?_⟩
  intro c total len type
  have hc : confounderLength confounder = c := confounderLength_eq confounder
  have hlen : p.length + confounderLength confounder + 13 = len := by omega
  by_cases hlimit : 16383 < len
  · rw [if_pos hlimit, ← hlen]
    exact exec_macEncode_tooLong (by omega)
  rw [if_neg hlimit]
  have hfits : p.length + confounderLength confounder + 13 ≤ 16383 := by omega
  obtain ⟨f, hencode⟩ := macEncode_fits (cfg := s.cfg) (dest := dest) hfits
  obtain ⟨-, hf, -⟩ := macEncode_ok hencode
  rw [hlen] at hf
  have hmfh : (mfhBytes s.cfg.mfhTypeAtLsb type len).length = 2 := mfhBytes_length _ _ _
  have hcovered : 2 + (macCovered s.cfg dest p confounder).length = total - 4 := by
    rw [macCovered_length, hc]; omega
  have htotal : 2 + (c + (p.length + 18)) = total := by omega
  rw [exec_macEncode_of_ok hencode, hf, ← writeIcv hmfh hcovered, ← writeAddressesAndPayload hmfh hc,
    ← writeConfounder hmfh hc, ← writeMfh_zeros, htotal]
  cases confounder <;> rfl

/-! ## The decoder's checks -/

/-- The checks of R168 by the number of the first two bytes (R97, R175). -/
theorem macDecode_eq (cfg : Config) (f : Bytes) :
    macDecode cfg f =
      if f.length < 2 then .error (.shortFrame f.length)
      else if frameType cfg f ≠ 1 ∧ frameType cfg f ≠ 3 then .error (.badType (frameType cfg f))
      else if f.length ≠ frameTotal cfg f then .error (.badLength (frameTotal cfg f) f.length)
      else if frameTotal cfg f < (if frameType cfg f = 3 then 4 else 0) + 20 then .error (.shortFrame f.length)
      else if crc32 cfg.crc (slice f 2 (frameTotal cfg f - 4)) ≠
          BitVec.ofNat 32 (leNat (f.drop (frameTotal cfg f - 4))) then
        .error (.macIcv (crc32 cfg.crc (slice f 2 (frameTotal cfg f - 4)))
          (BitVec.ofNat 32 (leNat (f.drop (frameTotal cfg f - 4)))))
      else .ok (slice f (16 + if frameType cfg f = 3 then 4 else 0) (frameTotal cfg f - 4),
        decide (frameType cfg f = 3)) := by
  have hmgmt : (frameType cfg f == 3) = decide (frameType cfg f = 3) := rfl
  rw [macDecode, ← frameType_eq, ← frameTotal_eq]
  simp only [typeData, typeMgmt, mfhSize, icvLen, confounderLen, checkValue_eq_leNat, hmgmt, decide_eq_true_eq]

/-- Settles O22: `macDecode_eq` names the checks; the answer of each is the report or the payload. -/
theorem macDecodeChecksInOrder : Obligations.MacDecodeChecksInOrder := by
  intro s f type total c computed received malformed
  have hdecode := macDecode_eq s.cfg f
  split_ifs with hshort htype hlength hleast hicv
  · exact exec_macDecode_error (hdecode.trans (if_pos hshort))
  · rw [if_neg hshort] at hdecode
    exact exec_macDecode_error (hdecode.trans (if_pos htype))
  · rw [if_neg hshort, if_neg htype] at hdecode
    exact exec_macDecode_error (hdecode.trans (if_pos hlength))
  · rw [if_neg hshort, if_neg htype, if_neg hlength] at hdecode
    exact exec_macDecode_error (hdecode.trans (if_pos hleast))
  · rw [if_neg hshort, if_neg htype, if_neg hlength, if_neg hleast] at hdecode
    exact exec_macDecode_error (hdecode.trans (if_pos hicv))
  · rw [if_neg hshort, if_neg htype, if_neg hlength, if_neg hleast] at hdecode
    exact exec_macDecode_ok (hdecode.trans (if_neg hicv))

/-! ## The round trip -/

/-- The MFH number of a frame gives its total and its type back, in both layouts (R97, R99, R175). -/
theorem frameTotal_frameType_of_mfh {cfg : Config} {f : Bytes} {len type : Nat} (ht : type < 4) (hl : len < 2 ^ 14)
    (h : leNat (f.take 2) = if cfg.mfhTypeAtLsb then 4 * len + type else len + 16384 * type) :
    frameTotal cfg f = len + 7 ∧ frameType cfg f = type := by
  rw [frameTotal, frameType, h]
  split <;> omega

/-- Settles O21: `macFrameLayout` says where each field of the encoded frame stands, and each check of
`macDecode_eq` looks at those fields. -/
theorem macDecodeInvertsEncode : Obligations.MacDecodeInvertsEncode := by
  intro s t dest p confounder hcrc hlsb hlimit
  obtain ⟨f, hencode, hlength, hmfh, -, -, -, -, hpayload, hicv⟩ := macFrameLayout s dest p confounder hlimit
  have hkind : (if confounder.isSome then 3 else 1) < 4 := by split <;> omega
  rw [← hlsb] at hmfh
  obtain ⟨htotal, htype⟩ := frameTotal_frameType_of_mfh hkind (by omega) hmfh
  have htotal : frameTotal t.cfg f = f.length := by omega
  have hmgmt : frameType t.cfg f = 3 ↔ confounder.isSome := by
    rw [htype]; cases confounder <;> simp
  have hconfounder : (if frameType t.cfg f = 3 then 4 else 0) = if confounder.isSome then 4 else 0 :=
    if_congr hmgmt rfl rfl
  have hfield : BitVec.ofNat 32 (leNat (f.drop (f.length - 4))) = crc32 t.cfg.crc (slice f 2 (f.length - 4)) := by
    rw [hicv, hcrc, BitVec.ofNat_toNat, BitVec.setWidth_eq]
  refine ⟨f, hencode, exec_macDecode_ok ?_⟩
  rw [macDecode_eq, htotal, hconfounder, hfield, hpayload, if_neg (by omega), if_neg (by rw [htype]; split <;> simp),
    if_neg (not_not.mpr rfl), if_neg (by omega), if_neg (not_not.mpr rfl), decide_eq_decide.mpr hmgmt, Bool.decide_coe]

/-! ## Submissions of a payload too long -/

/-- A submission whose frame would be too long is rejected by the encoder (R167, 46_arq_fsm.md R293). -/
theorem acceptable_tooLong {s : State} {dest : Addr} {p : Bytes} {confounder : Option Confounder} (hf : s.full = false)
    (h : 16383 < p.length + confounderLength confounder + 13) :
    s.acceptable dest p confounder = .error (.frameTooLong (p.length + confounderLength confounder + 13)) := by
  rw [State.acceptable, hf, if_neg Bool.false_ne_true, macEncode_error h]

/-- A rejected submission only reports (46_arq_fsm.md R293). -/
theorem exec_appSubmit_rejected {s : State} {dest : Addr} {p : Bytes} {r : Report}
    (h : s.acceptable dest p none = .error r) : exec (.appSubmit dest p) s = .next (s.report r) := by
  have harm : exec (.appSubmit dest p) s = execAppSubmit dest p s := rfl
  rw [harm, execAppSubmit, h]

/-- A rejected submission only reports, whatever confounder was drawn for it (46_arq_fsm.md R294). -/
theorem exec_mgmtSubmit_rejected {s : State} {dest : Addr} {mm : Bytes} {r : Report}
    (h : s.acceptable dest mm (some s.draw.confounder) = .error r) :
    exec (.mgmtSubmit dest mm) s = .next (s.report r) := by
  have harm : exec (.mgmtSubmit dest mm) s = execMgmtSubmit dest mm s := rfl
  rw [harm, execMgmtSubmit, h]

/-- Settles O20: the encoder refuses the length, alone and for a submission that is not turned away by the full
flag. -/
theorem frameTooLongIsRefused : Obligations.FrameTooLongIsRefused := by
  intro s dest p
  refine ⟨fun confounder len hlen hlimit => ?_, fun hf hlimit => ?_, fun hf hlimit => ?_⟩
  · rw [← confounderLength_eq] at hlen
    subst hlen
    exact exec_macEncode_tooLong hlimit
  · exact exec_appSubmit_rejected (acceptable_tooLong hf hlimit)
  · exact exec_mgmtSubmit_rejected (acceptable_tooLong (confounder := some s.draw.confounder) hf hlimit)

end Sys2Proof.Machine
end

section
/-! SUPPORT. One invocation of the segmenter as a list of blocks: how many there are, the header and the body of
each, and what the stream keeps (43_segmenter.md R192 to R200). -/

namespace Sys2Proof.Machine

/-! ## BLOCK-BUILD -/

/-- Settles O27: the header word is `segmentHeader_eq_leBytes`, the check field its four little-endian bytes. -/
theorem blockBuildStampsHeaderAndCheck : Obligations.BlockBuildStampsHeaderAndCheck := by
  intro s ssn mbo boundary body word covered
  have hheader : headerBytes (segmentHeader ssn.toNat (if boundary then some mbo.toNat else none)) = leBytes 4 word :=
    segmentHeader_eq_leBytes ssn.toNat mbo.isLt boundary
  have harm : exec (.blockBuild ssn mbo boundary body) s = execBlockBuild ssn mbo boundary body s := rfl
  rw [harm, execBlockBuild, blockBuild, blockBytes, checkBytes_eq_leBytes, hheader]
  rfl

/-! ## The number of blocks -/

/-- The number of bodies of `size` bytes that `p` bytes fill, the last one perhaps in part. -/
def blockCount (size p : Nat) : Nat := (p + size - 1) / size

theorem blockCount_zero {size : Nat} (hs : 0 < size) : blockCount size 0 = 0 :=
  Nat.div_eq_of_lt (by omega)

theorem blockCount_of_pos {size p : Nat} (hs : 0 < size) (hp : p ≠ 0) :
    blockCount size p = blockCount size (p - size) + 1 := by
  rcases Nat.lt_or_ge p size with hlt | hge
  · rw [Nat.sub_eq_zero_of_le hlt.le, blockCount_zero hs, blockCount, show p + size - 1 = p - 1 + size by omega,
      Nat.add_div_right _ hs, Nat.div_eq_of_lt (by omega)]
  · rw [blockCount, blockCount, show p + size - 1 = p - size + size - 1 + size by omega, Nat.add_div_right _ hs]

/-- The last body begins within the bytes. -/
theorem blockCount_mul_lt {size : Nat} (hs : 0 < size) (p : Nat) : blockCount size p * size < p + size := by
  have := Nat.div_mul_le_self (p + size - 1) size
  rw [blockCount]
  omega

/-! ## The blocks of an invocation -/

/-- The header of the block a stream emits next (R197). -/
def cutHeader (size : Nat) (st : Stream) : BlockHeader := segmentHeader st.nextSsn.toNat (fillBlock size st).boundary

/-- The padded body of the block a stream emits next (R194, R196). -/
def cutBody (size : Nat) (st : Stream) : Bytes := padBody size (st.pendingBytes.take size)

theorem cutBlock_eq (cfg : Config) (size : Nat) (st : Stream) :
    cutBlock cfg size st = blockBytes cfg.crc (cutHeader size st) (cutBody size st) := by
  rw [cutBlock, blockBuild, fillBlock_body, cutHeader, cutBody]

@[simp] theorem cutBody_length (size : Nat) (st : Stream) : (cutBody size st).length = size :=
  padBody_length (List.length_take_le _ _)

theorem afterCut_pending (cfg : Config) (size : Nat) (st : Stream) :
    (afterCut cfg size st).pending = st.pending - size := by
  rw [← pendingBytes_length, afterCut_pendingBytes, List.length_drop, pendingBytes_length]

/-- The loop of R192 cuts the next blocks of the stream, as many as hold its pending bytes and at most `m`. -/
theorem segmentLoop_eq (cfg : Config) {size : Nat} (hs : 0 < size) (m : Nat) (r : Segmented) :
    ∃ n, n = min m (blockCount size r.stream.pending) ∧
      (segmentLoop cfg size m r).n = r.n + n ∧
      (segmentLoop cfg size m r).stream = (afterCut cfg size)^[n] r.stream ∧
      (segmentLoop cfg size m r).burst
        = r.burst ++ ((List.iterate (afterCut cfg size) r.stream n).map (cutBlock cfg size)).flatten := by
  induction m generalizing r with
  | zero => exact ⟨0, by simp, rfl, rfl, by simp [segmentLoop, List.iterate]⟩
  | succ m ih =>
    rw [segmentLoop]
    split
    · next hp => exact ⟨0, by simp [hp, blockCount_zero hs], rfl, rfl, by simp [List.iterate]⟩
    · next hp =>
      obtain ⟨n, hn, hcount, hstream, hburst⟩ := ih
        { stream := afterCut cfg size r.stream, burst := r.burst ++ cutBlock cfg size r.stream, n := r.n + 1,
          k := r.k + (fillBlock size r.stream).k }
      rw [afterCut_pending] at hn
      refine ⟨n + 1, by rw [blockCount_of_pos hs hp]; omega, hcount.trans (Nat.add_right_comm ..), hstream, ?_⟩
      rw [hburst, List.iterate, List.map_cons, List.flatten_cons, List.append_assoc]

theorem bodySize_eq (st : Stream) : bodySize st = if st.pending < 128 then 128 else 512 := rfl

theorem bodySize_cases (st : Stream) : bodySize st = 128 ∧ st.pending < 128 ∨ bodySize st = 512 ∧ 128 ≤ st.pending := by
  rw [bodySize_eq]
  split <;> omega

theorem bodySize_pos (st : Stream) : 0 < bodySize st := by
  rcases bodySize_cases st with ⟨h, -⟩ | ⟨h, -⟩ <;> omega

/-- One invocation cuts up to three blocks, as many as the pending bytes fill (R192). -/
theorem segment_n (cfg : Config) (st : Stream) : (segment cfg st).n = min 3 (blockCount (bodySize st) st.pending) := by
  obtain ⟨n, hn, hcount, -⟩ := segmentLoop_eq cfg (bodySize_pos st) maxSegments ⟨st, [], 0, 0⟩
  rw [segment, hcount, Nat.zero_add, hn]
  rfl

theorem segment_stream (cfg : Config) (st : Stream) :
    (segment cfg st).stream = (afterCut cfg (bodySize st))^[(segment cfg st).n] st := by
  obtain ⟨n, -, hcount, hstream, -⟩ := segmentLoop_eq cfg (bodySize_pos st) maxSegments ⟨st, [], 0, 0⟩
  rw [segment, hcount, Nat.zero_add, hstream]

/-- The stream as it stands before each block of an invocation. -/
def segmentStreams (cfg : Config) (st : Stream) : List Stream :=
  List.iterate (afterCut cfg (bodySize st)) st (segment cfg st).n

@[simp] theorem segmentStreams_length (cfg : Config) (st : Stream) :
    (segmentStreams cfg st).length = (segment cfg st).n := List.length_iterate ..

/-- A burst is the blocks cut, in order (R192). -/
theorem segment_burst (cfg : Config) (st : Stream) :
    (segment cfg st).burst = ((segmentStreams cfg st).map (cutBlock cfg (bodySize st))).flatten := by
  obtain ⟨n, -, hcount, -, hburst⟩ := segmentLoop_eq cfg (bodySize_pos st) maxSegments ⟨st, [], 0, 0⟩
  rw [segmentStreams, segment, hcount, Nat.zero_add, hburst, List.nil_append]

/-- The last block cut begins within the pending bytes. -/
theorem segment_n_mul_lt (cfg : Config) (st : Stream) :
    (segment cfg st).n * bodySize st < st.pending + bodySize st := by
  have hlt := blockCount_mul_lt (bodySize_pos st) st.pending
  have hle : (segment cfg st).n ≤ blockCount (bodySize st) st.pending := by rw [segment_n]; omega
  exact (Nat.mul_le_mul_right _ hle).trans_lt hlt

theorem exec_segment {s : State} {slot : Nat} {st : Stream} (h : s.streams[slot]? = some st) :
    exec (.segment slot) s = .next { s with
      streams := s.streams.set slot (segment s.cfg st).stream
      result := .burst (segment s.cfg st).burst (segment s.cfg st).n (segment s.cfg st).k } := by
  have harm : exec (.segment slot) s = execSegment slot s := rfl
  rw [harm, execSegment, h]
  rfl

theorem exec_segment_noSuchStream {s : State} {slot : Nat} (h : s.streams[slot]? = none) :
    exec (.segment slot) s = .refused (.noSuchStream slot) := by
  have harm : exec (.segment slot) s = execSegment slot s := rfl
  rw [harm, execSegment, h]

/-! ## The stream before each block -/

theorem iterate_afterCut_pendingBytes (cfg : Config) (size i : Nat) (st : Stream) :
    ((afterCut cfg size)^[i] st).pendingBytes = st.pendingBytes.drop (i * size) := by
  induction i with
  | zero => simp
  | succ i ih =>
    rw [Function.iterate_succ_apply', afterCut_pendingBytes, ih, List.drop_drop, Nat.add_mul, Nat.one_mul]

theorem iterate_afterCut_pending (cfg : Config) (size i : Nat) (st : Stream) :
    ((afterCut cfg size)^[i] st).pending = st.pending - i * size := by
  rw [← pendingBytes_length, iterate_afterCut_pendingBytes, List.length_drop, pendingBytes_length]

/-- The sequence counter advances by one for each block, modulo `SSN_MOD` (R199). -/
theorem iterate_afterCut_nextSsn {cfg : Config} {st : Stream} (h : st.nextSsn.toNat < cfg.ssnMod.toNat) (size i : Nat) :
    ((afterCut cfg size)^[i] st).nextSsn.toNat = (st.nextSsn.toNat + i) % cfg.ssnMod.toNat := by
  induction i with
  | zero => exact (Nat.mod_eq_of_lt h).symm
  | succ i ih =>
    rw [Function.iterate_succ_apply']
    show (nextSsn _ _).toNat = _
    rw [nextSsn_toNat, ih, Nat.mod_add_mod, Nat.add_assoc]

/-! ## Numbers and counters -/

theorem length_flatten_of_forall {bs : List Bytes} {w : Nat} (h : ∀ b ∈ bs, b.length = w) :
    bs.flatten.length = bs.length * w := by
  rw [List.length_flatten, List.sum_eq_card_nsmul _ w (by simpa using h), List.length_map, smul_eq_mul]

theorem length_of_mem_map_cutBlock (cfg : Config) (size : Nat) (sts : List Stream) :
    ∀ b ∈ sts.map (cutBlock cfg size), b.length = size + 8 := by
  intro b hb
  obtain ⟨st, -, rfl⟩ := List.mem_map.mp hb
  exact cutBlock_length cfg size st

theorem segment_burst_length (cfg : Config) (st : Stream) :
    (segment cfg st).burst.length = (segment cfg st).n * (bodySize st + 8) := by
  rw [segment_burst, length_flatten_of_forall (length_of_mem_map_cutBlock _ _ _), List.length_map,
    segmentStreams_length]

/-- Settles O24: `segmentLoop_eq` gives the blocks, `segment_outstanding` the frames counted. -/
theorem segmentCutsUpToThreeBlocks : Obligations.SegmentCutsUpToThreeBlocks := by
  intro s slot
  refine ⟨exec_segment_noSuchStream, ?_⟩
  intro st hst size
  refine ⟨_, _, _, _, exec_segment hst, segment_n _ _, segment_burst_length _ _, ?_, fun hssn => ?_, ?_,
    segment_inUse _ _, segment_dest _ _⟩
  · rw [segment_stream, iterate_afterCut_pending]
    rfl
  · rw [segment_stream, iterate_afterCut_nextSsn hssn]
  · rw [Nat.add_comm]
    exact segment_outstanding _ _

/-! ## The bytes sent -/

/-- The bodies of the next blocks hold the next bytes in order, padded at the end only (R194, R196). -/
theorem cutBody_flatten (cfg : Config) {size : Nat} (n : Nat) (st : Stream) (h : n * size < st.pending + size) :
    ((List.iterate (afterCut cfg size) st n).map (cutBody size)).flatten
      = padBody (n * size) (st.pendingBytes.take (n * size)) := by
  induction n generalizing st with
  | zero => simp [List.iterate, padBody]
  | succ n ih =>
    have hlength := pendingBytes_length st
    rw [Nat.add_mul, Nat.one_mul] at h ⊢
    rw [List.iterate, List.map_cons, List.flatten_cons, ih _ (by rw [afterCut_pending]; omega), afterCut_pendingBytes,
      Nat.add_comm, List.take_add, cutBody]
    rcases Nat.eq_zero_or_pos n with rfl | hn
    · simp [padBody]
    · have hfull : size ≤ st.pendingBytes.length := by
        have := Nat.le_mul_of_pos_left size hn
        omega
      rw [padBody, padBody, padBody, List.length_append, List.length_take_of_le hfull, Nat.sub_self, zeros_zero,
        List.append_nil, List.append_assoc, Nat.add_sub_add_left]

/-- `st'` holds what is left of `st`: the frames not begun, and an unused tail of the last frame begun or of the old
remainder. A begun frame has lost at least one byte. -/
def IsRestOf (st' st : Stream) : Prop :=
  ∃ m r, st'.pendingFrames = st.pendingFrames.drop m ∧ (st.remainder :: st.pendingFrames)[m]? = some r ∧
    st'.remainder <:+ r ∧ (0 < m → r ≠ [] → st'.remainder.length < r.length)

theorem IsRestOf.refl (st : Stream) : IsRestOf st st :=
  ⟨0, st.remainder, rfl, rfl, List.suffix_rfl, fun h => absurd h (Nat.lt_irrefl 0)⟩

theorem IsRestOf.trans {st st1 st2 : Stream} (h1 : IsRestOf st1 st) (h2 : IsRestOf st2 st1) : IsRestOf st2 st := by
  obtain ⟨m1, r1, hq1, hr1, hs1, hl1⟩ := h1
  obtain ⟨m2, r2, hq2, hr2, hs2, hl2⟩ := h2
  refine ⟨m1 + m2, ?_⟩
  rw [hq2, hq1, List.drop_drop]
  cases m2 with
  | zero =>
    cases Option.some.inj hr2
    exact ⟨r1, rfl, hr1, hs2.trans hs1, fun hm hne => hs2.length_le.trans_lt (hl1 hm hne)⟩
  | succ m =>
    rw [List.getElem?_cons_succ, hq1, List.getElem?_drop] at hr2
    refine ⟨r2, rfl, ?_, hs2, fun _ => hl2 (Nat.succ_pos m)⟩
    rw [← Nat.add_assoc, List.getElem?_cons_succ, hr2]

/-! ## Filling a body, frame by frame -/

/-- A full body takes no frame. -/
theorem fillFrames_of_full {size : Nat} {a : Fill} (h : size ≤ a.body.length) (q : List Bytes) :
    fillFrames size q a = { a with queue := q } := by
  cases q with
  | nil => rfl
  | cons f fs => rw [fillFrames, if_neg (Nat.not_lt.mpr h)]

/-- The frames a body takes: whole ones, and after them perhaps the first bytes of one more, whose tail becomes the
remainder (R194). -/
theorem fillFrames_takes (size : Nat) (q : List Bytes) {a : Fill} (ha : a.remainder = []) :
    (∃ whole, q = whole ++ (fillFrames size q a).queue ∧ (fillFrames size q a).remainder = [] ∧
      (fillFrames size q a).body = a.body ++ whole.flatten) ∨
    ∃ whole first, q = whole ++ (first ++ (fillFrames size q a).remainder) :: (fillFrames size q a).queue ∧
      first ≠ [] ∧ (fillFrames size q a).remainder ≠ [] ∧
      (fillFrames size q a).body = a.body ++ (whole.flatten ++ first) := by
  induction q generalizing a with
  | nil => exact .inl ⟨[], rfl, ha, by simp [fillFrames]⟩
  | cons f fs ih =>
    rcases Nat.lt_or_ge a.body.length size with hlt | hfull
    · rw [fillFrames, if_pos hlt]
      by_cases hfits : f.drop (size - a.body.length) = []
      · have htake : f.take (size - a.body.length) = f := List.take_of_length_le (List.drop_eq_nil_iff.mp hfits)
        rcases ih (a := { queue := fs
                          remainder := f.drop (size - a.body.length)
                          body := a.body ++ f.take (size - a.body.length)
                          boundary := a.boundary.or (some a.body.length)
                          k := if f.drop (size - a.body.length) = [] then a.k + 1 else a.k }) hfits with
          ⟨whole, hq, hr, hb⟩ | ⟨whole, first, hq, hf, hr, hb⟩
        · exact .inl ⟨f :: whole, congrArg (f :: ·) hq, hr, by rw [hb, htake]; simp⟩
        · exact .inr ⟨f :: whole, first, congrArg (f :: ·) hq, hf, hr, by rw [hb, htake]; simp⟩
      · have hlen : size - a.body.length < f.length := by
          rw [List.drop_eq_nil_iff] at hfits; omega
        rw [fillFrames_of_full (by simp only [List.length_append, List.length_take]; omega)]
        refine .inr ⟨[], f.take (size - a.body.length), ?_, ?_, hfits, rfl⟩
        · rw [List.take_append_drop]; rfl
        · intro hnil
          have := congrArg List.length hnil
          rw [List.length_take, List.length_nil] at this
          omega
    · rw [fillFrames_of_full hfull]
      exact .inl ⟨[], rfl, ha, by simp⟩

theorem fillFrames_boundary_of_some {size : Nat} {q : List Bytes} {a : Fill} {o : Nat} (h : a.boundary = some o) :
    (fillFrames size q a).boundary = some o := by
  induction q generalizing a with
  | nil => exact h
  | cons f fs ih =>
    rw [fillFrames]
    split
    · exact ih (by rw [h]; rfl)
    · exact h

theorem fillFrames_boundary_of_none {size : Nat} {q : List Bytes} {a : Fill} (h : a.boundary = none) :
    (fillFrames size q a).boundary = if a.body.length < size ∧ q ≠ [] then some a.body.length else none := by
  cases q with
  | nil => simpa [fillFrames] using h
  | cons f fs =>
    by_cases hlt : a.body.length < size
    · have htaken : a.body.length < size ∧ f :: fs ≠ [] := ⟨hlt, List.cons_ne_nil f fs⟩
      rw [fillFrames, if_pos hlt, if_pos htaken]
      exact fillFrames_boundary_of_some (by rw [h]; rfl)
    · rw [fillFrames, if_neg hlt, if_neg (fun hc => hlt hc.1)]
      exact h

/-- The boundary of a block is where its first queued frame starts, after what it holds of the remainder (R195). -/
theorem fillBlock_boundary_eq (size : Nat) (st : Stream) :
    (fillBlock size st).boundary =
      if st.remainder.length < size ∧ st.pendingFrames ≠ [] then some st.remainder.length else none := by
  have hbody : (fillRemainder size st).body.length = min size st.remainder.length := List.length_take
  rw [fillBlock, fillFrames_boundary_of_none rfl, hbody]
  by_cases hlt : st.remainder.length < size
  · rw [Nat.min_eq_right hlt.le]
  · rw [if_neg (by omega), if_neg (by tauto)]

/-- Everything one block can do to the remainder and the queue: a long remainder fills it alone; else it holds the
remainder and whole frames, and perhaps the first bytes of one more. -/
theorem fillBlock_cases (size : Nat) (st : Stream) :
    (size ≤ st.remainder.length ∧ (fillBlock size st).queue = st.pendingFrames ∧
      (fillBlock size st).remainder = st.remainder.drop size ∧ (fillBlock size st).body = st.remainder.take size) ∨
    (st.remainder.length < size ∧ ∃ whole, st.pendingFrames = whole ++ (fillBlock size st).queue ∧
      (fillBlock size st).remainder = [] ∧ (fillBlock size st).body = st.remainder ++ whole.flatten) ∨
    (st.remainder.length < size ∧ ∃ whole first,
      st.pendingFrames = whole ++ (first ++ (fillBlock size st).remainder) :: (fillBlock size st).queue ∧
      first ≠ [] ∧ (fillBlock size st).remainder ≠ [] ∧
      (fillBlock size st).body = st.remainder ++ (whole.flatten ++ first)) := by
  rcases Nat.lt_or_ge st.remainder.length size with hlt | hge
  · have hbody : (fillRemainder size st).body = st.remainder := List.take_of_length_le hlt.le
    have htakes := fillFrames_takes size st.pendingFrames (a := fillRemainder size st) (List.drop_eq_nil_of_le hlt.le)
    rw [hbody] at htakes
    exact .inr (htakes.imp (⟨hlt, ·⟩) (⟨hlt, ·⟩))
  · have hfull : fillBlock size st = { fillRemainder size st with queue := st.pendingFrames } :=
      fillFrames_of_full (by rw [fillRemainder, List.length_take_of_le hge]) _
    rw [hfull]
    exact .inl ⟨hge, rfl, rfl, rfl⟩

theorem isRestOf_afterCut (cfg : Config) (size : Nat) (st : Stream) :
    IsRestOf (afterCut cfg size st) st := by
  have hq : (afterCut cfg size st).pendingFrames = (fillBlock size st).queue := rfl
  have hr : (afterCut cfg size st).remainder = (fillBlock size st).remainder := rfl
  rw [IsRestOf, hq, hr]
  rcases fillBlock_cases size st with ⟨-, hqueue, hrem, -⟩ | ⟨-, whole, hqueue, hrem, -⟩ |
    ⟨-, whole, first, hqueue, hfirst, -, -⟩
  · exact ⟨0, st.remainder, hqueue, rfl, hrem ▸ List.drop_suffix _ _, fun h => absurd h (Nat.lt_irrefl 0)⟩
  · have hlt : whole.length < (st.remainder :: st.pendingFrames).length := by
      rw [hqueue, List.length_cons, List.length_append]; omega
    refine ⟨whole.length, _, ?_, List.getElem?_eq_getElem hlt, hrem ▸ List.nil_suffix, fun _ hne => ?_⟩
    · rw [hqueue, List.drop_left]
    · rw [hrem]; exact List.length_pos_iff.mpr hne
  · refine ⟨whole.length + 1, first ++ (fillBlock size st).remainder, ?_, ?_, List.suffix_append _ _, fun _ _ => ?_⟩
    · conv_rhs => rw [hqueue]
      rw [List.drop_length_add_append, List.drop_one, List.tail_cons]
    · conv_lhs => rw [hqueue]
      simp
    · rw [List.length_append]
      have := List.length_pos_iff.mpr hfirst
      omega

theorem isRestOf_iterate_afterCut (cfg : Config) (size i : Nat) (st : Stream) :
    IsRestOf ((afterCut cfg size)^[i] st) st := by
  induction i with
  | zero => exact IsRestOf.refl st
  | succ i ih =>
    rw [Function.iterate_succ_apply']
    exact ih.trans (isRestOf_afterCut cfg size _)

/-! ## What an invocation sends and keeps -/

theorem segment_burst_eq_zipWith (cfg : Config) (st : Stream) :
    (segment cfg st).burst = (List.zipWith (blockBytes cfg.crc) ((segmentStreams cfg st).map (cutHeader (bodySize st)))
      ((segmentStreams cfg st).map (cutBody (bodySize st)))).flatten := by
  rw [segment_burst, List.zipWith_map, List.zipWith_self, funext (cutBlock_eq cfg _)]

theorem segment_bodies (cfg : Config) (st : Stream) :
    ((segmentStreams cfg st).map (cutBody (bodySize st))).flatten
      = padBody ((segment cfg st).n * bodySize st) (st.pendingBytes.take ((segment cfg st).n * bodySize st)) :=
  cutBody_flatten cfg _ st (segment_n_mul_lt cfg st)

theorem segment_pendingBytes (cfg : Config) (st : Stream) :
    (segment cfg st).stream.pendingBytes = st.pendingBytes.drop ((segment cfg st).n * bodySize st) := by
  rw [segment_stream, iterate_afterCut_pendingBytes]

theorem isRestOf_segment (cfg : Config) (st : Stream) : IsRestOf (segment cfg st).stream st := by
  rw [segment_stream]
  exact isRestOf_iterate_afterCut ..

/-- Settles O25: the bodies by `segment_bodies`, and what the stream keeps by `isRestOf_segment`. -/
theorem segmentEmitsTheNextBytesInOrder : Obligations.SegmentEmitsTheNextBytesInOrder := by
  intro s slot st hst size
  have hpos : 0 < size := bodySize_pos st
  have hn : (segment s.cfg st).n * size < st.pending + size := segment_n_mul_lt s.cfg st
  have hsent : (st.pendingBytes.take ((segment s.cfg st).n * size)).length
      = min ((segment s.cfg st).n * size) st.pending := by rw [List.length_take, pendingBytes_length]
  have hrest : (segment s.cfg st).stream.pendingBytes = st.pendingBytes.drop ((segment s.cfg st).n * size) :=
    segment_pendingBytes s.cfg st
  obtain ⟨m, r, hqueue, hr, hsuffix, -⟩ := isRestOf_segment s.cfg st
  refine ⟨(segmentStreams s.cfg st).map (cutHeader size), (segmentStreams s.cfg st).map (cutBody size), _, _,
    (segment s.cfg st).k, (segment s.cfg st).stream, ?_, by rw [List.length_map, List.length_map], ?_,
    segment_bodies s.cfg st, ?_, ?_, fun hpadding => ?_, m, r, hqueue, hr, hsuffix⟩
  · rw [exec_segment hst, segment_burst_eq_zipWith, List.length_map, segmentStreams_length]
    rfl
  · intro b hb
    obtain ⟨t, -, rfl⟩ := List.mem_map.mp hb
    exact cutBody_length size t
  · rw [hrest]
    exact List.take_append_drop ..
  · show (segment s.cfg st).n * size - (st.pendingBytes.take ((segment s.cfg st).n * size)).length < size
    omega
  · change 0 < (segment s.cfg st).n * size - (st.pendingBytes.take ((segment s.cfg st).n * size)).length at hpadding
    rw [hrest]
    exact List.drop_eq_nil_of_le (by rw [pendingBytes_length]; omega)

/-! ## Where the frames start -/

/-- The number of pending bytes before the `j`-th queued frame. -/
def frameStart (st : Stream) (j : Nat) : Nat := st.remainder.length + ((st.pendingFrames.take j).map List.length).sum

theorem frameStart_mono (st : Stream) {i j : Nat} (h : i ≤ j) : frameStart st i ≤ frameStart st j := by
  obtain ⟨d, rfl⟩ := Nat.exists_eq_add_of_le h
  rw [frameStart, frameStart, List.take_add, List.map_append, List.sum_append]
  omega

theorem frameStart_succ {st : Stream} {j : Nat} {f : Bytes} (h : st.pendingFrames[j]? = some f) :
    frameStart st (j + 1) = frameStart st j + f.length := by
  rw [frameStart, frameStart, List.take_add_one, h, List.map_append, List.sum_append]
  simp [Nat.add_assoc]

theorem frameStart_add_length_drop (st : Stream) (j : Nat) :
    frameStart st j + (st.pendingFrames.drop j).flatten.length = st.pending := by
  conv_rhs => rw [Stream.pending, ← List.take_append_drop j st.pendingFrames, List.map_append, List.sum_append]
  rw [frameStart, List.length_flatten, Nat.add_assoc]

/-- Before each block of an invocation, the frames not begun are those that start in it or after it (R194). -/
theorem iterate_afterCut_frames {st : Stream} (hne : ∀ f ∈ st.pendingFrames, f ≠ []) (cfg : Config) {size i : Nat}
    (hi : i * size < st.pending) :
    ∃ m, ((afterCut cfg size)^[i] st).pendingFrames = st.pendingFrames.drop m ∧ m ≤ st.pendingFrames.length ∧
      frameStart st m = i * size + ((afterCut cfg size)^[i] st).remainder.length ∧
      ∀ j < m, frameStart st j < i * size := by
  obtain ⟨m, r, hqueue, hr, -, hbegun⟩ := isRestOf_iterate_afterCut cfg size i st
  have hm : m ≤ st.pendingFrames.length := by
    have := (List.getElem?_eq_some_iff.mp hr).1
    rw [List.length_cons] at this
    omega
  have hpending := iterate_afterCut_pending cfg size i st
  rw [← pendingBytes_length, Stream.pendingBytes, hqueue, List.length_append] at hpending
  have hstart : frameStart st m = i * size + ((afterCut cfg size)^[i] st).remainder.length := by
    have := frameStart_add_length_drop st m
    omega
  refine ⟨m, hqueue, hm, hstart, fun j hj => ?_⟩
  obtain ⟨d, rfl⟩ := Nat.exists_eq_add_of_lt hj
  rw [List.getElem?_cons_succ] at hr
  have hlast := frameStart_succ hr
  have hlt := hbegun (Nat.succ_pos _) (hne r (List.mem_of_getElem? hr))
  have hmono := frameStart_mono st (Nat.le_add_right j d)
  omega

/-! ## The headers of an invocation -/

theorem flatten_drop_mul {bs : List Bytes} {w : Nat} (h : ∀ b ∈ bs, b.length = w) (i : Nat) :
    bs.flatten.drop (i * w) = (bs.drop i).flatten := by
  induction i generalizing bs with
  | zero => simp
  | succ i ih =>
    cases bs with
    | nil => simp
    | cons b bs =>
      rw [List.flatten_cons, Nat.add_mul, Nat.one_mul, Nat.add_comm, ← List.drop_drop,
        List.drop_left' (h b List.mem_cons_self), ih fun x hx => h x (List.mem_cons_of_mem b hx), List.drop_succ_cons]

/-- The header at the start of the `i`-th block of a burst (R197). -/
theorem headerFields_segment_burst (cfg : Config) (st : Stream) {i : Nat} (hi : i < (segment cfg st).n) :
    headerFields ((segment cfg st).burst.drop (i * (bodySize st + 8)))
      = cutHeader (bodySize st) ((afterCut cfg (bodySize st))^[i] st) := by
  have hblock : ((segmentStreams cfg st).map (cutBlock cfg (bodySize st)))[i]?
      = some (cutBlock cfg (bodySize st) ((afterCut cfg (bodySize st))^[i] st)) := by
    rw [List.getElem?_map, segmentStreams, List.getElem?_iterate _ _ _ _ hi, Option.map_some]
  rw [segment_burst, flatten_drop_mul (length_of_mem_map_cutBlock _ _ _), List.drop_eq_getElem?_toList_append, hblock,
    Option.toList_some, List.singleton_append, List.flatten_cons, cutBlock_eq, blockBytes,
    List.append_assoc, List.append_assoc, headerFields_headerBytes]

/-- The boundary fields of the next block's header, where a queued frame starts in it and where none does (R195). -/
theorem cutHeader_boundary {size : Nat} (hs : size ≤ 512) (st : Stream) :
    ((cutHeader size st).macBoundaryFlag = true ↔ st.remainder.length < size ∧ st.pendingFrames ≠ []) ∧
    ((cutHeader size st).macBoundaryFlag = true → (cutHeader size st).macBoundaryOffset.toNat = st.remainder.length) ∧
    ((cutHeader size st).macBoundaryFlag = false → (cutHeader size st).macBoundaryOffset = 0) := by
  rw [cutHeader, segmentHeader, fillBlock_boundary_eq]
  by_cases h : st.remainder.length < size ∧ st.pendingFrames ≠ []
  · rw [if_pos h]
    refine ⟨iff_of_true rfl h, fun _ => ?_, fun hf => nomatch hf⟩
    exact (BitVec.toNat_ofNat ..).trans (Nat.mod_eq_of_lt (show st.remainder.length < 2 ^ 9 by omega))
  · rw [if_neg h]
    exact ⟨iff_of_false Bool.false_ne_true h, fun hf => absurd hf Bool.false_ne_true, fun _ => rfl⟩

/-- Settles O26: the `i`-th header is that of the stream after `i` blocks, whose frames are those that start from
there on. -/
theorem segmentMarksTheFirstBoundary : Obligations.SegmentMarksTheFirstBoundary := by
  intro s slot st hst hne size start
  refine ⟨_, _, _, _, exec_segment hst, fun i hi h hh => ?_⟩
  have hheader : h = cutHeader size ((afterCut s.cfg size)^[i] st) := hh.trans (headerFields_segment_burst s.cfg st hi)
  have hsize : size ≤ 512 := by unfold size; split <;> omega
  have hi : i * size < st.pending := by
    have hlast : (segment s.cfg st).n * size < st.pending + size := segment_n_mul_lt s.cfg st
    have := Nat.mul_le_mul_right size (Nat.succ_le_of_lt hi)
    rw [Nat.succ_mul] at this
    omega
  obtain ⟨m, hqueue, hm, hstart, hbegun⟩ := iterate_afterCut_frames hne s.cfg hi
  obtain ⟨hflag, hoffset, hnone⟩ := cutHeader_boundary hsize ((afterCut s.cfg size)^[i] st)
  rw [← hheader] at hflag hoffset hnone
  have hstart : start m = i * size + ((afterCut s.cfg size)^[i] st).remainder.length := hstart
  have hmono : ∀ {j k}, j ≤ k → start j ≤ start k := frameStart_mono st
  have hfirst : ∀ {j}, i * size ≤ start j → m ≤ j := fun hj => not_lt.mp fun hlt => (hbegun _ hlt).not_ge hj
  have hend : (i + 1) * size = i * size + size := Nat.succ_mul i size
  have hflag : h.macBoundaryFlag = true ↔ start m < (i + 1) * size ∧ m < st.pendingFrames.length := by
    rw [hflag, hqueue, Ne, List.drop_eq_nil_iff]
    omega
  refine ⟨fun hssn => ?_, ?_, hflag.trans ⟨fun hm => ?_, fun ⟨j, hj, hlow, hhigh⟩ => ?_⟩, hnone,
    fun j hj hlow hhigh hleast => ?_⟩
  · rw [hheader, ← iterate_afterCut_nextSsn hssn size i]
    rfl
  · rw [hheader]
    exact ⟨rfl, rfl, rfl, rfl⟩
  · exact ⟨m, hm.2, by omega, hm.1⟩
  · exact ⟨(hmono (hfirst hlow)).trans_lt hhigh, (hfirst hlow).trans_lt hj⟩
  · have hmj : m = j := by
      refine (hfirst hlow).antisymm (not_lt.mp fun hlt => ?_)
      have := hleast m hlt
      omega
    subst hmj
    rw [hoffset (hflag.mpr ⟨hhigh, hj⟩)]
    omega

end Sys2Proof.Machine
end

section
/-! SUPPORT. The segmentation and reassembly law (43_segmenter.md R205): the blocks of a stream, received whole and in
order, deliver its frames. The receiver's entry holds what it has of the frame that the sender's remainder ends. -/

namespace Sys2Proof.Machine

/-! ## The entry beside a delivery -/

/-- The incomplete-frame entry replaced. -/
def State.withEntry (s : State) (e : Option Entry) : State := { s with entry := e }

@[simp] theorem withEntry_cfg (s : State) (e : Option Entry) : (s.withEntry e).cfg = s.cfg := rfl

@[simp] theorem withEntry_withEntry (s : State) (e e' : Option Entry) : (s.withEntry e).withEntry e' = s.withEntry e' :=
  rfl

theorem withEntry_self {s : State} {e : Option Entry} (h : s.entry = e) : s.withEntry e = s := by
  rw [← h]; rfl

theorem withEntry_deliver (s : State) (e : Option Entry) (f : Bytes) :
    (s.withEntry e).deliver f = (s.deliver f).withEntry e := by
  rcases deliver_cases s f with ⟨p, hd, h⟩ | ⟨p, hd, h⟩ | ⟨r, hd, h⟩
  all_goals
    rw [h, State.deliver, withEntry_cfg, hd]
    rfl

theorem withEntry_deliverAll (s : State) (e : Option Entry) (fs : List Bytes) :
    fs.foldl State.deliver (s.withEntry e) = (fs.foldl State.deliver s).withEntry e := by
  induction fs generalizing s with
  | nil => rfl
  | cons f fs ih => rw [List.foldl_cons, List.foldl_cons, withEntry_deliver, ih]

@[simp] theorem deliverAll_cfg (s : State) (fs : List Bytes) : (fs.foldl State.deliver s).cfg = s.cfg := by
  induction fs generalizing s with
  | nil => rfl
  | cons f fs ih => rw [List.foldl_cons, ih, deliver_cfg]

/-! ## Frames that decode -/

/-- The deliveries of a received frame (44_reassembler.md R249). -/
def deliveriesOf (cfg : Config) (f : Bytes) : List OutEvent :=
  match macDecode cfg f with
  | .ok (p, false) => [.appRx p]
  | .ok (p, true) => [.mgmtRx p]
  | .error _ => []

/-- A frame the decoder accepts. -/
def Decodes (cfg : Config) (f : Bytes) : Prop := ∃ d, macDecode cfg f = .ok d

theorem deliver_of_decodes {s : State} {f : Bytes} (h : Decodes s.cfg f) :
    s.deliver f = { s with outputs := s.outputs ++ deliveriesOf s.cfg f } := by
  obtain ⟨⟨p, mgmt⟩, h⟩ := h
  cases mgmt
  all_goals
    rw [State.deliver, deliveriesOf, h]
    rfl

/-- Frames that decode are delivered in order, and nothing is reported. -/
theorem deliverAll_of_decodes {s : State} {fs : List Bytes} (h : ∀ f ∈ fs, Decodes s.cfg f) :
    fs.foldl State.deliver s = { s with outputs := s.outputs ++ fs.flatMap (deliveriesOf s.cfg) } := by
  induction fs generalizing s with
  | nil => simp
  | cons f fs ih =>
    obtain ⟨hf, hfs⟩ := List.forall_mem_cons.mp h
    rw [List.foldl_cons, ih (by rwa [deliver_cfg]), deliver_of_decodes hf, List.flatMap_cons, ← List.append_assoc]

/-! ## Frames the scan finds -/

/-- A frame whose MFH gives its length and is no padding, so that the scan of 44_reassembler.md R244 to R248 finds its
end. -/
def Framed (cfg : Config) (f : Bytes) : Prop := 2 ≤ f.length ∧ frameType cfg f ≠ 0 ∧ f.length = frameTotal cfg f

theorem framed_of_decodes {cfg : Config} {f : Bytes} (h : Decodes cfg f) : Framed cfg f := by
  obtain ⟨d, h⟩ := h
  obtain ⟨htwo, htype, hlength, -⟩ := mfhChecks_of_ok h
  refine ⟨htwo, ?_, by rw [frameTotal_eq]; exact hlength⟩
  rw [frameType_eq]
  rcases htype with htype | htype <;> rw [htype] <;> decide

/-- The MFH is read the same from the first two bytes of a frame on. -/
theorem frameTotal_append (cfg : Config) {a : Bytes} (h : 2 ≤ a.length) (b : Bytes) :
    frameTotal cfg (a ++ b) = frameTotal cfg a := by
  rw [frameTotal_eq, frameTotal_eq, mfhLen_append _ h]

theorem frameType_append (cfg : Config) {a : Bytes} (h : 2 ≤ a.length) (b : Bytes) :
    frameType cfg (a ++ b) = frameType cfg a := by
  rw [frameType_eq, frameType_eq, mfhType_append _ h]

theorem expectedLength_eq_frameTotal (cfg : Config) {d : Bytes} (h : 2 ≤ d.length) :
    expectedLength cfg.mfhTypeAtLsb d = some (frameTotal cfg d) := by
  rw [expectedLength_of_two_le _ h, frameTotal_eq]
  rfl

/-- One pass of the scan over two bytes or more (R244 to R248). -/
theorem scanFrames_of_two_le (key : BitVec 16) (fuel : Nat) {b : Bytes} (h : 2 ≤ b.length) (s : State) :
    scanFrames key (fuel + 1) b s =
      if frameType s.cfg b = 0 then s
      else if frameTotal s.cfg b ≤ b.length then
        scanFrames key fuel (b.drop (frameTotal s.cfg b)) (s.deliver (b.take (frameTotal s.cfg b)))
      else s.withEntry (some ⟨key, b⟩) := by
  match b, h with
  | b0 :: b1 :: r, _ =>
    rw [frameType_eq, frameTotal_eq]
    rfl

@[simp] theorem scanFrames_nil (key : BitVec 16) (fuel : Nat) (s : State) : scanFrames key fuel [] s = s := by
  cases fuel <;> rfl

/-- The scan delivers whole frames one after the other (R246). -/
theorem scanFrames_framed (key : BitVec 16) {fs : List Bytes} {left : Bytes} {fuel : Nat} {s : State}
    (hfs : ∀ f ∈ fs, Framed s.cfg f) (hfuel : (fs.flatten ++ left).length ≤ fuel) :
    ∃ fuel', left.length ≤ fuel' ∧
      scanFrames key fuel (fs.flatten ++ left) s = scanFrames key fuel' left (fs.foldl State.deliver s) := by
  induction fs generalizing fuel s with
  | nil => exact ⟨fuel, hfuel, rfl⟩
  | cons f fs ih =>
    obtain ⟨⟨htwo, htype, htotal⟩, hfs⟩ := List.forall_mem_cons.mp hfs
    rw [List.flatten_cons, List.append_assoc] at hfuel ⊢
    have hlength := List.length_append (as := f) (bs := fs.flatten ++ left)
    obtain ⟨fuel, rfl⟩ : ∃ n, fuel = n + 1 := ⟨fuel - 1, by omega⟩
    rw [scanFrames_of_two_le _ _ (by omega), frameType_append _ htwo, if_neg htype, frameTotal_append _ htwo, ← htotal,
      if_pos (by omega), List.drop_left, List.take_left, List.foldl_cons]
    exact ih (by rwa [deliver_cfg]) (by omega)

/-- A proper beginning of a frame becomes an entry (R247, R248). -/
theorem scanFrames_incomplete (key : BitVec 16) {a b : Bytes} {fuel : Nat} {s : State} (hf : Framed s.cfg (a ++ b))
    (ha : a ≠ []) (hb : b ≠ []) (hfuel : a.length ≤ fuel) :
    scanFrames key fuel a s = s.withEntry (some ⟨key, a⟩) := by
  obtain ⟨-, htype, htotal⟩ := hf
  have hlength := List.length_append (as := a) (bs := b)
  have hpos := List.length_pos_iff.mpr hb
  have hpos' := List.length_pos_iff.mpr ha
  obtain ⟨fuel, rfl⟩ : ∃ n, fuel = n + 1 := ⟨fuel - 1, by omega⟩
  rcases Nat.lt_or_ge a.length 2 with hone | htwo
  · obtain ⟨x, rfl⟩ := List.length_eq_one_iff.mp (show a.length = 1 by omega)
    rfl
  · rw [frameType_append _ htwo] at htype
    rw [frameTotal_append _ htwo] at htotal
    rw [scanFrames_of_two_le _ _ htwo, if_neg htype, if_neg (by omega)]

/-- Padding delivers nothing; a single byte of it is kept as an entry (R245, R247). -/
theorem scanFrames_zeros (key : BitVec 16) (fuel n : Nat) (s : State) :
    ∃ e, scanFrames key fuel (zeros n) s = s.withEntry e := by
  have hsame : s = s.withEntry s.entry := rfl
  match fuel, n with
  | 0, _ => exact ⟨_, hsame⟩
  | _ + 1, 0 => exact ⟨_, hsame⟩
  | _ + 1, 1 => exact ⟨_, rfl⟩
  | fuel + 1, n + 2 =>
    have htype : frameType s.cfg (zeros (n + 2)) = 0 := by
      have htake : (zeros (n + 2)).take 2 = [0#8, 0#8] := rfl
      rw [frameType, htake]
      split <;> rfl
    exact ⟨_, by rw [scanFrames_of_two_le _ _ (by simp), if_pos htype]; exact hsame⟩

/-! ## The two ways a body is read -/

/-- An entry that waits for this block is not discarded (R238). -/
theorem dropEntryIf_of_key {s : State} {ssn : BitVec 16} (h : ∀ e, s.entry = some e → e.key = ssn) :
    s.dropEntryIf (fun key => key != ssn) = s := by
  rcases dropEntryIf_cases s (fun key => key != ssn) with ⟨hs, -⟩ | ⟨e, he, hkey, -⟩
  · exact hs
  · exact absurd (h e he) (by simpa using hkey)

theorem receiveBody_of_continuation {s : State} {h : BlockHeader} (hflag : h.macBoundaryFlag = false)
    (hkey : ∀ e, s.entry = some e → e.key = h.ssn) (body : Bytes) :
    s.receiveBody h body = s.continueEntry h.ssn false body := by
  simp only [State.receiveBody, hflag, dropEntryIf_of_key hkey]
  rfl

theorem receiveBody_of_boundary {s : State} {h : BlockHeader} {region rest : Bytes} (hflag : h.macBoundaryFlag = true)
    (hoffset : h.macBoundaryOffset.toNat = region.length) (hrest : rest ≠ [])
    (hkey : ∀ e, s.entry = some e → e.key = h.ssn) :
    s.receiveBody h (region ++ rest) = scanFrames (h.ssn + 1) (region ++ rest).length rest
      (s.continueEntry h.ssn true region) := by
  have hpos := List.length_pos_iff.mpr hrest
  have hinside : ¬ (h.macBoundaryFlag = true ∧ h.macBoundaryOffset.toNat ≥ (region ++ rest).length) := by
    rw [hoffset, List.length_append]; omega
  unfold State.receiveBody
  simp only
  rw [if_neg hinside, dropEntryIf_of_key hkey, hflag, hoffset, List.take_left, List.drop_left]
  rfl

/-! ## What the receiver is waiting for -/

/-- With the stream `st` still to be cut, a receiver that has everything cut before holds the entry and is owed the
frames: the queued ones, and before them the frame of which the entry holds the beginning and `st` the remainder. An
emptied stream owes nothing, whatever entry its padding left. -/
inductive Awaiting (st : Stream) : Option Entry → List Bytes → Prop where
  | whole (hr : st.remainder = []) : Awaiting st none st.pendingFrames
  | part (first : Bytes) (hr : st.remainder ≠ []) :
    Awaiting st (some ⟨BitVec.ofNat 16 st.nextSsn.toNat, first⟩) ((first ++ st.remainder) :: st.pendingFrames)
  | drained (e : Option Entry) (hp : st.pending = 0) : Awaiting st e []

theorem Awaiting.key {st : Stream} {entry : Option Entry} {frames : List Bytes} (h : Awaiting st entry frames)
    (hp : st.pending ≠ 0) : ∀ e, entry = some e → e.key = BitVec.ofNat 16 st.nextSsn.toNat := by
  intro e he
  cases h with
  | whole => cases he
  | part => cases he; rfl
  | drained _ h0 => exact absurd h0 hp

/-- The remainder, with anything after it, completes the frame of the entry (R239, R240). -/
theorem continueEntry_remainder {s : State} {st : Stream} {frames : List Bytes} (h : Awaiting st s.entry frames)
    (hp : st.pending ≠ 0) (hframed : ∀ f ∈ frames, Framed s.cfg f) (ssn : BitVec 16) (boundary : Bool) (tail : Bytes) :
    ∃ completed, frames = completed ++ st.pendingFrames ∧
      s.continueEntry ssn boundary (st.remainder ++ tail) = (completed.foldl State.deliver s).withEntry none := by
  generalize he : s.entry = entry at h
  cases h with
  | whole hr =>
    refine ⟨[], rfl, ?_⟩
    rw [List.foldl_nil, withEntry_self he, State.continueEntry, he]
  | part first hr =>
    obtain ⟨htwo, -, htotal⟩ := hframed _ List.mem_cons_self
    have hlength := List.length_append (as := first ++ st.remainder) (bs := tail)
    have hexpected : expectedLength s.cfg.mfhTypeAtLsb (first ++ st.remainder ++ tail)
        = some (first ++ st.remainder).length := by
      rw [expectedLength_eq_frameTotal _ (by omega), frameTotal_append _ htwo, htotal]
    refine ⟨[first ++ st.remainder], rfl, ?_⟩
    simp only [State.continueEntry, he, ← List.append_assoc, hexpected, List.take_left]
    rw [if_pos (by omega)]
    rfl
  | drained _ h0 => exact absurd h0 hp

/-- A region that does not complete the frame of the entry is carried over to the next block (R242). -/
theorem continueEntry_incomplete {s : State} {key ssn : BitVec 16} {first region rest : Bytes}
    (he : s.entry = some ⟨key, first⟩) (hframed : Framed s.cfg (first ++ region ++ rest)) (hrest : rest ≠ []) :
    s.continueEntry ssn false region = s.withEntry (some ⟨ssn + 1, first ++ region⟩) := by
  have hpos := List.length_pos_iff.mpr hrest
  rcases continueEntry_cases s ssn false region with ⟨hnone, -⟩ | ⟨e, t, hsome, hexpected, hle, -⟩ | ⟨e, hsome, -, heq⟩
  · rw [he] at hnone; cases hnone
  · rw [he] at hsome
    cases hsome
    obtain ⟨-, -, htotal⟩ := hframed
    rcases Nat.lt_or_ge (first ++ region).length 2 with hone | htwo
    · rw [expectedLength_of_lt_two _ hone] at hexpected; cases hexpected
    · rw [expectedLength_eq_frameTotal _ htwo] at hexpected
      rw [frameTotal_append _ htwo, Option.some.inj hexpected, List.length_append] at htotal
      change t ≤ (first ++ region).length at hle
      omega
  · rw [he] at hsome
    cases hsome
    exact heq

/-! ## One block -/

theorem cutBody_eq (size : Nat) (st : Stream) :
    cutBody size st = (fillBlock size st).body ++ zeros (size - (fillBlock size st).body.length) := by
  rw [cutBody, ← fillBlock_body, padBody]

/-- The wire numbers of consecutive blocks are consecutive under the default modulus (43_segmenter.md R199). -/
theorem ofNat_afterCut_nextSsn {cfg : Config} (hmod : cfg.ssnMod = .m65536) (size : Nat) (st : Stream) :
    BitVec.ofNat 16 (afterCut cfg size st).nextSsn.toNat = BitVec.ofNat 16 st.nextSsn.toNat + 1 := by
  show BitVec.ofNat 16 (nextSsn cfg.ssnMod st.nextSsn).toNat = _
  rw [nextSsn_toNat, hmod]
  exact BitVec.eq_of_toNat_eq (by simp [SsnMod.toNat])

/-- What a block's body does to a receiver that waits for it: it delivers the frames the block ends, and what it
leaves is what the rest of the stream goes on from. -/
def ReceivesCut (cfg : Config) (size : Nat) (st : Stream) (s : State) (frames : List Bytes) : Prop :=
  ∃ done rest e, frames = done ++ rest ∧ Awaiting (afterCut cfg size st) e rest ∧
    s.receiveBody (cutHeader size st) (cutBody size st) = (done.foldl State.deliver s).withEntry e

section Block

variable {cfg : Config} {size : Nat} {st : Stream} {s : State} {frames : List Bytes}

theorem awaiting_afterCut_whole (cfg : Config) (hrem : (fillBlock size st).remainder = []) :
    Awaiting (afterCut cfg size st) none (fillBlock size st).queue :=
  .whole hrem

theorem awaiting_afterCut_part (hmod : cfg.ssnMod = .m65536) (first : Bytes)
    (hrem : (fillBlock size st).remainder ≠ []) :
    Awaiting (afterCut cfg size st) (some ⟨BitVec.ofNat 16 st.nextSsn.toNat + 1, first⟩)
      ((first ++ (fillBlock size st).remainder) :: (fillBlock size st).queue) := by
  rw [← ofNat_afterCut_nextSsn hmod size]
  exact .part first hrem

theorem awaiting_afterCut_drained (cfg : Config) (e : Option Entry) (h : (fillBlock size st).body.length < size) :
    Awaiting (afterCut cfg size st) e (fillBlock size st).queue := by
  obtain ⟨hrem, hqueue⟩ := fillBlock_emptied h
  rw [hqueue]
  refine .drained e ?_
  rw [← pendingBytes_eq_nil]
  show (fillBlock size st).remainder ++ (fillBlock size st).queue.flatten = []
  rw [hrem, hqueue]
  rfl

/-- A block that holds a part of a long remainder only: it completes the frame of the entry or carries it over. -/
theorem receivesCut_of_long_remainder (hmod : cfg.ssnMod = .m65536) (hs : 0 < size) (hs' : size ≤ 512)
    (hw : Awaiting st s.entry frames) (hp : st.pending ≠ 0) (hframed : ∀ f ∈ frames, Framed s.cfg f)
    (hlong : size ≤ st.remainder.length) (hqueue : (fillBlock size st).queue = st.pendingFrames)
    (hrem : (fillBlock size st).remainder = st.remainder.drop size)
    (hbody : (fillBlock size st).body = st.remainder.take size) : ReceivesCut cfg size st s frames := by
  have hflag : (cutHeader size st).macBoundaryFlag = false := by
    rw [← Bool.not_eq_true, (cutHeader_boundary hs' st).1]
    exact fun h => hlong.not_gt h.1
  have hcut : cutBody size st = st.remainder.take size := by
    rw [cutBody_eq, hbody, List.length_take_of_le hlong, Nat.sub_self, zeros_zero, List.append_nil]
  have hreceive := receiveBody_of_continuation hflag (hw.key hp) (cutBody size st)
  by_cases hends : st.remainder.drop size = []
  · obtain ⟨completed, hframes, hcontinue⟩ :=
      continueEntry_remainder hw hp hframed (cutHeader size st).ssn false []
    rw [List.append_nil, ← List.take_of_length_le (List.drop_eq_nil_iff.mp hends), ← hcut] at hcontinue
    exact ⟨completed, (fillBlock size st).queue, none, hqueue ▸ hframes,
      awaiting_afterCut_whole cfg (hrem.trans hends), hreceive.trans hcontinue⟩
  · generalize he : s.entry = entry at hw
    cases hw with
    | whole hr => rw [hr, List.length_nil] at hlong; omega
    | part first hr =>
      have hsplit : first ++ cutBody size st ++ st.remainder.drop size = first ++ st.remainder := by
        rw [hcut, List.append_assoc, List.take_append_drop]
      have hframe := hframed _ List.mem_cons_self
      rw [← hsplit] at hframe
      have hcontinue := continueEntry_incomplete (ssn := (cutHeader size st).ssn) he hframe hends
      refine ⟨[], _, _, rfl, ?_, hreceive.trans hcontinue⟩
      rw [← hsplit, ← hqueue, ← hrem]
      exact awaiting_afterCut_part hmod _ (hrem ▸ hends)
    | drained _ h0 => exact absurd h0 hp

/-- A block with queued frames, read up to what follows the last whole one. -/
theorem receiveBody_cutBody_of_boundary (hs' : size ≤ 512) (hw : Awaiting st s.entry frames) (hp : st.pending ≠ 0)
    (hframed : ∀ f ∈ frames, Framed s.cfg f) (hlt : st.remainder.length < size) {whole queue : List Bytes}
    {left : Bytes} (hqueue : st.pendingFrames = whole ++ queue) (hne : st.pendingFrames ≠ [])
    (hcut : cutBody size st = st.remainder ++ (whole.flatten ++ left)) :
    ∃ done fuel, frames = done ++ queue ∧ left.length ≤ fuel ∧
      s.receiveBody (cutHeader size st) (cutBody size st) = scanFrames (BitVec.ofNat 16 st.nextSsn.toNat + 1) fuel left
        ((done.foldl State.deliver s).withEntry none) := by
  obtain ⟨hflag, hoffset, -⟩ := cutHeader_boundary hs' st
  have hflag := hflag.mpr ⟨hlt, hne⟩
  have hlength := cutBody_length size st
  rw [hcut, List.length_append] at hlength
  have hrest : whole.flatten ++ left ≠ [] := List.length_pos_iff.mp (by omega)
  obtain ⟨completed, hframes, hcontinue⟩ := continueEntry_remainder hw hp hframed (cutHeader size st).ssn true []
  rw [List.append_nil] at hcontinue
  rw [hqueue, ← List.append_assoc] at hframes
  have hwhole : ∀ f ∈ whole, Framed s.cfg f := fun f hf => hframed f (by simp [hframes, hf])
  obtain ⟨fuel, hfuel, hscan⟩ := scanFrames_framed (BitVec.ofNat 16 st.nextSsn.toNat + 1)
    (left := left) (fuel := (st.remainder ++ (whole.flatten ++ left)).length)
    (s := (completed.foldl State.deliver s).withEntry none)
    (by rwa [withEntry_cfg, deliverAll_cfg]) (by rw [List.length_append (as := st.remainder)]; omega)
  refine ⟨completed ++ whole, fuel, hframes, hfuel, ?_⟩
  rw [withEntry_deliverAll] at hscan
  rw [hcut, receiveBody_of_boundary hflag (hoffset hflag) hrest (hw.key hp), hcontinue, List.foldl_append]
  exact hscan

/-- A block that holds the remainder and whole frames, and padding when these are all. -/
theorem receivesCut_of_whole (cfg : Config) (hs' : size ≤ 512)
    (hw : Awaiting st s.entry frames) (hp : st.pending ≠ 0) (hframed : ∀ f ∈ frames, Framed s.cfg f)
    (hlt : st.remainder.length < size) {whole : List Bytes}
    (hqueue : st.pendingFrames = whole ++ (fillBlock size st).queue)
    (hrem : (fillBlock size st).remainder = []) (hbody : (fillBlock size st).body = st.remainder ++ whole.flatten) :
    ReceivesCut cfg size st s frames := by
  have hcut := cutBody_eq size st
  rw [hbody, List.append_assoc, ← hbody] at hcut
  by_cases hne : st.pendingFrames = []
  · have hflag : (cutHeader size st).macBoundaryFlag = false := by
      rw [← Bool.not_eq_true, (cutHeader_boundary hs' st).1]
      exact fun h => h.2 hne
    obtain ⟨completed, hframes, hcontinue⟩ := continueEntry_remainder hw hp hframed (cutHeader size st).ssn false
      (whole.flatten ++ zeros (size - (fillBlock size st).body.length))
    have hempty : (fillBlock size st).queue = st.pendingFrames := by
      rw [hne] at hqueue ⊢
      exact (List.append_eq_nil_iff.mp hqueue.symm).2
    refine ⟨completed, (fillBlock size st).queue, none, hempty ▸ hframes, awaiting_afterCut_whole cfg hrem, ?_⟩
    rw [receiveBody_of_continuation hflag (hw.key hp), hcut, hcontinue]
  · obtain ⟨done, fuel, hframes, -, hreceive⟩ :=
      receiveBody_cutBody_of_boundary hs' hw hp hframed hlt hqueue hne hcut
    rcases (fillBlock_bounded size st).lt_or_eq with hpadded | hfull
    · obtain ⟨e, hscan⟩ := scanFrames_zeros (BitVec.ofNat 16 st.nextSsn.toNat + 1) fuel
        (size - (fillBlock size st).body.length) ((done.foldl State.deliver s).withEntry none)
      exact ⟨done, _, e, hframes, awaiting_afterCut_drained cfg e hpadded, hreceive.trans hscan⟩
    · rw [hfull, Nat.sub_self, zeros_zero, scanFrames_nil] at hreceive
      exact ⟨done, _, none, hframes, awaiting_afterCut_whole cfg hrem, hreceive⟩

/-- A block that ends with the first bytes of a frame, which become the entry. -/
theorem receivesCut_of_first (hmod : cfg.ssnMod = .m65536) (hs' : size ≤ 512)
    (hw : Awaiting st s.entry frames) (hp : st.pending ≠ 0) (hframed : ∀ f ∈ frames, Framed s.cfg f)
    (hlt : st.remainder.length < size) {whole : List Bytes} {first : Bytes}
    (hqueue : st.pendingFrames = whole ++ (first ++ (fillBlock size st).remainder) :: (fillBlock size st).queue)
    (hfirst : first ≠ []) (hrem : (fillBlock size st).remainder ≠ [])
    (hbody : (fillBlock size st).body = st.remainder ++ (whole.flatten ++ first)) :
    ReceivesCut cfg size st s frames := by
  have hfull : (fillBlock size st).body.length = size :=
    (fillBlock_bounded size st).antisymm (not_lt.mp fun h => hrem (fillBlock_emptied h).1)
  have hcut : cutBody size st = st.remainder ++ (whole.flatten ++ first) := by
    rw [cutBody_eq, hfull, Nat.sub_self, zeros_zero, List.append_nil, hbody]
  obtain ⟨done, fuel, hframes, hfuel, hreceive⟩ :=
    receiveBody_cutBody_of_boundary hs' hw hp hframed hlt hqueue (by simp [hqueue]) hcut
  refine ⟨done, _, _, hframes, awaiting_afterCut_part hmod first hrem, hreceive.trans ?_⟩
  refine scanFrames_incomplete _ ?_ hfirst hrem hfuel
  rw [withEntry_cfg, deliverAll_cfg]
  exact hframed _ (by simp [hframes])

/-- A block received by a receiver that waits for it. -/
theorem receivesCut (hmod : cfg.ssnMod = .m65536) (hs : 0 < size) (hs' : size ≤ 512)
    (hw : Awaiting st s.entry frames) (hp : st.pending ≠ 0) (hframed : ∀ f ∈ frames, Framed s.cfg f) :
    ReceivesCut cfg size st s frames := by
  rcases fillBlock_cases size st with ⟨hlong, hqueue, hrem, hbody⟩ | ⟨hlt, whole, hqueue, hrem, hbody⟩ |
    ⟨hlt, whole, first, hqueue, hfirst, hrem, hbody⟩
  · exact receivesCut_of_long_remainder hmod hs hs' hw hp hframed hlong hqueue hrem hbody
  · exact receivesCut_of_whole cfg hs' hw hp hframed hlt hqueue hrem hbody
  · exact receivesCut_of_first hmod hs' hw hp hframed hlt hqueue hfirst hrem hbody

end Block

/-! ## The receiver's invariant -/

/-- The next block of `st` is the receiver's first or follows its last one (44_reassembler.md R233). -/
def Continues (r : State) (st : Stream) : Prop :=
  ∀ l, r.lastReceivedSsn = some l → BitVec.ofNat 16 st.nextSsn.toNat = l + 1

/-- The receiver `r`, which began as `r0` when the stream was `st0`, has everything cut before `st` and has counted no
error; its outputs and the deliveries it owes are `want`. -/
structure Receiving (r0 : State) (st0 : Stream) (want : List OutEvent) (st : Stream) (r : State) : Prop where
  fsm : r.fsm = .waitingForSof
  cfg : r.cfg = r0.cfg
  format : r.counters.format = r0.counters.format
  integrityMac : r.counters.integrityMac = r0.counters.integrityMac
  integrityBlock : r.counters.integrityBlock = r0.counters.integrityBlock
  sequence : Continues r0 st0 → r.counters.sequence = r0.counters.sequence ∧ Continues r st
  owed : ∃ frames, Awaiting st r.entry frames ∧ (∀ f ∈ frames, Decodes r.cfg f) ∧
    r.outputs ++ frames.flatMap (deliveriesOf r.cfg) = want

/-- A built block is received by the examination of its number and its body (44_reassembler.md R230). -/
theorem receiveBlock_blockBytes (r : State) (h : BlockHeader) (body : Bytes) (index : Nat) :
    r.receiveBlock body.length index (blockBytes r.cfg.crc h body) = (r.examined h.ssn).receiveBody h body := by
  rw [receiveBlock_eq, if_pos (blockPasses_blockBytes ..), headerFields_blockBytes, slice_body_blockBytes]

theorem gapReports_of_continues {r : State} {st : Stream} (h : Continues r st) :
    gapReports r.lastReceivedSsn (BitVec.ofNat 16 st.nextSsn.toNat) = [] := by
  unfold gapReports
  split
  · rfl
  · next l hl => rw [if_pos (h l hl)]

section Invariant

variable {cfg : Config} {r0 : State} {st0 : Stream} {want : List OutEvent} {st : Stream} {r : State}

/-- A block cut and received keeps the invariant. -/
theorem Receiving.block {size : Nat} (hmod : cfg.ssnMod = .m65536) (hs : 0 < size) (hs' : size ≤ 512)
    (h : Receiving r0 st0 want st r) (hcrc : r0.cfg.crc = cfg.crc) (hp : st.pending ≠ 0) (index : Nat) :
    Receiving r0 st0 want (afterCut cfg size st) (r.receiveBlock size index (cutBlock cfg size st)) := by
  obtain ⟨frames, hw, hdecodes, howed⟩ := h.owed
  have hreceive := receiveBlock_blockBytes r (cutHeader size st) (cutBody size st) index
  rw [cutBody_length, h.cfg, hcrc, ← cutBlock_eq] at hreceive
  obtain ⟨done, rest, e, rfl, hw', hbody⟩ := receivesCut (s := r.examined (cutHeader size st).ssn) hmod hs hs' hw hp
    fun f hf => framed_of_decodes (hdecodes f hf)
  obtain ⟨hdone, hrest⟩ := List.forall_mem_append.mp hdecodes
  rw [hreceive, hbody, deliverAll_of_decodes (s := r.examined (cutHeader size st).ssn) hdone]
  refine ⟨h.fsm, h.cfg, h.format, h.integrityMac, h.integrityBlock, fun h0 => ?_, rest, hw', hrest, ?_⟩
  · obtain ⟨hsequence, hcontinues⟩ := h.sequence h0
    refine ⟨?_, fun l hl => ?_⟩
    · show r.counters.sequence + BitVec.ofNat 32
        (gapReports r.lastReceivedSsn (BitVec.ofNat 16 st.nextSsn.toNat)).length = _
      rw [gapReports_of_continues hcontinues, hsequence]
      exact BitVec.add_zero _
    · cases hl
      exact ofNat_afterCut_nextSsn hmod size st
  · rw [List.flatMap_append, ← List.append_assoc] at howed
    exact howed

/-- So do the blocks of a burst, in order. -/
theorem Receiving.blocks {size : Nat} (hmod : cfg.ssnMod = .m65536) (hs : 0 < size) (hs' : size ≤ 512)
    (hcrc : r0.cfg.crc = cfg.crc) (n index : Nat) (h : Receiving r0 st0 want st r) (hn : n * size < st.pending + size) :
    Receiving r0 st0 want ((afterCut cfg size)^[n] st)
      (State.receiveBlocks size index ((List.iterate (afterCut cfg size) st n).map (cutBlock cfg size)) r) := by
  induction n generalizing st r index with
  | zero => exact h
  | succ n ih =>
    rw [Nat.succ_mul] at hn
    have hblock := h.block hmod hs hs' hcrc (by omega) index
    rw [List.iterate, List.map_cons, State.receiveBlocks]
    exact ih (index + 1) hblock (by rw [afterCut_pending]; omega)

theorem Receiving.withErrors (h : Receiving r0 st0 want st r) (errs : List Bool) :
    Receiving r0 st0 want st (r.withErrors errs) :=
  ⟨h.fsm, h.cfg, h.format, h.integrityMac, h.integrityBlock, h.sequence, h.owed⟩

end Invariant

/-! ## One round -/

theorem chunks_flatten {bs : List Bytes} {w : Nat} (h : ∀ b ∈ bs, b.length = w) :
    chunks w bs.length bs.flatten = bs := by
  induction bs with
  | nil => rfl
  | cons b bs ih =>
    obtain ⟨hb, hbs⟩ := List.forall_mem_cons.mp h
    rw [List.length_cons, chunks, List.flatten_cons, List.take_left' hb, List.drop_left' hb, ih hbs]

/-- The receiver infers the body size of a burst that is not empty (43_segmenter.md R193, 30_encoding.md R101). -/
theorem burstBodySize_segment_burst (cfg : Config) (st : Stream) :
    (segment cfg st).n = 0 ∨ burstBodySize (segment cfg st).burst.length = bodySize st := by
  have hn := segment_n_mul_lt cfg st
  rw [segment_burst_length, burstBodySize_eq]
  rcases bodySize_cases st with ⟨hsize, hp⟩ | ⟨hsize, hp⟩
  all_goals
    rw [hsize] at hn ⊢
    split <;> omega

section Round

variable {r0 : State} {st0 : Stream} {want : List OutEvent} {st : Stream} {s r : State} {slot : Nat}

/-- A burst cut and received keeps the invariant. -/
theorem Receiving.reassemble {cfg : Config} (hmod : cfg.ssnMod = .m65536) (hcrc : r0.cfg.crc = cfg.crc)
    (h : Receiving r0 st0 want st r) :
    Receiving r0 st0 want (segment cfg st).stream (r.reassemble (segment cfg st).burst) := by
  have hblocks := h.blocks hmod (bodySize_pos st) (by rcases bodySize_cases st with ⟨hb, -⟩ | ⟨hb, -⟩ <;> omega) hcrc
    (segment cfg st).n 0 (segment_n_mul_lt cfg st)
  have hchunks := chunks_flatten (length_of_mem_map_cutBlock cfg (bodySize st) (segmentStreams cfg st))
  rw [← segment_burst, List.length_map, segmentStreams_length] at hchunks
  obtain ⟨hreceived, -⟩ := receiveBlocks_of_size r (segment_burst_length cfg st) (burstBodySize_segment_burst cfg st)
  rw [hchunks] at hreceived
  rw [reassemble_eq, hreceived, segment_stream]
  exact hblocks.withErrors _

/-- Every round keeps the invariant. -/
theorem Carried.receiving {s' r' : State} (h : Carried slot s r s' r') (hmod : s.cfg.ssnMod = .m65536)
    (hcrc : r0.cfg.crc = s.cfg.crc) (hst : s.streams[slot]? = some st) (hr : Receiving r0 st0 want st r) :
    ∃ st', s'.streams[slot]? = some st' ∧ Receiving r0 st0 want st' r' := by
  induction h generalizing st with
  | done => exact ⟨st, hst, hr⟩
  | @round s r s1 r1 _ _ burst _ _ cut sent received _ ih =>
    rw [exec_segment hst] at cut
    cases cut
    cases sent
    rw [exec_phyRxSof hr.fsm] at received
    cases received
    exact ih hmod hcrc (List.getElem?_set_self (List.getElem?_eq_some_iff.mp hst).1) (hr.reassemble hmod hcrc)

theorem segment_pending_lt {cfg : Config} (hp : st.pending ≠ 0) : (segment cfg st).stream.pending < st.pending := by
  have hpos : 0 < (segment cfg st).n := by
    rw [segment_n, blockCount_of_pos (bodySize_pos st) hp]
    omega
  have hsize := Nat.mul_pos hpos (bodySize_pos st)
  rw [segment_stream, iterate_afterCut_pending]
  omega

/-- Enough rounds empty the stream. -/
theorem exists_carried_drained (hr : r.fsm = .waitingForSof) (hst : s.streams[slot]? = some st) :
    ∃ s' r', Carried slot s r s' r' ∧ ∀ st', s'.streams[slot]? = some st' → st'.pending = 0 := by
  induction hn : st.pending using Nat.strong_induction_on generalizing s r st with
  | _ n ih =>
    subst hn
    by_cases hp : st.pending = 0
    · refine ⟨s, r, .done s r, fun st' hst' => ?_⟩
      rw [hst] at hst'
      cases hst'
      exact hp
    · obtain ⟨_, _, _, _, _, -, hreassemble⟩ := reassemble_change r (segment s.cfg st).burst
      obtain ⟨s', r', hcarried, hdrained⟩ := ih _ (segment_pending_lt hp) (r := r.reassemble (segment s.cfg st).burst)
        (by rw [hreassemble]; exact hr)
        (s := { s with
          streams := s.streams.set slot (segment s.cfg st).stream
          result := .burst (segment s.cfg st).burst (segment s.cfg st).n (segment s.cfg st).k })
        (List.getElem?_set_self (List.getElem?_eq_some_iff.mp hst).1) rfl
      exact ⟨s', r', .round (exec_segment hst) rfl (exec_phyRxSof hr _) hcarried, hdrained⟩

end Round

/-! ## The law -/

/-- An emptied stream owes nothing. -/
theorem Awaiting.eq_nil {st : Stream} {e : Option Entry} {frames : List Bytes} (h : Awaiting st e frames)
    (hp : st.pending = 0) (hne : ∀ f ∈ frames, f ≠ []) : frames = [] := by
  rw [← pendingBytes_eq_nil, Stream.pendingBytes, List.append_eq_nil_iff] at hp
  obtain ⟨hrem, hqueue⟩ := hp
  cases h with
  | whole => exact List.eq_nil_iff_forall_not_mem.mpr fun f hf => hne f hf (List.flatten_eq_nil_iff.mp hqueue f hf)
  | part _ hr => exact absurd hrem hr
  | drained => rfl

/-- What MAC-ENCODE answers decodes to the payload and the kind at a node with the same layout and algorithm. -/
theorem macDecode_of_exec_macEncode {s r : State} (hcrc : r.cfg.crc = s.cfg.crc)
    (hlsb : r.cfg.mfhTypeAtLsb = s.cfg.mfhTypeAtLsb) {dest : Addr} {p f : Bytes} {confounder : Option Confounder}
    (h : exec (.macEncode dest p confounder) s = .next { s with result := .frame (some f) }) :
    macDecode r.cfg f = .ok (p, confounder.isSome) := by
  by_cases hlimit : p.length + confounderLength confounder + 13 ≤ 16383
  · rw [confounderLength_eq] at hlimit
    obtain ⟨f', hencode, hdecode⟩ := macDecodeInvertsEncode s r dest p confounder hcrc hlsb hlimit
    rw [hencode] at h
    have hf : f' = f := by
      injection h with h
      injection congrArg State.result h with h
      exact Option.some.inj h
    exact macDecode_of_exec (hf ▸ hdecode) rfl
  · rw [exec_macEncode_tooLong (not_le.mp hlimit)] at h
    injection h with h
    cases congrArg State.result h

/-- Encoded frames decode, and deliver what was encoded. -/
theorem deliveriesOf_sent {s r : State} (hcrc : r.cfg.crc = s.cfg.crc) (hlsb : r.cfg.mfhTypeAtLsb = s.cfg.mfhTypeAtLsb)
    {sent : List (Addr × Bytes × Option Confounder)} {frames : List Bytes}
    (h : List.Forall₂ (fun x f => exec (.macEncode x.1 x.2.1 x.2.2) s = .next { s with result := .frame (some f) })
      sent frames) :
    (∀ f ∈ frames, Decodes r.cfg f) ∧ frames.flatMap (deliveriesOf r.cfg)
      = sent.map fun x => if x.2.2.isSome then .mgmtRx x.2.1 else .appRx x.2.1 := by
  induction h with
  | nil => simp
  | @cons x f sent frames hencode _ ih =>
    obtain ⟨hdecodes, hdeliveries⟩ := ih
    have hdecode := macDecode_of_exec_macEncode hcrc hlsb hencode
    refine ⟨List.forall_mem_cons.mpr ⟨⟨_, hdecode⟩, hdecodes⟩, ?_⟩
    rw [List.flatMap_cons, hdeliveries, List.map_cons, deliveriesOf, hdecode]
    cases x.2.2.isSome <;> rfl

/-- Settles O34: the stream's frames are what the receiver is owed at first, every round keeps `Receiving`, and the
emptied stream owes nothing. -/
theorem segmentThenReassembleReturnsTheFrames : Obligations.SegmentThenReassembleReturnsTheFrames := by
  intro s r slot st sent hmod hcrc hlsb hfsm hentry hst hrem _ hsent
  obtain ⟨hdecodes, hdeliveries⟩ := deliveriesOf_sent hcrc hlsb hsent
  refine ⟨exists_carried_drained hfsm hst, fun s' r' hcarried hdrained => ?_⟩
  have hstart : Receiving r st (r.outputs ++ st.pendingFrames.flatMap (deliveriesOf r.cfg)) st r :=
    ⟨hfsm, rfl, rfl, rfl, rfl, fun h => ⟨rfl, h⟩, st.pendingFrames, hentry ▸ .whole hrem, hdecodes, rfl⟩
  obtain ⟨st', hst', hend⟩ := hcarried.receiving hmod hcrc hst hstart
  obtain ⟨frames, hw, hdecodes', howed⟩ := hend.owed
  have hnone : frames = [] := hw.eq_nil (hdrained st' hst') fun f hf hnil => by
    obtain ⟨htwo, -⟩ := framed_of_decodes (hdecodes' f hf)
    rw [hnil] at htwo
    cases htwo
  rw [hnone, hdeliveries, List.flatMap_nil, List.append_nil] at howed
  exact ⟨howed, hend.format, hend.integrityMac, hend.integrityBlock, fun h => (hend.sequence h).1⟩

end Sys2Proof.Machine
end

section
/-! SUPPORT. An accepted submission as one update: the slot of its destination, the frame queued there and counted
(43_segmenter.md R190, 46_arq_fsm.md R293, 47_txqueue_mgmt_interface.md R340 to R346). -/

namespace Sys2Proof.Machine

/-- The slot of a destination, as `State.SlotFor` describes it, is the one allocation finds (R346). -/
theorem streamFor_of_slotFor {s : State} {dest : Addr} {slot : Nat} {st : Stream} (h : s.SlotFor dest slot st) :
    streamFor s.streams dest = some slot := by
  obtain ⟨hget, hcase⟩ := h
  obtain ⟨hlt, rfl⟩ := List.getElem?_eq_some_iff.mp hget
  rcases hcase with ⟨huse, hdest, hfirst⟩ | ⟨hfree, hother, hfirst⟩
  · refine streamFor_inUse (List.findIdx?_eq_some_iff_getElem.mpr ⟨hlt, by simp [huse, hdest], fun j hj => ?_⟩)
    have hj' := hfirst j hj _ (List.getElem?_eq_getElem (hj.trans hlt))
    simpa using hj'
  · have hnone : (s.streams.findIdx? fun st => st.inUse && st.dest == dest) = none :=
      List.findIdx?_eq_none_iff.mpr fun st' hm => by simpa using hother st' hm
    rw [streamFor, hnone, Option.none_or]
    refine List.findIdx?_eq_some_iff_getElem.mpr ⟨hlt, by simp [hfree], fun j hj => ?_⟩
    have hj' := hfirst j hj _ (List.getElem?_eq_getElem (hj.trans hlt))
    simpa using hj'

theorem acceptable_of_slotFor {s : State} {dest : Addr} {p f : Bytes} {confounder : Option Confounder} {slot : Nat}
    {st : Stream} (hf : s.full = false) (h : s.SlotFor dest slot st)
    (hencode : macEncode s.cfg dest p confounder = .ok f) : s.acceptable dest p confounder = .ok (f, slot) := by
  rw [State.acceptable, hf, if_neg Bool.false_ne_true, hencode, streamFor_of_slotFor h]

/-- An accepted frame enqueued and counted (43_segmenter.md R190, 47_txqueue_mgmt_interface.md R340, R341, R343). -/
theorem enqueue_countAccepted {s : State} {dest : Addr} {slot : Nat} {st : Stream} (hf : s.full = false)
    (h : s.SlotFor dest slot st) (f : Bytes) : (s.enqueue slot dest f).countAccepted = s.queued dest slot st f := by
  obtain ⟨hget, hcase⟩ := h
  have hstream : (st.claim dest).append f =
      { inUse := true
        dest := dest
        nextSsn := if st.inUse then st.nextSsn else 0
        pendingFrames := (if st.inUse then st.pendingFrames else []) ++ [f]
        remainder := if st.inUse then st.remainder else [] } := by
    rcases hcase with ⟨huse, hdest, -⟩ | ⟨hfree, -⟩
    · rw [claim_of_inUse huse]
      simp only [Stream.append, huse, hdest, if_true]
    · rw [claim_of_free hfree]
      simp only [Stream.append, hfree]
      rfl
  rw [enqueue_eq hget, hstream]
  exact countAccepted_eq hf

/-- An accepted APP submission is queued, and starts a cycle in `WaitingForApp` (46_arq_fsm.md R293). -/
theorem exec_appSubmit_accepted {s : State} {dest : Addr} {p f : Bytes} {slot : Nat} {st : Stream}
    (hf : s.full = false) (h : s.SlotFor dest slot st) (hencode : macEncode s.cfg dest p none = .ok f) :
    exec (.appSubmit dest p) s = .next (
      if s.fsm = .waitingForApp then (s.queued dest slot st f).sendPath else s.queued dest slot st f) := by
  have harm : exec (.appSubmit dest p) s = execAppSubmit dest p s := rfl
  rw [harm, execAppSubmit, acceptable_of_slotFor hf h hencode]
  simp only [enqueue_countAccepted hf h]
  rfl

/-- Settles O41: the frame is accepted into the slot of its destination, and outside `WaitingForApp` no cycle
starts. -/
theorem appSubmitOnlyEnqueuesOutsideWaitingForApp : Obligations.AppSubmitOnlyEnqueuesOutsideWaitingForApp := by
  intro s dest p slot st hfsm hfull hslot hlen
  obtain ⟨f, hencode⟩ := macEncode_fits (cfg := s.cfg) (dest := dest) (c := none) hlen
  refine ⟨f, exec_macEncode_of_ok hencode, ?_⟩
  rw [exec_appSubmit_accepted hfull hslot hencode, if_neg hfsm]

end Sys2Proof.Machine
end

section
/-! SUPPORT. The reassembler's continuity check over a whole burst (44_reassembler.md R233, R234): of what receiving a
block does, only the examination of its number touches the last number, the gap reports and the gap counter. -/

namespace Sys2Proof.Machine

/-! ## The blocks of a burst -/

theorem chunks_eq_map_range (w n : Nat) (b : Bytes) :
    chunks w n b = (List.range n).map fun i => (b.drop (i * w)).take w := by
  refine List.ext_getElem? fun i => ?_
  rcases Nat.lt_or_ge i n with hi | hi
  · rw [chunks_getElem? _ _ _ hi, List.getElem?_map, List.getElem?_range hi, Option.map_some]
  · rw [List.getElem?_eq_none (by rwa [chunks_length]), List.getElem?_eq_none (by simpa using hi)]

theorem burstBlocks_eq {burst : Bytes} {size : Nat} (hs : burstBodySize burst.length = size) :
    burstBlocks burst = (List.range (burst.length / (size + 8))).map fun i => blockAt size i burst := by
  subst hs
  exact chunks_eq_map_range ..

/-- The pieces do not read past their total length. -/
theorem chunks_take (w n : Nat) (b : Bytes) : chunks w n (b.take (n * w)) = chunks w n b := by
  induction n generalizing b with
  | zero => rfl
  | succ n ih =>
    have hw : (n + 1) * w = w + n * w := by rw [Nat.add_mul, Nat.one_mul, Nat.add_comm]
    rw [chunks, chunks, List.take_take, Nat.min_eq_left (by omega), hw, List.drop_take, Nat.add_sub_cancel_left, ih]

/-! ## What leaves continuity alone -/

/-- The reports of a sequence gap on the report port (60_exceptions.md R373). -/
def State.gaps (s : State) : List Report := s.reports.filter fun r => r.code == 0x3#4

/-- The last received number, the gap reports and the gap counter are the same. -/
def SameContinuity (s t : State) : Prop :=
  t.lastReceivedSsn = s.lastReceivedSsn ∧ t.gaps = s.gaps ∧ t.counters.sequence = s.counters.sequence

theorem SameContinuity.refl (s : State) : SameContinuity s s := ⟨rfl, rfl, rfl⟩

theorem SameContinuity.trans {s t u : State} (h : SameContinuity s t) (h' : SameContinuity t u) :
    SameContinuity s u := by
  obtain ⟨hlast, hgaps, hcount⟩ := h
  obtain ⟨hlast', hgaps', hcount'⟩ := h'
  exact ⟨hlast'.trans hlast, hgaps'.trans hgaps, hcount'.trans hcount⟩

theorem SameContinuity.withEntry (s : State) (e : Option Entry) : SameContinuity s (s.withEntry e) :=
  ⟨rfl, rfl, rfl⟩

theorem SameContinuity.report (s : State) {r : Report} (hr : r.code ≠ 0x3#4) : SameContinuity s (s.report r) := by
  refine ⟨rfl, ?_, ?_⟩
  · simp [State.gaps, State.report, hr]
  · cases r with
    | gap => exact absurd rfl hr
    | _ => rfl

/-- A frame is rejected as malformed or for its ICV (42_mac_frame.md R168). -/
theorem code_of_macDecode_error {cfg : Config} {f : Bytes} {r : Report} (h : macDecode cfg f = .error r) :
    r.code ≠ 0x3#4 := by
  rw [macDecode_eq] at h
  split_ifs at h
  all_goals
    injection h with h
    subst h
    simp [Report.code]

theorem SameContinuity.deliver (s : State) (f : Bytes) : SameContinuity s (s.deliver f) := by
  rcases deliver_cases s f with ⟨p, -, h⟩ | ⟨p, -, h⟩ | ⟨r, hr, h⟩
  · rw [h]; exact ⟨rfl, rfl, rfl⟩
  · rw [h]; exact ⟨rfl, rfl, rfl⟩
  · rw [h]; exact .report s (code_of_macDecode_error hr)

theorem SameContinuity.dropEntryIf (s : State) (p : BitVec 16 → Bool) : SameContinuity s (s.dropEntryIf p) := by
  rcases dropEntryIf_cases s p with ⟨h, -⟩ | ⟨e, -, -, h⟩
  · rw [h]; exact .refl s
  · rw [h]; exact .withEntry s none

theorem SameContinuity.continueEntry (s : State) (ssn : BitVec 16) (boundary : Bool) (region : Bytes) :
    SameContinuity s (s.continueEntry ssn boundary region) := by
  rcases continueEntry_cases s ssn boundary region with ⟨-, h⟩ | ⟨e, t, -, -, -, h⟩ | ⟨e, -, -, h⟩
  · rw [h]; exact .refl s
  · rw [h]; exact (SameContinuity.deliver s _).trans (.withEntry _ none)
  · rw [h]; exact .withEntry s _

theorem SameContinuity.scanFrames (key : BitVec 16) (fuel : Nat) (b : Bytes) (s : State) :
    SameContinuity s (scanFrames key fuel b s) := by
  induction fuel generalizing b s with
  | zero => exact .refl s
  | succ fuel ih =>
    match b with
    | [] => exact .refl s
    | [x] => exact .withEntry s (some ⟨key, [x]⟩)
    | b0 :: b1 :: r =>
      rw [scanFrames_of_two_le _ _ (by simp)]
      split_ifs
      · exact .refl s
      · exact (SameContinuity.deliver s _).trans (ih _ _)
      · exact .withEntry s _

theorem SameContinuity.receiveBody (s : State) (h : BlockHeader) (body : Bytes) :
    SameContinuity s (s.receiveBody h body) := by
  unfold State.receiveBody
  simp only
  have hcontinue := fun boundary region => (SameContinuity.dropEntryIf s fun key => key != h.ssn).trans
    (.continueEntry _ h.ssn boundary region)
  split_ifs
  · exact (SameContinuity.report s (by simp [Report.code])).trans (.withEntry _ none)
  · exact (hcontinue _ _).trans (.scanFrames ..)
  · exact hcontinue _ _

/-! ## One block, and the blocks of a burst -/

theorem code_of_mem_gapReports {last : Option (BitVec 16)} {ssn : BitVec 16} {r : Report}
    (h : r ∈ gapReports last ssn) : (r.code == 0x3#4) = true := by
  unfold gapReports at h
  split at h
  · cases h
  · split_ifs at h
    · cases h
    · rw [List.mem_singleton.mp h]; rfl

@[simp] theorem examined_gaps (s : State) (ssn : BitVec 16) :
    (s.examined ssn).gaps = s.gaps ++ gapReports s.lastReceivedSsn ssn := by
  rw [State.gaps, State.examined, List.filter_append,
    List.filter_eq_self.mpr fun r hr => code_of_mem_gapReports hr, State.gaps]

/-- After its number is examined, a block touches continuity no more. -/
theorem receiveBlock_continuity (s : State) (size index : Nat) (blk : Bytes) :
    SameContinuity (s.examined (headerFields blk).ssn) (s.receiveBlock size index blk) := by
  rw [receiveBlock_eq]
  split_ifs
  · exact .receiveBody ..
  · exact (SameContinuity.report _ (by simp [Report.code])).trans (.dropEntryIf ..)

/-- The last number, the gap reports and the gap counter after the blocks of a burst: each number is checked against
the one before it, the first against the last one received (R233, R234). -/
theorem receiveBlocks_continuity (size index : Nat) (blks : List Bytes) (s : State) {ssns : List (BitVec 16)}
    {gaps : List Report} (hssns : ssns = blks.map fun blk => (headerFields blk).ssn)
    (hgaps : gaps = (List.zipWith gapReports (s.lastReceivedSsn :: ssns.map some) ssns).flatten) :
    (State.receiveBlocks size index blks s).lastReceivedSsn = ssns.getLast?.or s.lastReceivedSsn ∧
      (State.receiveBlocks size index blks s).gaps = s.gaps ++ gaps ∧
      (State.receiveBlocks size index blks s).counters.sequence
        = s.counters.sequence + BitVec.ofNat 32 gaps.length := by
  subst hssns hgaps
  induction blks generalizing index s with
  | nil => exact ⟨rfl, (List.append_nil _).symm, (BitVec.add_zero _).symm⟩
  | cons blk blks ih =>
    obtain ⟨hlast, hgaps, hcount⟩ := receiveBlock_continuity s size index blk
    obtain ⟨ihlast, ihgaps, ihcount⟩ := ih (index + 1) (s.receiveBlock size index blk)
    have hnumber : (s.receiveBlock size index blk).lastReceivedSsn = some (headerFields blk).ssn := hlast
    rw [State.receiveBlocks, ihlast, ihgaps, ihcount, hgaps, hcount, hnumber, examined_gaps]
    refine ⟨?_, ?_, ?_⟩
    · simp [List.getLast?_cons]
    · simp
    · simp [State.examined, BitVec.ofNat_add, BitVec.add_assoc]

/-! ## A whole burst -/

/-- A received burst examines the number of every whole block, in order (R230, R233). -/
theorem reassemble_continuity (s : State) {burst : Bytes} {size : Nat} (hs : burstBodySize burst.length = size)
    {ssns : List (BitVec 16)} {gaps : List Report}
    (hssns : ssns = (List.range (burst.length / (size + 8))).map fun i =>
      BitVec.ofNat 16 (leNat ((burst.drop (i * (size + 8))).take 2)))
    (hgaps : gaps = (List.zipWith gapReports (s.lastReceivedSsn :: ssns.map some) ssns).flatten) :
    (s.reassemble burst).lastReceivedSsn = ssns.getLast?.or s.lastReceivedSsn ∧
      (s.reassemble burst).gaps = s.gaps ++ gaps ∧
      (s.reassemble burst).counters.sequence = s.counters.sequence + BitVec.ofNat 32 gaps.length := by
  refine receiveBlocks_continuity _ 0 (burstBlocks burst) s ?_ hgaps
  rw [hssns, burstBlocks_eq hs, List.map_map]
  refine List.map_congr_left fun i _ => ?_
  rw [Function.comp_apply, blockSsn_eq, blockAt, List.take_take, Nat.min_eq_left (by omega)]

/-- Settles O30: every whole block's number is examined once, and nothing else reports a gap. -/
theorem sequenceGapsAreReportedAndCounted : Obligations.SequenceGapsAreReportedAndCounted := by
  intro s burst hf size ssns gaps
  obtain ⟨-, hgaps, hcount⟩ := reassemble_continuity s (burstBodySize_eq burst.length) (ssns := ssns) rfl
    (gaps := gaps) rfl
  exact ⟨_, exec_phyRxSof hf burst, hgaps, hcount⟩

/-- The bytes after the whole blocks of a burst change nothing (R231). -/
theorem reassemble_take (s : State) {burst : Bytes} {size : Nat} (hs : burstBodySize burst.length = size) :
    s.reassemble (burst.take (burst.length / (size + 8) * (size + 8))) = s.reassemble burst := by
  generalize hn : burst.length / (size + 8) = n
  have hle : n * (size + 8) ≤ burst.length := hn ▸ Nat.div_mul_le_self ..
  have hlength : (burst.take (n * (size + 8))).length = n * (size + 8) := List.length_take_of_le hle
  have hsize : n = 0 ∨ burstBodySize (burst.take (n * (size + 8))).length = size := by
    rw [hlength]
    rw [burstBodySize_eq] at hs ⊢
    split_ifs at hs <;> subst hs <;> split_ifs <;> omega
  obtain ⟨hblocks, herrors⟩ := receiveBlocks_of_size s hlength hsize
  have hwhole : burstBlocks burst = chunks (size + 8) n burst := by
    subst hs hn
    rfl
  rw [reassemble_eq, reassemble_eq, hblocks, herrors, chunks_take, burstErrors, hs, hwhole]

/-- The number of the last whole block of a burst, or the one before the burst where it holds none (R233). -/
theorem reassemble_lastReceivedSsn (s : State) {burst : Bytes} {size : Nat}
    (hs : burstBodySize burst.length = size) :
    (s.reassemble burst).lastReceivedSsn =
      if burst.length / (size + 8) = 0 then s.lastReceivedSsn
      else some (BitVec.ofNat 16
        (leNat ((blockAt size (burst.length / (size + 8) - 1) burst).take 2))) := by
  obtain ⟨hlast, -, -⟩ := reassemble_continuity s hs rfl rfl
  rw [hlast, List.getLast?_map, List.getLast?_range]
  split_ifs
  · rfl
  · rw [blockAt, List.take_take, Nat.min_eq_left (by omega)]
    rfl

/-! ## The three rows that receive a burst -/

theorem exec_reassemble (s : State) (burst : Bytes) :
    exec (.reassemble burst) s
      = .next ((s.reassemble burst).setResult (.blockErrors (burstErrors s.cfg.crc burst))) := rfl

theorem exec_phyBlockHeader (s : State) (hdr : BlockHeader) (rest : Bytes) :
    exec (.phyBlockHeader hdr rest) s = exec (.reassemble (encode (.phyBlockHeader hdr rest))) s := rfl

theorem burstErrors_length (a : CrcAlgo) {burst : Bytes} {size : Nat} (hs : burstBodySize burst.length = size) :
    (burstErrors a burst).length = burst.length / (size + 8) := by
  rw [burstErrors, List.length_map, burstBlocks_length hs]

theorem isDelivery_iff (o : OutEvent) : o.isDelivery = true ↔ (∃ p, o = .appRx p) ∨ ∃ m, o = .mgmtRx m := by
  cases o <;> simp [OutEvent.isDelivery]

/-- Settles O28: `reassemble_change` gives the frame, and the rows all answer `s.reassemble burst`. -/
theorem receivedBurstIsCheckedBlockByBlock : Obligations.ReceivedBurstIsCheckedBlockByBlock := by
  intro s burst size block blocks
  have hs : burstBodySize burst.length = size := burstBodySize_eq _
  obtain ⟨l, entry, counters, rs, deliveries, hdeliveries, hchange⟩ := reassemble_change s burst
  have hlast := reassemble_lastReceivedSsn s hs
  rw [hchange] at hlast
  change l = _ at hlast
  refine ⟨burstErrors s.cfg.crc burst, entry, counters, rs, deliveries, burstErrors_length _ hs, fun i hi => ?_,
    fun o ho => (isDelivery_iff o).mp (hdeliveries o ho), fun t ht => ?_⟩
  · exact (burstErrors_getElem?_eq_some hs).mpr ⟨hi, decide_eq_true_iff⟩
  · have hreceived : s.reassemble burst = t := by
      rw [ht, hchange, hlast]
      rfl
    refine ⟨fun b hb => ?_, fun hdr rest hburst => ?_⟩
    · have hb : s.reassemble b = t := by
        rcases hb with rfl | rfl
        · exact hreceived
        · rw [reassemble_take s hs, hreceived]
      have herrors : burstErrors s.cfg.crc b = burstErrors s.cfg.crc burst := by
        rw [← reassemble_rxBlockErrors, ← reassemble_rxBlockErrors, hb, hreceived]
      refine ⟨fun hf => by rw [exec_phyRxSof hf, hb], ?_⟩
      rw [exec_reassemble, hb, herrors]
      rfl
    · rw [exec_phyBlockHeader, hburst, exec_reassemble, hreceived]
      rfl

end Sys2Proof.Machine
end

section
/-! SUPPORT. The last block of a burst, case by case (44_reassembler.md R235 to R248): it fails its check, its boundary
is past its body, it is all continuation, or it holds a boundary and the frames from it on. -/

namespace Sys2Proof.Machine

/-! ## The check of the last block -/

@[simp] theorem withEntry_entry (s : State) (e : Option Entry) : (s.withEntry e).entry = e := rfl

@[simp] theorem examined_cfg (s : State) (ssn : BitVec 16) : (s.examined ssn).cfg = s.cfg := rfl

@[simp] theorem examined_entry (s : State) (ssn : BitVec 16) : (s.examined ssn).entry = s.entry := rfl

/-- A conditional discard as the entry it leaves (R235, R238). -/
theorem dropEntryIf_eq_withEntry (s : State) (p : BitVec 16 → Bool) :
    s.dropEntryIf p = s.withEntry (s.entry.filter fun e => !p e.key) := by
  rcases dropEntryIf_cases s p with ⟨h, hkey⟩ | ⟨e, he, hp, h⟩
  · have hkept : (s.entry.filter fun e => !p e.key) = s.entry := by
      cases he : s.entry with
      | none => rfl
      | some e => rw [Option.filter_some, hkey e he]; rfl
    rw [h, hkept]
    rfl
  · have hdropped : (s.entry.filter fun e => !p e.key) = none := by
      rw [he, Option.filter_some, hp]
      rfl
    rw [h, hdropped]
    rfl

section LastBlock

variable {s u : State} {burst blk : Bytes} {size index : Nat}

/-- A last block that fails its check (R235). -/
theorem LastBlock.received_of_fails (h : LastBlock s u burst blk size index) (hf : s.fsm = .waitingForSof)
    (hfails : ¬ BlockPasses s.cfg.crc size blk) :
    exec (.phyRxSof burst) s = .next ((((u.examined (headerFields blk).ssn).report
      (.block (headerFields blk).ssn index)).dropEntryIf fun key => key == (headerFields blk).ssn).withErrors
        (u.rxBlockErrors ++ [true])) := by
  obtain ⟨hcfg, hexec⟩ := lastBlock_received hf h
  have hnot : blockOk s.cfg.crc size blk = false :=
    Bool.eq_false_iff.mpr fun hok => hfails ((blockOk_iff ..).mp hok)
  rw [hexec, receiveBlock_eq, hcfg, if_neg hfails, hnot]
  rfl

/-- A last block that passes its check has its body received (R236 to R248). -/
theorem LastBlock.received_of_passes (h : LastBlock s u burst blk size index) (hf : s.fsm = .waitingForSof)
    (hpass : BlockPasses s.cfg.crc size blk) :
    exec (.phyRxSof burst) s = .next (((u.examined (headerFields blk).ssn).receiveBody (headerFields blk)
      (slice blk 4 (4 + size))).withErrors (u.rxBlockErrors ++ [false])) := by
  obtain ⟨hcfg, hexec⟩ := lastBlock_received hf h
  rw [hexec, receiveBlock_eq, hcfg, if_pos hpass, (blockOk_iff ..).mpr hpass]
  rfl

theorem LastBlock.examined_cfg_eq (h : LastBlock s u burst blk size index) (hf : s.fsm = .waitingForSof)
    (ssn : BitVec 16) : (u.examined ssn).cfg = s.cfg := by
  obtain ⟨hcfg, -⟩ := lastBlock_received hf h
  rw [examined_cfg, hcfg]

theorem LastBlock.blk_length (h : LastBlock s u burst blk size index) : blk.length = size + 8 := by
  obtain ⟨-, -, hlength, -⟩ := h
  exact hlength

/-- The slice of the body is as long as its bounds say. -/
theorem LastBlock.slice_body_length (h : LastBlock s u burst blk size index) {i j : Nat} (hj : j ≤ size) :
    (slice blk (4 + i) (4 + j)).length = j - i := by
  rw [slice_length, h.blk_length]
  omega

end LastBlock

/-- Settles O29: the entry it waits for, where its key is the failed block's, is the one discarded. -/
theorem failedBlockContributesNothing : Obligations.FailedBlockContributesNothing := by
  intro s u burst blk size index hf hlast hfails ssn v
  have hentry : (v.entry.filter fun e => !(e.key == ssn))
      = if u.entry.map Entry.key = some ssn then none else u.entry := by
    show (u.entry.filter fun e => !(e.key == ssn)) = _
    cases u.entry with
    | none => rfl
    | some e => by_cases hkey : e.key = ssn <;> simp [Option.filter, hkey]
  rw [hlast.received_of_fails hf hfails, dropEntryIf_eq_withEntry, ← hentry]
  rfl

/-! ## A boundary past the body -/

theorem receiveBody_of_badBoundary {s : State} {h : BlockHeader} {body : Bytes} (hflag : h.macBoundaryFlag = true)
    (hoffset : body.length ≤ h.macBoundaryOffset.toNat) :
    s.receiveBody h body = (s.report (.badBoundary h.ssn h.macBoundaryOffset.toNat)).withEntry none := by
  unfold State.receiveBody
  exact if_pos ⟨hflag, hoffset⟩

/-- Settles O31: the whole body is shorter than the boundary, so only the report and the discard are left. -/
theorem badBoundaryIsReported : Obligations.BadBoundaryIsReported := by
  rintro s u burst blk size index hf hlast hpass h rfl hflag hoffset v
  have hbody : (slice blk 4 (4 + size)).length = size := hlast.slice_body_length (i := 0) le_rfl
  rw [hlast.received_of_passes hf hpass, receiveBody_of_badBoundary hflag (hbody.trans_le hoffset)]
  rfl

/-! ## The entry given a continuation region -/

/-- An entry that waits for another block is as none (R238). -/
theorem receiveBody_of_otherKey {s : State} {h : BlockHeader} (hkey : ∀ e, s.entry = some e → e.key ≠ h.ssn)
    (body : Bytes) : s.receiveBody h body = (s.withEntry none).receiveBody h body := by
  have hdrop : s.dropEntryIf (fun key => key != h.ssn) = s.withEntry none := by
    rw [dropEntryIf_eq_withEntry]
    congr 1
    cases he : s.entry with
    | none => rfl
    | some e => simpa using hkey e he
  have hdrop' : (s.withEntry none).dropEntryIf (fun key => key != h.ssn) = s.withEntry none := rfl
  unfold State.receiveBody
  rw [hdrop, hdrop']
  rfl

theorem continueEntry_of_none {s : State} (he : s.entry = none) (ssn : BitVec 16) (boundary : Bool)
    (region : Bytes) : s.continueEntry ssn boundary region = s := by
  rw [State.continueEntry, he]

section Continuation

variable {s : State} {e : Entry} {region data : Bytes}

/-- The entry with its region holds its whole frame, which is delivered (R240). -/
theorem continueEntry_of_whole (he : s.entry = some e) (hdata : data = e.data ++ region) (htwo : 2 ≤ data.length)
    (hwhole : frameTotal s.cfg data ≤ data.length) (ssn : BitVec 16) (boundary : Bool) :
    s.continueEntry ssn boundary region = (s.withEntry none).deliver (data.take (frameTotal s.cfg data)) := by
  subst hdata
  simp only [State.continueEntry, he, expectedLength_eq_frameTotal _ htwo, if_pos hwhole, withEntry_deliver]
  rfl

/-- The entry with its region is short of its frame: discarded at a boundary, else carried over (R241, R242). -/
theorem continueEntry_of_short (he : s.entry = some e) (hdata : data = e.data ++ region)
    (hshort : data.length < 2 ∨ data.length < frameTotal s.cfg data) (ssn : BitVec 16) (boundary : Bool) :
    s.continueEntry ssn boundary region = s.withEntry (if boundary then none else some ⟨ssn + 1, data⟩) := by
  subst hdata
  rcases Nat.lt_or_ge (e.data ++ region).length 2 with hone | htwo
  · simp only [State.continueEntry, he, expectedLength_of_lt_two _ hone]
    rfl
  · have hle : ¬ frameTotal s.cfg (e.data ++ region) ≤ (e.data ++ region).length := by omega
    simp only [State.continueEntry, he, expectedLength_eq_frameTotal _ htwo, if_neg hle]
    rfl

end Continuation

/-- Settles O32: an entry that waits for another block is as none; the one that waits for this block gets the whole
body as its region. -/
theorem blockWithoutBoundaryContinuesTheEntry : Obligations.BlockWithoutBoundaryContinuesTheEntry := by
  rintro s u burst blk size index hf hlast hpass h rfl hflag v
  have hcfg : (u.examined (headerFields blk).ssn).cfg = s.cfg := hlast.examined_cfg_eq hf _
  rw [hlast.received_of_passes hf hpass]
  refine ⟨fun hkey => ?_, fun e data he hkey hdata => ?_⟩
  · rw [← examined_entry u (headerFields blk).ssn] at hkey
    rw [receiveBody_of_otherKey hkey, receiveBody_of_continuation hflag (by simp),
      continueEntry_of_none rfl]
    rfl
  · rw [← examined_entry u (headerFields blk).ssn] at he
    have hwaits : ∀ e', (u.examined (headerFields blk).ssn).entry = some e' → e'.key = (headerFields blk).ssn := by
      rintro e' he'
      rw [Option.some.inj (he'.symm.trans he), hkey]
    rw [receiveBody_of_continuation hflag hwaits, ← hcfg]
    refine ⟨fun hshort => ?_, fun htwo hwhole => ?_⟩
    · rw [continueEntry_of_short he hdata hshort]
      rfl
    · rw [continueEntry_of_whole he hdata htwo hwhole, ← withErrors_deliver]
      rfl

/-! ## A boundary inside the body -/

/-- The frame that the bytes before a boundary complete, if there is one (R239 to R241). -/
def continuedFrames (cfg : Config) (ssn : BitVec 16) (region : Bytes) : Option Entry → List Bytes
  | none => []
  | some e =>
    let data := e.data ++ region
    if e.key = ssn ∧ 2 ≤ data.length ∧ frameTotal cfg data ≤ data.length then [data.take (frameTotal cfg data)]
    else []

theorem continuedFrames_of_otherKey (cfg : Config) {ssn : BitVec 16} (region : Bytes) {entry : Option Entry}
    (hkey : ∀ e, entry = some e → e.key ≠ ssn) : continuedFrames cfg ssn region entry = [] := by
  cases entry with
  | none => rfl
  | some e => exact if_neg fun h => hkey e rfl h.1

/-- The bytes before a boundary given to an entry that waits for this block: completed or discarded. -/
theorem continueEntry_at_boundary {s : State} {ssn : BitVec 16} (hkey : ∀ e, s.entry = some e → e.key = ssn)
    (region : Bytes) :
    s.continueEntry ssn true region
      = (continuedFrames s.cfg ssn region s.entry).foldl State.deliver (s.withEntry none) := by
  cases he : s.entry with
  | none => exact (continueEntry_of_none he ..).trans (withEntry_self he).symm
  | some e =>
    by_cases hwhole : 2 ≤ (e.data ++ region).length ∧
        frameTotal s.cfg (e.data ++ region) ≤ (e.data ++ region).length
    · obtain ⟨htwo, hle⟩ := hwhole
      rw [continueEntry_of_whole he rfl htwo hle, continuedFrames, if_pos ⟨hkey e he, htwo, hle⟩]
      rfl
    · have hnot : ¬ (e.key = ssn ∧ 2 ≤ (e.data ++ region).length ∧
          frameTotal s.cfg (e.data ++ region) ≤ (e.data ++ region).length) := fun h => hwhole h.2
      rw [continueEntry_of_short he rfl (by omega), continuedFrames, if_neg hnot]
      rfl

/-- A body with a boundary inside it: the frame it completes, then the scan from the boundary on, with no entry
(R237 to R244). -/
theorem receiveBody_at_boundary (s : State) {h : BlockHeader} {region rest : Bytes} (hflag : h.macBoundaryFlag = true)
    (hoffset : h.macBoundaryOffset.toNat = region.length) (hrest : rest ≠ []) :
    s.receiveBody h (region ++ rest) = scanFrames (h.ssn + 1) (region ++ rest).length rest
      ((continuedFrames s.cfg h.ssn region s.entry).foldl State.deliver (s.withEntry none)) := by
  by_cases hkey : ∀ e, s.entry = some e → e.key = h.ssn
  · rw [receiveBody_of_boundary hflag hoffset hrest hkey, continueEntry_at_boundary hkey]
  · have hother : ∀ e, s.entry = some e → e.key ≠ h.ssn := by
      rintro e he heq
      refine hkey fun e' he' => ?_
      rw [Option.some.inj (he'.symm.trans he), heq]
    rw [receiveBody_of_otherKey hother, receiveBody_of_boundary hflag hoffset hrest (by simp),
      continueEntry_of_none rfl, continuedFrames_of_otherKey _ _ hother]
    rfl

/-- What the scan leaves where no whole frame begins: padding is dropped, and a single byte or a partial frame becomes
an entry (R245, R247, R248). -/
theorem scanFrames_left (key : BitVec 16) {left : Bytes} {fuel : Nat} {s : State} (hfuel : left.length ≤ fuel)
    (hleft : ¬ (2 ≤ left.length ∧ frameType s.cfg left ≠ 0 ∧ frameTotal s.cfg left ≤ left.length)) :
    scanFrames key fuel left s
      = s.withEntry (if left = [] ∨ (2 ≤ left.length ∧ frameType s.cfg left = 0) then s.entry
          else some ⟨key, left⟩) := by
  by_cases hnil : left = []
  · rw [hnil, scanFrames_nil, if_pos (.inl rfl), withEntry_self rfl]
  have hpos := List.length_pos_iff.mpr hnil
  obtain ⟨fuel, rfl⟩ : ∃ n, fuel = n + 1 := ⟨fuel - 1, by omega⟩
  rcases Nat.lt_or_ge left.length 2 with hone | htwo
  · obtain ⟨b, rfl⟩ := List.length_eq_one_iff.mp (show left.length = 1 by omega)
    rw [if_neg (by simp)]
    rfl
  · rw [scanFrames_of_two_le _ _ htwo]
    by_cases htype : frameType s.cfg left = 0
    · rw [if_pos htype, if_pos (.inr ⟨htwo, htype⟩), withEntry_self rfl]
    · rw [if_neg htype, if_neg fun hle => hleft ⟨htwo, htype, hle⟩, if_neg (by simp [hnil, htype])]

@[simp] theorem deliverAll_entry (s : State) (fs : List Bytes) : (fs.foldl State.deliver s).entry = s.entry := by
  induction fs generalizing s with
  | nil => rfl
  | cons f fs ih => rw [List.foldl_cons, ih, deliver_entry]

theorem withErrors_deliverAll (s : State) (errs : List Bool) (fs : List Bytes) :
    fs.foldl State.deliver (s.withErrors errs) = (fs.foldl State.deliver s).withErrors errs := by
  induction fs generalizing s with
  | nil => rfl
  | cons f fs ih => rw [List.foldl_cons, List.foldl_cons, withErrors_deliver, ih]

/-- Whole frames one after the other are delivered, and then what is left is dropped or becomes the entry (R244 to
R248). -/
theorem scanFrames_framed_left (key : BitVec 16) {fs : List Bytes} {left : Bytes} {fuel : Nat} {s : State}
    (he : s.entry = none) (hfs : ∀ f ∈ fs, Framed s.cfg f) (hfuel : (fs.flatten ++ left).length ≤ fuel)
    (hleft : ¬ (2 ≤ left.length ∧ frameType s.cfg left ≠ 0 ∧ frameTotal s.cfg left ≤ left.length)) :
    scanFrames key fuel (fs.flatten ++ left) s
      = fs.foldl State.deliver (s.withEntry (if left = [] ∨ (2 ≤ left.length ∧ frameType s.cfg left = 0) then none
          else some ⟨key, left⟩)) := by
  obtain ⟨fuel', hfuel', hscan⟩ := scanFrames_framed key hfs hfuel
  rw [hscan, scanFrames_left key hfuel' (by rwa [deliverAll_cfg]), deliverAll_cfg, deliverAll_entry, he,
    withEntry_deliverAll]

theorem slice_append_slice (b : Bytes) {i j k : Nat} (hij : i ≤ j) (hjk : j ≤ k) :
    slice b i j ++ slice b j k = slice b i k := by
  have htake : b.take j = (b.take k).take j := by rw [List.take_take, Nat.min_eq_left hjk]
  rw [slice, slice, slice, htake, List.drop_take]
  generalize b.take k = c
  calc (c.drop i).take (j - i) ++ c.drop j
      = (c.drop i).take (j - i) ++ (c.drop i).drop (j - i) := by rw [List.drop_drop, Nat.add_sub_cancel' hij]
    _ = c.drop i := List.take_append_drop ..

/-- Settles O33: the continued frame, the frames the scan finds and what it leaves, in the order they stand in the
body. -/
theorem blockWithBoundaryDeliversItsFrames : Obligations.BlockWithBoundaryDeliversItsFrames := by
  rintro s u burst blk size index hf hlast hpass h rfl hflag hoffset fs left hrest hfs hleft continued hcontinued
  have hcfg : (u.examined (headerFields blk).ssn).cfg = s.cfg := hlast.examined_cfg_eq hf _
  generalize hn : (headerFields blk).macBoundaryOffset.toNat = n at hoffset hrest hcontinued
  have hcontinued : continued
      = continuedFrames (u.examined (headerFields blk).ssn).cfg (headerFields blk).ssn (slice blk 4 (4 + n))
          (u.examined (headerFields blk).ssn).entry := by
    rw [hcontinued, hcfg, examined_entry]
    cases u.entry <;> rfl
  have hbody : slice blk 4 (4 + size) = slice blk 4 (4 + n) ++ (fs.flatten ++ left) := by
    rw [← hrest, slice_append_slice blk (by omega) (by omega)]
  have hregion : n = (slice blk 4 (4 + n)).length := (hlast.slice_body_length (i := 0) hoffset.le).symm
  have hne : fs.flatten ++ left ≠ [] := by
    refine List.ne_nil_of_length_pos ?_
    rw [← hrest, hlast.slice_body_length le_rfl]
    omega
  have hstart : (continued.foldl State.deliver ((u.examined (headerFields blk).ssn).withEntry none)).cfg = s.cfg := by
    rw [deliverAll_cfg, withEntry_cfg, hcfg]
  rw [hlast.received_of_passes hf hpass, hbody, receiveBody_at_boundary _ hflag (hn.trans hregion) hne, ← hcontinued,
    scanFrames_framed_left _ (by simp) (by rwa [hstart]) (by simp) (by rwa [hstart]), hstart,
    ← withEntry_deliverAll, ← List.foldl_append, withEntry_withEntry, ← withErrors_deliverAll]
  rfl

end Sys2Proof.Machine
end

section
/-! SUPPORT. The SACK unit as instructions: the tag as the first byte, the one answer of the decoder, and the next state
of the rows that decode a SACK (45_sack.md R270 to R278). -/

namespace Sys2Proof.Machine

/-! ## The tag -/

theorem readBits_byte_cons (x : Byte) (r : Bytes) : readBits (x :: r) 0 8 = x.toNat := by
  rw [readBits_eq_leNat]
  exact Laws.leNat_cons_mod x r

/-- The check of R274 reads the tag as a field; it is the first byte, and no bytes hold no tag. -/
theorem readBits_eq_tag_iff (b : Bytes) : readBits b 0 8 = 0x15 ↔ b.head? = some 0x15#8 := by
  cases b with
  | nil => decide
  | cons x r =>
    rw [readBits_byte_cons, List.head?_cons, Option.some_inj, ← BitVec.toNat_inj]
    rfl

/-! ## The encoder -/

theorem exec_sackEncode (errs : List Bool) (s : State) :
    exec (.sackEncode errs) s = .next { s with result := .bytes (sackEncode errs) } := rfl

/-- The flag of block `i` is bit `8 + i` (R270, R271), and there are zeros after the last flag (R272). -/
theorem bitAt_sackEncode_flag (errs : List Bool) (i : Nat) :
    bitAt (sackEncode errs) (8 + i) = errs.getD i false := by
  rw [bitAt_sackEncode, if_neg (by omega), Nat.add_sub_cancel_left]

theorem sackEncode_head? (errs : List Bool) : (sackEncode errs).head? = some 0x15#8 := by
  have hbits : ∀ j < 8, bitAt (sackEncode errs) (0 + j) = bitAt [0x15#8] (0 + j) := by
    intro j hj
    rw [Nat.zero_add, bitAt_sackEncode, if_pos hj]
    revert j
    decide
  rw [← readBits_eq_tag_iff, readBits_congr hbits]
  rfl

/-- Settles O36: `bitAt_sackEncode` at the flags and past them. -/
theorem sackEncodeWritesOneBitPerBlock : Obligations.SackEncodeWritesOneBitPerBlock := by
  intro s errs
  refine ⟨rfl, sackEncode errs, exec_sackEncode errs s, sackEncode_length errs, sackEncode_head? errs, ?_, ?_⟩
  · intro i hi
    rw [bitAt_sackEncode_flag, List.getElem?_eq_getElem hi, List.getD_eq_getElem _ _ hi]
  · intro p hp
    obtain ⟨i, rfl⟩ := Nat.exists_eq_add_of_le (show 8 ≤ p by omega)
    rw [bitAt_sackEncode_flag, List.getD_eq_default _ _ (by omega)]

/-! ## The decoder -/

/-- The decoder's checks in their order, and its count (R273 to R275). -/
theorem sackDecode_eq (b : Bytes) (n : Nat) :
    sackDecode b n =
      if b.head? ≠ some 0x15#8 then .error (.badSackTag b.head?)
      else if b.length < 1 + (n + 7) / 8 then .error (.shortSack b.length n)
      else .ok ((List.range n).countP fun i => bitAt b (8 + i)) := by
  rcases sackDecode_cases b n with ⟨htag, h⟩ | ⟨-, htag, hshort, h⟩ | ⟨-, htag, hlong, h⟩
  · have hhead : b.head? ≠ some 0x15#8 := by
      rcases htag with rfl | htag
      · exact (Option.some_ne_none _).symm
      · rwa [Ne, ← readBits_eq_tag_iff]
    rw [h, if_pos hhead]
  · rw [h, if_neg (not_not_intro ((readBits_eq_tag_iff b).mp htag)), if_pos hshort]
  · rw [h, if_neg (not_not_intro ((readBits_eq_tag_iff b).mp htag)), if_neg (by omega), countFlags_eq]

theorem sackReports_ok (e : Nat) : sackReports (.ok e) = if e = 0 then [] else [.sackResult e] := by
  cases e <;> rfl

theorem exec_sackDecode (b : Bytes) (n : Nat) (s : State) :
    exec (.sackDecode b n) s
      = .next ((s.reportAll (sackReports (sackDecode b n))).setResult (.count (sackDecode b n).toOption)) := rfl

/-- The SACK row is SACK-DECODE for the block count of the last transmission (R277). -/
theorem exec_sackPayload (bitmap : Bytes) (s : State) :
    exec (.sackPayload bitmap) s = exec (.sackDecode (0x15#8 :: bitmap) s.lastFrameBlockCount.toNat) s := rfl

/-- A malformed SACK is one FormatError and gives no count (R274 to R276). -/
theorem exec_sackDecode_of_error {b : Bytes} {n : Nat} {r : Report} (h : sackDecode b n = .error r) (s : State) :
    exec (.sackDecode b n) s = .next { s with
      counters := s.counters.bump r
      reports := s.reports ++ [r]
      result := .count none } := by
  rw [exec_sackDecode, h]
  rfl

/-- A well-formed SACK gives its count, and one report where that is not zero (R273, R276). -/
theorem exec_sackDecode_of_ok {b : Bytes} {n e : Nat} (h : sackDecode b n = .ok e) (s : State) :
    exec (.sackDecode b n) s = .next { s with
      reports := s.reports ++ (if e = 0 then [] else [.sackResult e])
      result := .count (some e) } := by
  rw [exec_sackDecode, h, reportAll_sackReports, sackReports_ok]
  rfl

/-- Settles O37: each answer of `sackDecode_eq` has its next state, and the row is SACK-DECODE behind its tag. -/
theorem sackDecodeCountsTheFlags : Obligations.SackDecodeCountsTheFlags := by
  intro s b n e malformed
  have hdecode : exec (.sackDecode b n) s = .next (
      if b.head? ≠ some 0x15#8 then malformed (.badSackTag b.head?)
      else if b.length < 1 + (n + 7) / 8 then malformed (.shortSack b.length n)
      else { s with
        reports := s.reports ++ (if e = 0 then [] else [.sackResult e])
        result := .count (some e) }) := by
    have hanswer := sackDecode_eq b n
    by_cases htag : b.head? ≠ some 0x15#8
    · rw [if_pos htag] at hanswer ⊢
      exact exec_sackDecode_of_error hanswer s
    by_cases hshort : b.length < 1 + (n + 7) / 8
    · rw [if_neg htag, if_pos hshort] at hanswer ⊢
      exact exec_sackDecode_of_error hanswer s
    · rw [if_neg htag, if_neg hshort] at hanswer ⊢
      exact exec_sackDecode_of_ok hanswer s
  refine ⟨hdecode, fun bitmap hb hn => ?_⟩
  have htag : ¬ b.head? ≠ some 0x15#8 := by rw [hb]; exact not_not_intro rfl
  rw [if_neg htag] at hdecode
  rw [exec_sackPayload, ← hb, ← hn, hdecode]

/-! ## The round trip -/

/-- The flags of a SACK, read back in order, are the ones it was encoded from (R278). -/
theorem map_bitAt_sackEncode (errs : List Bool) :
    (List.range errs.length).map (fun i => bitAt (sackEncode errs) (8 + i)) = errs := by
  apply List.ext_getElem (by simp)
  intro i _ hi
  rw [List.getElem_map, List.getElem_range, bitAt_sackEncode_flag, List.getD_eq_getElem _ _ hi]

theorem sackDecode_sackEncode (errs : List Bool) :
    sackDecode (sackEncode errs) errs.length = .ok (errs.count true) := by
  have hcount : (List.range errs.length).countP (fun i => bitAt (sackEncode errs) (8 + i)) = errs.count true := by
    calc _ = ((List.range errs.length).map fun i => bitAt (sackEncode errs) (8 + i)).count true := by
          simp [List.count, List.countP_map, Function.comp_def]
      _ = errs.count true := by rw [map_bitAt_sackEncode]
  rw [sackDecode_eq, if_neg (not_not_intro (sackEncode_head? errs)), sackEncode_length, if_neg (lt_irrefl _), hcount]

/-- Settles O38: what the encoder writes is never malformed for its own number of blocks. -/
theorem sackDecodeCountsWhatWasEncoded : Obligations.SackDecodeCountsWhatWasEncoded := fun s t errs =>
  ⟨sackEncode errs, exec_sackEncode errs s, exec_sackDecode_of_ok (sackDecode_sackEncode errs) t⟩

end Sys2Proof.Machine
end

section
/-! SUPPORT. What the send path leaves with data and without (46_arq_fsm.md R300 to R303), and which stream a draw
serves. -/

namespace Sys2Proof.Machine

variable {s t : State}

/-! ## The send path with data to send -/

theorem State.Sends.timerArmed (h : s.Sends t) : t.timerArmed = s.timerArmed := by
  rcases h with ⟨-, rfl⟩ | ⟨-, -, _, -, rfl⟩ | ⟨_, _, -, -, -, rfl⟩ <;> rfl

theorem State.Sends.fsm_of_data (h : s.Sends t) (hdata : ∃ st ∈ s.streams, 0 < st.pending) :
    t.fsm = .sendingSofOrSound := by
  obtain ⟨st, hst, hp⟩ := hdata
  rcases h with ⟨hnone, -⟩ | ⟨-, -, _, -, rfl⟩ | ⟨_, _, -, -, -, rfl⟩
  · exact absurd (hnone st hst) hp.ne'
  · rfl
  · rfl

/-- With data and a sound due, the sound (R301). -/
theorem State.Sends.sound_of_due (h : s.Sends t) (hdata : ∃ st ∈ s.streams, 0 < st.pending)
    (hdue : ∀ l, s.lastSoundTime = some l → l.toNat + s.cfg.soundPeriodTicks < s.now) :
    ∃ tick : BitVec 64, (s.now < 2 ^ 64 → tick.toNat = s.now) ∧
      t = { s with
        lastSoundTime := some tick
        lastFrameBlockCount := 0
        fsm := .sendingSofOrSound
        outputs := s.outputs ++ [.sound] } := by
  obtain ⟨st, hst, hp⟩ := hdata
  rcases h with ⟨hnone, -⟩ | ⟨-, -, hsound⟩ | ⟨_, _, -, -, ⟨l, hl, hnot⟩, -⟩
  · exact absurd (hnone st hst) hp.ne'
  · exact hsound
  · exact absurd (hdue l hl) (Nat.not_lt.mpr hnot)

/-- With data and no sound due, a burst comes first of what is emitted (R300, R303). -/
theorem State.Sends.sof_of_not_due (h : s.Sends t) (hdata : ∃ st ∈ s.streams, 0 < st.pending) {l : BitVec 64}
    (hl : s.lastSoundTime = some l) (hnot : s.now ≤ l.toNat + s.cfg.soundPeriodTicks) :
    ∃ burst later, t.outputs = s.outputs ++ .sof s.cfg.sofModulation s.cfg.sofRoboMode burst :: later := by
  obtain ⟨st, hst, hp⟩ := hdata
  rcases h with ⟨hnone, -⟩ | ⟨-, hdue, -⟩ | ⟨_, _, -, -, -, rfl⟩
  · exact absurd (hnone st hst) hp.ne'
  · exact absurd (hdue l hl) (Nat.not_lt.mpr hnot)
  · exact ⟨_, _, List.append_assoc ..⟩

/-- Whether an output is the transmission of a burst or of a sound (30_encoding.md R106). -/
def OutEvent.isBurstOrSound (o : OutEvent) : Bool := o.code == 0x20#8 || o.code == 0x21#8

/-- The send path emits one transmission with data to send, and nothing without (R300). -/
theorem State.Sends.outputs (h : s.Sends t) :
    ∃ added, t.outputs = s.outputs ++ added ∧
      ((∃ st ∈ s.streams, 0 < st.pending) → added.countP OutEvent.isBurstOrSound = 1) ∧
      ((∀ st ∈ s.streams, st.pending = 0) → added = []) := by
  rcases h with ⟨hnone, rfl⟩ | ⟨⟨st, hst, hp⟩, -, _, -, rfl⟩ | ⟨i, st, hst, hp, -, rfl⟩
  · refine ⟨[], (List.append_nil _).symm, ?_, fun _ => rfl⟩
    rintro ⟨st, hst, hp⟩
    exact absurd (hnone st hst) hp.ne'
  · exact ⟨[.sound], rfl, fun _ => rfl, fun hnone => absurd (hnone st hst) hp.ne'⟩
  · refine ⟨_, List.append_assoc .., fun _ => ?_, fun hnone => absurd (hnone st (List.mem_of_getElem? hst)) hp.ne'⟩
    split <;> rfl

/-! ## The stream a draw serves -/

/-- The state with another draw of the stream (00_scope.md R16). -/
def State.withPick (s : State) (pick : Nat) : State := { s with draw := { s.draw with pick := pick } }

@[simp] theorem State.withPick_readySlots (pick : Nat) : (s.withPick pick).readySlots = s.readySlots := rfl

/-- A slot with queued data is the one some draw chooses (R302): the draw of its place among such slots. -/
theorem exists_drawSlot_withPick {i : Nat} {st : Stream} (hst : s.streams[i]? = some st) (hp : 0 < st.pending) :
    ∃ pick, (s.withPick pick).drawSlot = some i := by
  obtain ⟨pick, hlt, hpick⟩ := List.getElem_of_mem (mem_readySlots.mpr ⟨st, hst, hp⟩)
  refine ⟨pick, ?_⟩
  calc (s.withPick pick).drawSlot
    _ = s.readySlots[pick % s.readySlots.length]? := rfl
    _ = some i := by rw [Nat.mod_eq_of_lt hlt, List.getElem?_eq_getElem hlt, hpick]

/-- With no sound due, a burst of the drawn slot is sent first (R300, R303). -/
theorem sendPath_of_drawSlot {i : Nat} {st : Stream} {l : BitVec 64} (hdraw : s.drawSlot = some i)
    (hst : s.streams[i]? = some st) (hl : s.lastSoundTime = some l)
    (hnot : s.now ≤ l.toNat + s.cfg.soundPeriodTicks) :
    s.sendPath.streams = s.streams.set i (segment s.cfg st).stream ∧
    ∃ later, s.sendPath.outputs
      = s.outputs ++ .sof s.cfg.sofModulation s.cfg.sofRoboMode (segment s.cfg st).burst :: later := by
  have hdue : s.soundDue = false := (soundDue_eq_false s).mpr ⟨l, hl, hnot⟩
  have hsent : s.sendPath = s.sendSof i := by
    simp only [State.sendPath, hdraw, hdue, if_neg Bool.false_ne_true]
  rw [hsent, sendSof_eq hst]
  exact ⟨rfl, _, List.append_assoc ..⟩

end Sys2Proof.Machine
end

section
/-! SUPPORT. The submissions and the PHY events of the state machine, one equation per handled pair of state and event
(46_arq_fsm.md R292 to R299, R305, R308, R310). -/

namespace Sys2Proof.Machine

variable {s : State}

/-! ## Submissions -/

/-- An accepted management submission is queued, in any state (46_arq_fsm.md R294). -/
theorem exec_mgmtSubmit_accepted {dest : Addr} {mm f : Bytes} {slot : Nat} {st : Stream} (hf : s.full = false)
    (h : s.SlotFor dest slot st) (hencode : macEncode s.cfg dest mm (some s.draw.confounder) = .ok f) :
    exec (.mgmtSubmit dest mm) s = .next (s.queued dest slot st f) := by
  have harm : exec (.mgmtSubmit dest mm) s = execMgmtSubmit dest mm s := rfl
  rw [harm, execMgmtSubmit, acceptable_of_slotFor hf h hencode]
  simp only [enqueue_countAccepted hf h]

/-- Settles O43: the frame is accepted into the slot of its destination, and no state starts a cycle. -/
theorem mgmtSubmitNeverStartsACycle : Obligations.MgmtSubmitNeverStartsACycle := by
  intro s dest mm slot st hfull hslot hlen
  obtain ⟨f, hencode⟩ := macEncode_fits (cfg := s.cfg) (dest := dest) (c := some s.draw.confounder) hlen
  exact ⟨f, exec_macEncode_of_ok hencode, exec_mgmtSubmit_accepted hfull hslot hencode⟩

/-- A queued frame is data to send (43_segmenter.md R191). -/
theorem exists_pending_queued {dest : Addr} {slot : Nat} {st : Stream} (h : s.SlotFor dest slot st) {f : Bytes}
    (hf : 0 < f.length) : ∃ st' ∈ (s.queued dest slot st f).streams, 0 < st'.pending := by
  obtain ⟨hlt, -⟩ := List.getElem?_eq_some_iff.mp h.1
  refine ⟨_, List.mem_set hlt _, ?_⟩
  simp only [Stream.pending, List.map_append, List.sum_append, List.map_singleton, List.sum_singleton]
  omega

/-- Settles O42: the send path runs on the queue with the new frame, which is data to send. -/
theorem appSubmitInWaitingForAppStartsACycle : Obligations.AppSubmitInWaitingForAppStartsACycle := by
  intro s dest p slot st hfsm hfull hslot hlen
  obtain ⟨f, hencode⟩ := macEncode_fits (cfg := s.cfg) (dest := dest) (c := none) hlen
  obtain ⟨hleast, -⟩ := macEncode_length hencode
  have hsends := sendPath_sends (s.queued dest slot st f)
  refine ⟨f, _, exec_macEncode_of_ok hencode, ?_, hsends,
    hsends.fsm_of_data (exists_pending_queued hslot (by omega))⟩
  rw [exec_appSubmit_accepted hfull hslot hencode, if_pos hfsm]

/-! ## PHY-RXEND -/

theorem exec_phyRxEnd_of_waitingForSack (h : s.fsm = .waitingForSack) :
    exec .phyRxEnd s = .next (s.disarmTimer.sendPath.emit .searchPpdu) := by
  simp only [exec, execPhyRxEnd, h]

theorem exec_phyRxEnd_of_waitingForSof (h : s.fsm = .waitingForSof) :
    exec .phyRxEnd s = .next { s with
      outputs := s.outputs ++ [.sack (sackEncode s.rxBlockErrors), .searchPpdu]
      rxBlockErrors := []
      fsm := .sendingSack } := by
  simp [exec, execPhyRxEnd, h, State.emit]

/-- Settles O45: the send path runs with the timer disarmed. -/
theorem rxEndClosesTheSackWindow : Obligations.RxEndClosesTheSackWindow := fun s h =>
  ⟨_, sendPath_sends s.disarmTimer, exec_phyRxEnd_of_waitingForSack h⟩

/-- Settles O50: the bytes sent are SACK-ENCODE's. -/
theorem rxEndAnswersWithASack : Obligations.RxEndAnswersWithASack := fun s h =>
  ⟨_, exec_sackEncode s.rxBlockErrors s, exec_phyRxEnd_of_waitingForSof h⟩

/-- Settles O46: the draw is the position of the stream among those with data. -/
theorem everyStreamWithDataCanBeDrawn : Obligations.EveryStreamWithDataCanBeDrawn := by
  intro s l i st hf hl hnot hst hp
  obtain ⟨pick, hdraw⟩ := exists_drawSlot_withPick hst hp
  have hserved : (s.withPick pick).disarmTimer.sendPath.streams = s.streams.set i (segment s.cfg st).stream ∧
      ∃ later, (s.withPick pick).disarmTimer.sendPath.outputs
        = s.outputs ++ .sof s.cfg.sofModulation s.cfg.sofRoboMode (segment s.cfg st).burst :: later :=
    sendPath_of_drawSlot hdraw hst hl hnot
  obtain ⟨hstreams, later, houtputs⟩ := hserved
  exact ⟨pick, _, exec_phyRxEnd_of_waitingForSack (s := s.withPick pick) hf, hstreams, by simp [houtputs]⟩

/-- Settles O47: with data, the send path is a sound or begins with a burst, as a sound is due or not. -/
theorem soundIsSentWhenDue : Obligations.SoundIsSentWhenDue := by
  intro s hf hnow hdata
  have hsends := sendPath_sends s.disarmTimer
  refine ⟨_, exec_phyRxEnd_of_waitingForSack hf, ⟨fun hsound => ?_, fun hdue => ?_⟩, fun hdue => ?_⟩
  · by_contra hnot
    rw [← soundDue_iff, Bool.not_eq_true, soundDue_eq_false] at hnot
    obtain ⟨l, hl, hnot⟩ := hnot
    obtain ⟨burst, later, hburst⟩ := hsends.sof_of_not_due hdata hl hnot
    simp [hburst] at hsound
  · obtain ⟨tick, -, hsound⟩ := hsends.sound_of_due hdata hdue
    simp [hsound]
  · obtain ⟨tick, htick, hsound⟩ := hsends.sound_of_due hdata hdue
    have htick : tick.toNat = s.now := htick hnow
    rw [hsound]
    refine ⟨congrArg some htick, rfl, rfl, rfl, fun u hcfg hlast hfu hwithin hdatau => ?_⟩
    have hnot : u.now ≤ tick.toNat + u.cfg.soundPeriodTicks := by rwa [htick, hcfg]
    obtain ⟨burst, later, hburst⟩ := (sendPath_sends u.disarmTimer).sof_of_not_due hdatau hlast hnot
    exact ⟨_, burst, exec_phyRxEnd_of_waitingForSack hfu, by simp [hburst, hcfg]⟩

/-! ## PHY-RXSACK -/

/-- A malformed SACK disarms the timer and is reported (R297). -/
theorem exec_phyRxSack_of_error (h : s.fsm = .waitingForSack) {b : Bytes} {r : Report}
    (hdecode : sackDecode b s.lastFrameBlockCount.toNat = .error r) :
    exec (.phyRxSack b) s = .next (s.disarmTimer.report r) := by
  simp only [exec, execPhyRxSack, h, hdecode]
  rfl

/-- A well-formed SACK disarms the timer, and its count is stored (R297). -/
theorem exec_phyRxSack_of_ok (h : s.fsm = .waitingForSack) {b : Bytes} {e : Nat}
    (hdecode : sackDecode b s.lastFrameBlockCount.toNat = .ok e) :
    exec (.phyRxSack b) s = .next { s.disarmTimer with
      reports := s.reports ++ (if e = 0 then [] else [.sackResult e])
      lastSackErrored := BitVec.ofNat 32 e } := by
  simp only [exec, execPhyRxSack, h, hdecode, reportAll_sackReports]
  rw [sackReports_ok]
  rfl

/-- Settles O49: the answers of `sackDecode_eq`, in its order. -/
theorem rxSackDisarmsAndStoresTheCount : Obligations.RxSackDisarmsAndStoresTheCount := by
  intro s b h n e malformed
  have hanswer := sackDecode_eq b n
  by_cases htag : b.head? ≠ some 0x15#8
  · rw [if_pos htag] at hanswer ⊢
    exact exec_phyRxSack_of_error h hanswer
  by_cases hshort : b.length < 1 + (n + 7) / 8
  · rw [if_neg htag, if_pos hshort] at hanswer ⊢
    exact exec_phyRxSack_of_error h hanswer
  · rw [if_neg htag, if_neg hshort] at hanswer ⊢
    exact exec_phyRxSack_of_ok h hanswer

/-! ## PHY-RXSOUND and PHY-TXEND -/

/-- Settles O51: the handler's answer in its one state. -/
theorem rxSoundClearsTheBlockErrors : Obligations.RxSoundClearsTheBlockErrors := fun s h => by
  simp only [exec, execPhyRxSound, h]

/-- Settles O48: the deadline is what the tick register holds of the time, exact below 2^64. -/
theorem txEndArmsTheTimerOrEndsTheSack : Obligations.TxEndArmsTheTimerOrEndsTheSack := by
  refine fun s => ⟨fun h => ⟨tick64 (s.now + s.cfg.sackTimeoutTicks), tick64_toNat, ?_⟩, fun h => ?_⟩
  · simp only [exec, execPhyTxEnd, h, State.armTimer]
  · simp only [exec, execPhyTxEnd, h]

/-! ## Events without a handler -/

/-- Settles O52: in the states that are left each handler answers its own state. -/
theorem eventsWithoutAHandlerAreIgnored : Obligations.EventsWithoutAHandlerAreIgnored := by
  refine fun s => ⟨fun hsof hsack => ?_, fun hf b => ?_, fun hsack hsof => ?_, exec_phyRxSof_of_ne, fun hf => ?_⟩
  · cases h : s.fsm with
    | sendingSofOrSound => exact absurd h hsof
    | sendingSack => exact absurd h hsack
    | waitingForApp | waitingForSack | waitingForSof => simp only [exec, execPhyTxEnd, h]
  · cases h : s.fsm with
    | waitingForSack => exact absurd h hf
    | waitingForApp | sendingSofOrSound | sendingSack | waitingForSof => simp only [exec, execPhyRxSack, h]
  · cases h : s.fsm with
    | waitingForSack => exact absurd h hsack
    | waitingForSof => exact absurd h hsof
    | waitingForApp | sendingSofOrSound | sendingSack => simp only [exec, execPhyRxEnd, h]
  · cases h : s.fsm with
    | waitingForSof => exact absurd h hf
    | waitingForApp | sendingSofOrSound | sendingSack | waitingForSack => simp only [exec, execPhyRxSound, h]

end Sys2Proof.Machine
end

section
/-! SUPPORT. What an instruction that does not drive the state machine leaves alone: the role's state, the timer's flag,
and the transmissions of the step (46_arq_fsm.md R311, R312). -/

namespace Sys2Proof.Machine

variable {s t u : State}

/-! ## Calm changes -/

/-- The configuration, the state register and the timer's flag are the same, and no burst or sound is emitted. -/
structure Calm (s t : State) : Prop where
  cfg : t.cfg = s.cfg
  fsm : t.fsm = s.fsm
  timerArmed : t.timerArmed = s.timerArmed
  outputs : ∃ added, t.outputs = s.outputs ++ added ∧
    ∀ o ∈ added, o.isBurstOrSound = false

/-- The outputs are the same as well. -/
theorem Calm.silent (hcfg : t.cfg = s.cfg) (hfsm : t.fsm = s.fsm) (htimer : t.timerArmed = s.timerArmed)
    (houtputs : t.outputs = s.outputs) : Calm s t :=
  ⟨hcfg, hfsm, htimer, [], by rw [houtputs, List.append_nil], fun _ ho => nomatch ho⟩

theorem Calm.refl (s : State) : Calm s s := .silent rfl rfl rfl rfl

theorem Calm.setResult (h : Calm s t) (r : OpResult) : Calm s (t.setResult r) :=
  ⟨h.cfg, h.fsm, h.timerArmed, h.outputs⟩

theorem Calm.emit (s : State) {e : OutEvent} (he : e.isBurstOrSound = false) :
    Calm s (s.emit e) :=
  ⟨rfl, rfl, rfl, [e], rfl, fun o ho => by rwa [List.mem_singleton.mp ho]⟩

/-- The next state of an outcome is the one it was built from. -/
theorem Calm.of_next (h : (Host.Outcome.next u : Host.Outcome State Fault Refusal) = .next t) (hu : Calm s u) :
    Calm s t := by
  injection h with h
  exact h ▸ hu

theorem Calm.roleOk (h : Calm s t) (hs : s.RoleOk) : t.RoleOk := by
  rwa [State.RoleOk, h.cfg, h.fsm]

theorem Calm.timerOk (h : Calm s t) (hs : s.TimerOk) : t.TimerOk := by
  rwa [State.TimerOk, h.timerArmed, h.fsm]

/-! ## Receiving and submitting -/

/-- A delivery is no transmission (30_encoding.md R106). -/
theorem code_of_isDelivery {o : OutEvent} (h : o.isDelivery = true) :
    o.isBurstOrSound = false := by
  cases o with
  | appRx _ | mgmtRx _ => rfl
  | sof _ _ _ | sound | sack _ | searchPpdu | ready => cases h

theorem RxChange.calm (h : RxChange s t) : Calm s t := by
  obtain ⟨_, _, _, _, os, hos, rfl⟩ := h
  exact ⟨rfl, rfl, rfl, os, rfl, fun o ho => code_of_isDelivery (hos o ho)⟩

theorem calm_reassemble (s : State) (burst : Bytes) : Calm s (s.reassemble burst) := by
  obtain ⟨_, _, _, _, os, hos, h⟩ := reassemble_change s burst
  rw [h]
  exact ⟨rfl, rfl, rfl, os, rfl, fun o ho => code_of_isDelivery (hos o ho)⟩

theorem State.Accepts.calm (h : s.Accepts u) : Calm s u := by
  obtain ⟨_, _, _, _, -, -, -, -, rfl⟩ := h.eq_update
  refine ⟨rfl, rfl, rfl, _, rfl, fun o ho => ?_⟩
  split at ho
  · cases ho
  · rw [List.mem_singleton.mp ho]; rfl

/-- An APP submission changes nothing of the state machine, unless it starts a cycle (46_arq_fsm.md R293). -/
theorem appSubmit_calm {dest : Addr} {p : Bytes} (h : exec (.appSubmit dest p) s = .next t) :
    Calm s t ∨ s.fsm = .waitingForApp ∧ ∃ u, Calm s u ∧ t = u.sendPath := by
  replace h : execAppSubmit dest p s = .next t := h
  unfold execAppSubmit at h
  rcases acceptable_accepts s dest p none with ⟨r, ha⟩ | ⟨f, slot, ha, hacc⟩ <;> rw [ha] at h
  · exact .inl (.of_next h (.silent rfl rfl rfl rfl))
  · simp only [hacc.calm.fsm] at h
    split at h
    · next hf =>
      injection h with h
      exact .inr ⟨hf, _, hacc.calm, h.symm⟩
    · exact .inl (.of_next h hacc.calm)

theorem mgmtSubmit_calm {dest : Addr} {mm : Bytes} (h : exec (.mgmtSubmit dest mm) s = .next t) : Calm s t := by
  replace h : execMgmtSubmit dest mm s = .next t := h
  unfold execMgmtSubmit at h
  rcases acceptable_accepts s dest mm (some s.draw.confounder) with ⟨r, ha⟩ | ⟨f, slot, ha, hacc⟩
    <;> rw [ha] at h
  · exact .of_next h (.silent rfl rfl rfl rfl)
  · exact .of_next h hacc.calm

theorem phyRxSof_calm {burst : Bytes} (h : exec (.phyRxSof burst) s = .next t) : Calm s t := by
  by_cases hf : s.fsm = .waitingForSof
  · exact .of_next ((exec_phyRxSof hf burst).symm.trans h) (calm_reassemble s burst)
  · exact .of_next ((exec_phyRxSof_of_ne hf burst).symm.trans h) (.refl s)

theorem phyRxSound_calm (h : exec .phyRxSound s = .next t) : Calm s t := by
  obtain ⟨-, -, -, -, hignored⟩ := eventsWithoutAHandlerAreIgnored s
  by_cases hf : s.fsm = .waitingForSof
  · exact .of_next ((rxSoundClearsTheBlockErrors s hf).symm.trans h) (.silent rfl rfl rfl rfl)
  · exact .of_next ((hignored hf).symm.trans h) (.refl s)

/-! ## The datapath -/

theorem setField_calm {buf : Bytes} {v : BitVec 32} {o w : Nat} (h : exec (.setField buf v o w) s = .next t) :
    Calm s t := by
  by_cases hw : w ≤ 32
  · rw [exec_setField hw] at h
    split at h <;> exact .of_next h (.silent rfl rfl rfl rfl)
  · rw [exec_setField_tooWide (Nat.not_le.mp hw)] at h
    cases h

theorem getField_calm {buf : Bytes} {o w : Nat} (h : exec (.getField buf o w) s = .next t) : Calm s t := by
  by_cases hw : w ≤ 32
  · rw [exec_getField hw] at h
    split at h <;> exact .of_next h (.silent rfl rfl rfl rfl)
  · rw [exec_getField_tooWide (Nat.not_le.mp hw)] at h
    cases h

theorem setBytes_calm {buf b : Bytes} {k : Nat} (h : exec (.setBytes buf b k) s = .next t) : Calm s t := by
  rw [exec_setBytes] at h
  split at h <;> exact .of_next h (.silent rfl rfl rfl rfl)

theorem getBytes_calm {buf : Bytes} {k n : Nat} (h : exec (.getBytes buf k n) s = .next t) : Calm s t := by
  cases hb : getBytes buf k n with
  | error e => exact .of_next ((exec_getBytes_error hb s).symm.trans h) (.silent rfl rfl rfl rfl)
  | ok b => exact .of_next ((exec_getBytes_ok hb s).symm.trans h) (.silent rfl rfl rfl rfl)

theorem macEncode_calm {dest : Addr} {p : Bytes} {c : Option Confounder}
    (h : exec (.macEncode dest p c) s = .next t) : Calm s t := by
  replace h : execMacEncode dest p c s = .next t := h
  unfold execMacEncode at h
  split at h <;> exact .of_next h (.silent rfl rfl rfl rfl)

theorem macDecode_calm {f : Bytes} (h : exec (.macDecode f) s = .next t) : Calm s t := by
  replace h : execMacDecode f s = .next t := h
  unfold execMacDecode at h
  split at h <;> exact .of_next h (.silent rfl rfl rfl rfl)

theorem segment_calm {slot : Nat} (h : exec (.segment slot) s = .next t) : Calm s t := by
  replace h : execSegment slot s = .next t := h
  unfold execSegment at h
  split at h
  · cases h
  · exact .of_next h (.silent rfl rfl rfl rfl)

theorem sackDecode_calm {b : Bytes} {n : Nat} (h : exec (.sackDecode b n) s = .next t) : Calm s t := by
  rw [exec_sackDecode, reportAll_sackReports] at h
  exact .of_next h (.silent rfl rfl rfl rfl)

/-! ## Every instruction -/

/-- The instructions that can move the state machine, write the timer's flag or transmit a burst or a sound. -/
def drivesArq : Instr → Bool
  | .reset | .appSubmit _ _ | .phyRxSack _ | .phyRxEnd | .phyTxEnd | .timerExpire _ | .sof _ | .sound => true
  | _ => false

theorem exec_calm {i : Instr} (hi : drivesArq i = false) (h : exec i s = .next t) : Calm s t := by
  cases i with
  | reset | appSubmit _ _ | phyRxSack _ | phyRxEnd | phyTxEnd | timerExpire _ | sof _ | sound => cases hi
  | mgmtSubmit dest mm => exact mgmtSubmit_calm h
  | phyRxSof payload => exact phyRxSof_calm h
  | phyRxSound => exact phyRxSound_calm h
  | sack _ | searchPpdu | appRx _ | mgmtRx _ | ready => exact .of_next h (.emit s rfl)
  | setField buffer value bitOffset bitWidth => exact setField_calm h
  | getField buffer bitOffset bitWidth => exact getField_calm h
  | setBytes buffer bytes byteOffset => exact setBytes_calm h
  | getBytes buffer byteOffset n => exact getBytes_calm h
  | crc32 _ | sackEncode _ | blockBuild _ _ _ _ => exact .of_next h (.silent rfl rfl rfl rfl)
  | macEncode dest payload confounder => exact macEncode_calm h
  | macDecode frame => exact macDecode_calm h
  | segment slot => exact segment_calm h
  | reassemble _ | phyBlockHeader _ _ => exact .of_next h ((calm_reassemble s _).setResult _)
  | sackDecode sackd n => exact sackDecode_calm h
  | sackPayload bitmap => exact sackDecode_calm h
  | mfhData _ _ | mfhMgmt _ _ | mfhPad _ _ | mfhReserved _ _ => exact .of_next h (RxChange.deliver s _).calm

end Sys2Proof.Machine
end

section
/-! SUPPORT. The SACK timer (46_arq_fsm.md R306 to R309, R312, R313), and what a slave transmits (R311). -/

namespace Sys2Proof.Machine

variable {s t : State}

/-! ## Expiries -/

/-- Settles O53: each of the three makes the expiry invalid. -/
theorem staleExpiryChangesNothing : Obligations.StaleExpiryChangesNothing := by
  intro s gen hstale
  have hinvalid : ¬ s.expiryValid gen = true := by
    rw [expiryValid_iff]
    rintro ⟨harmed, hgen, hdeadline⟩
    rcases hstale with hunarmed | hother | hearly
    · exact absurd (harmed.symm.trans hunarmed) (by decide)
    · exact hother hgen
    · omega
  have harm : exec (.timerExpire gen) s = execTimerExpire gen s := rfl
  rw [harm, execTimerExpire, if_neg hinvalid]

/-- Settles O54: the send path runs with the timer disarmed and the burst counted as lost. -/
theorem validExpiryRunsTheSendPath : Obligations.ValidExpiryRunsTheSendPath := by
  intro s harmed hdeadline
  have hvalid : s.expiryValid s.timerGen = true := (expiryValid_iff s s.timerGen).mpr ⟨harmed, rfl, hdeadline⟩
  refine ⟨_, ?_, sendPath_sends _⟩
  have harm : exec (.timerExpire s.timerGen) s = execTimerExpire s.timerGen s := rfl
  rw [harm, execTimerExpire, if_pos hvalid]
  rfl

/-! ## Arming -/

theorem unarmed_of_next {u : State} (h : (Host.Outcome.next u : Host.Outcome State Fault Refusal) = .next t)
    (hu : u.timerArmed = false) : t.timerArmed = false := by
  injection h with h
  exact h ▸ hu

theorem phyRxSack_unarmed {b : Bytes} (hs : s.timerArmed = false) (h : exec (.phyRxSack b) s = .next t) :
    t.timerArmed = false := by
  obtain ⟨-, hignored, -⟩ := eventsWithoutAHandlerAreIgnored s
  by_cases hf : s.fsm = .waitingForSack
  · cases hd : sackDecode b s.lastFrameBlockCount.toNat with
    | error r => exact unarmed_of_next ((exec_phyRxSack_of_error hf hd).symm.trans h) rfl
    | ok e => exact unarmed_of_next ((exec_phyRxSack_of_ok hf hd).symm.trans h) rfl
  · exact unarmed_of_next ((hignored hf b).symm.trans h) hs

theorem phyRxEnd_unarmed (hs : s.timerArmed = false) (h : exec .phyRxEnd s = .next t) : t.timerArmed = false := by
  obtain ⟨-, -, hignored, -⟩ := eventsWithoutAHandlerAreIgnored s
  by_cases hsack : s.fsm = .waitingForSack
  · exact unarmed_of_next ((exec_phyRxEnd_of_waitingForSack hsack).symm.trans h)
      (sendPath_sends s.disarmTimer).timerArmed
  by_cases hsof : s.fsm = .waitingForSof
  · exact unarmed_of_next ((exec_phyRxEnd_of_waitingForSof hsof).symm.trans h) hs
  · exact unarmed_of_next ((hignored hsack hsof).symm.trans h) hs

/-- Only PHY-TXEND arms the timer (46_arq_fsm.md R308, R313). -/
theorem exec_unarmed {i : Instr} (hi : i ≠ .phyTxEnd) (hs : s.timerArmed = false) (h : exec i s = .next t) :
    t.timerArmed = false := by
  cases i with
  | phyTxEnd => exact absurd rfl hi
  | reset => exact unarmed_of_next h rfl
  | appSubmit dest payload =>
    rcases appSubmit_calm h with hc | ⟨-, u, hc, rfl⟩
    · exact hc.timerArmed.trans hs
    · exact ((sendPath_sends u).timerArmed.trans hc.timerArmed).trans hs
  | phyRxSack sackd => exact phyRxSack_unarmed hs h
  | phyRxEnd => exact phyRxEnd_unarmed hs h
  | timerExpire gen => exact unarmed_of_next ((staleExpiryChangesNothing s gen (.inl hs)).symm.trans h) hs
  | sof _ | sound => exact unarmed_of_next h hs
  | _ => exact (exec_calm rfl h).timerArmed.trans hs

/-- An arming starts the next generation (46_arq_fsm.md R308). -/
theorem phyTxEnd_timerGen (hs : s.timerArmed = false) (h : exec .phyTxEnd s = .next t) (ht : t.timerArmed = true) :
    t.timerGen = s.timerGen + 1 := by
  obtain ⟨hsofEnd, hsackEnd⟩ := txEndArmsTheTimerOrEndsTheSack s
  obtain ⟨hignored, -⟩ := eventsWithoutAHandlerAreIgnored s
  have hunarmed : ¬ t.timerArmed = false := by rw [ht]; decide
  by_cases hsof : s.fsm = .sendingSofOrSound
  · obtain ⟨deadline, -, harm⟩ := hsofEnd hsof
    injection harm.symm.trans h with h
    rw [← h]
  by_cases hsack : s.fsm = .sendingSack
  · exact absurd (unarmed_of_next ((hsackEnd hsack).symm.trans h) hs) hunarmed
  · exact absurd (unarmed_of_next ((hignored hsof hsack).symm.trans h) hs) hunarmed

/-- Settles O55: an expiry that takes effect is the disarmed send path, every other is stale, and of the instructions
only PHY-TXEND arms. -/
theorem oneExpiryPerArming : Obligations.OneExpiryPerArming := by
  refine ⟨fun s harmed hdeadline => ?_, fun s gen hs => staleExpiryChangesNothing s gen (.inl hs),
    fun i s t hs h ht => ?_⟩
  · obtain ⟨t, hexpired, hsends⟩ := validExpiryRunsTheSendPath s harmed hdeadline
    obtain ⟨added, hadded, hone, hnone⟩ := hsends.outputs
    exact ⟨t, added, hexpired, hsends.timerArmed, hadded, hone, hnone⟩
  · by_cases hi : i = .phyTxEnd
    · subst hi
      exact ⟨rfl, phyTxEnd_timerGen hs h ht⟩
    · exact absurd ((exec_unarmed hi hs h).symm.trans ht) (by decide)

/-! ## A slave -/

/-- What every change of a slave keeps: no burst or sound is emitted, and the state stays one of its role (R311). -/
def SlaveKept (s t : State) : Prop :=
  (∃ added, t.outputs = s.outputs ++ added ∧ ∀ o ∈ added, o.isBurstOrSound = false) ∧
    t.RoleOk ∧ t.TimerOk

theorem Calm.slaveKept (h : Calm s t) (hrole : s.RoleOk) (htimer : s.TimerOk) : SlaveKept s t :=
  ⟨h.outputs, h.roleOk hrole, h.timerOk htimer⟩

theorem reset_slaveKept (h : exec .reset s = .next t) : SlaveKept s t := by
  injection h with h
  obtain ⟨-, -, htimer, hrole, -, -⟩ := inv_resetBlock s
  rw [← h]
  exact ⟨⟨[], (List.append_nil _).symm, fun _ ho => nomatch ho⟩, hrole, htimer⟩

/-- A slave answers with a SACK (46_arq_fsm.md R299). -/
theorem phyRxEnd_slaveKept (hslave : s.cfg.role = .slave) (hfsm : s.fsm = .waitingForSof ∨ s.fsm = .sendingSack)
    (hu : s.timerArmed = false) (h : exec .phyRxEnd s = .next t) : SlaveKept s t := by
  obtain ⟨-, -, hignored, -⟩ := eventsWithoutAHandlerAreIgnored s
  rcases hfsm with hf | hf
  · injection (exec_phyRxEnd_of_waitingForSof hf).symm.trans h with h
    rw [← h]
    refine ⟨⟨_, rfl, fun o ho => ?_⟩, roleOk_of_slave hslave (.inr rfl), timerOk_of_unarmed hu⟩
    rcases List.mem_pair.mp ho with rfl | rfl <;> rfl
  · have hcalm : Calm s t := .of_next ((hignored (by simp [hf]) (by simp [hf])).symm.trans h) (.refl s)
    exact hcalm.slaveKept (roleOk_of_slave hslave (.inr hf)) (timerOk_of_unarmed hu)

/-- After its SACK a slave waits for the next burst (46_arq_fsm.md R296). -/
theorem phyTxEnd_slaveKept (hslave : s.cfg.role = .slave) (hfsm : s.fsm = .waitingForSof ∨ s.fsm = .sendingSack)
    (hu : s.timerArmed = false) (h : exec .phyTxEnd s = .next t) : SlaveKept s t := by
  obtain ⟨-, hsackEnd⟩ := txEndArmsTheTimerOrEndsTheSack s
  obtain ⟨hignored, -⟩ := eventsWithoutAHandlerAreIgnored s
  rcases hfsm with hf | hf
  · have hcalm : Calm s t := .of_next ((hignored (by simp [hf]) (by simp [hf])).symm.trans h) (.refl s)
    exact hcalm.slaveKept (roleOk_of_slave hslave (.inl hf)) (timerOk_of_unarmed hu)
  · injection (hsackEnd hf).symm.trans h with h
    rw [← h]
    exact ⟨⟨[], (List.append_nil _).symm, fun _ ho => nomatch ho⟩, roleOk_of_slave hslave (.inl rfl),
      timerOk_of_unarmed hu⟩

/-- Settles O58: in the two states of a slave the timer is not armed and no event starts a cycle, so what drives the
state machine there is RESET, the answer of PHY-RXEND and its end. -/
theorem slaveSendsNoBurstOrSound : Obligations.SlaveSendsNoBurstOrSound := by
  intro i s t hslave hrole htimer hsof hsound h
  have hfsm := hrole.2 hslave
  have happ : s.fsm ≠ .waitingForApp := by rcases hfsm with hf | hf <;> simp [hf]
  have hwait : s.fsm ≠ .waitingForSack := by rcases hfsm with hf | hf <;> simp [hf]
  have hu := unarmed_of_fsm htimer hwait
  obtain ⟨-, hrxSack, -⟩ := eventsWithoutAHandlerAreIgnored s
  have hkept {u : State} (hu : Calm s u) : SlaveKept s u := hu.slaveKept hrole htimer
  cases i with
  | sof payload => exact absurd rfl (hsof payload)
  | sound => exact absurd rfl hsound
  | reset => exact reset_slaveKept h
  | appSubmit dest payload =>
    rcases appSubmit_calm h with hc | ⟨hf, -⟩
    · exact hkept hc
    · exact absurd hf happ
  | phyRxSack sackd => exact hkept (.of_next ((hrxSack hwait sackd).symm.trans h) (.refl s))
  | phyRxEnd => exact phyRxEnd_slaveKept hslave hfsm hu h
  | phyTxEnd => exact phyTxEnd_slaveKept hslave hfsm hu h
  | timerExpire gen =>
    exact hkept (.of_next ((staleExpiryChangesNothing s gen (.inl hu)).symm.trans h) (.refl s))
  | _ => exact hkept (exec_calm rfl h)

end Sys2Proof.Machine
end

section
/-! SUPPORT. The two rejections of a submission that do not come from the encoder: the full flag and the stream table
(47_txqueue_mgmt_interface.md R342, R346). -/

namespace Sys2Proof.Machine

variable {s : State} {dest : Addr}

theorem acceptable_of_full (hf : s.full = true) (p : Bytes) (confounder : Option Confounder) :
    s.acceptable dest p confounder = .error (.queueFull dest) := by
  rw [State.acceptable, if_pos hf]

theorem acceptable_of_noStream {p : Bytes} {confounder : Option Confounder} (hf : s.full = false)
    (hlimit : p.length + confounderLength confounder + 13 ≤ 16383) (hstreams : streamFor s.streams dest = none) :
    s.acceptable dest p confounder = .error (.noStream dest) := by
  obtain ⟨f, hencode⟩ := macEncode_fits (cfg := s.cfg) (dest := dest) hlimit
  rw [State.acceptable, hf, if_neg Bool.false_ne_true, hencode, hstreams]

/-- Settles O44: a rejected submission is its report, and both reports count as one of capacity. -/
theorem rejectedSubmissionOnlyReports : Obligations.RejectedSubmissionOnlyReports := by
  intro s dest p rejected
  refine ⟨fun hf => ⟨?_, ?_⟩, fun hf hothers => ⟨fun hlimit => ?_, fun hlimit => ?_⟩⟩
  · exact exec_appSubmit_rejected (acceptable_of_full hf p none)
  · exact exec_mgmtSubmit_rejected (acceptable_of_full hf p (some s.draw.confounder))
  · exact exec_appSubmit_rejected (acceptable_of_noStream hf hlimit (streamFor_none.mpr hothers))
  · exact exec_mgmtSubmit_rejected (acceptable_of_noStream (confounder := some s.draw.confounder) hf
      (by simpa [confounderLength_eq, Nat.add_assoc] using hlimit) (streamFor_none.mpr hothers))

end Sys2Proof.Machine
end

section
/-! SUPPORT. The management message byte by byte and the channel-estimation entry field by field
(47_txqueue_mgmt_interface.md R347 to R349). -/

namespace Sys2Proof.Machine

/-! ## The message -/

/-- A number written over all of a buffer of zeros is its little-endian bytes (20_memory.md R73). -/
theorem writeBits_zeros_eq_leBytes {k n : Nat} (h : n < 256 ^ k) : writeBits (zeros k) n 0 (8 * k) = leBytes k n := by
  apply bytes_ext (by simp)
  intro p hp
  simp only [writeBits_length, zeros_length] at hp
  rw [bitAt_writeBits n (by simp), if_pos (by omega), bitAt_leBytes h, Nat.sub_zero]

theorem mgmtMessage_eq (mmtype : BitVec 16) (entry : Bytes) :
    mgmtMessage mmtype entry = 1#8 :: (leBytes 2 mmtype.toNat ++ entry) := by
  rw [mgmtMessage, writeBits_zeros_eq_leBytes (k := 2) mmtype.isLt]
  rfl

/-- The two bytes of `mmtype` are its little-endian ones (R347). -/
theorem leNat_mmtype (mmtype : BitVec 16) : leNat (leBytes 2 mmtype.toNat) = mmtype.toNat :=
  leNat_leBytes_of_lt mmtype.isLt

theorem slice_mgmtMessage (mmtype : BitVec 16) (entry : Bytes) :
    slice (mgmtMessage mmtype entry) 1 3 = leBytes 2 mmtype.toNat :=
  slice_of_eq_append (a := [1#8]) (mgmtMessage_eq mmtype entry) rfl (by simp)

/-- A message whose version byte is 1 is read whatever its `mmtype` (log entry 36). -/
theorem readMgmtMessage_one (t0 t1 : Byte) (entry : Bytes) :
    readMgmtMessage (1#8 :: t0 :: t1 :: entry) = some (.ofNat 16 (leNat [t0, t1]), entry) := by
  have hlt : leNat [t0, t1] < 2 ^ 16 := by simpa using leNat_lt [t0, t1]
  have hpair : readBits [t0, t1] 0 16 = leNat [t0, t1] := by
    rw [readBits_eq_leNat, Nat.pow_zero, Nat.div_one, Nat.mod_eq_of_lt hlt]
  rw [readMgmtMessage, hpair]
  rfl

theorem readMgmtMessage_mgmtMessage (mmtype : BitVec 16) (entry : Bytes) :
    readMgmtMessage (mgmtMessage mmtype entry) = some (mmtype, entry) := by
  calc readMgmtMessage (mgmtMessage mmtype entry)
      = some (.ofNat 16 (leNat (leBytes 2 mmtype.toNat)), entry) := by
        rw [mgmtMessage_eq]
        exact readMgmtMessage_one _ _ entry
    _ = some (mmtype, entry) := by rw [leNat_mmtype, BitVec.ofNat_toNat, BitVec.setWidth_eq]

/-! ## The bit loadings -/

@[simp] theorem writeCbd_length (buf : Bytes) (p : Nat) (vs : List (BitVec 4)) :
    (writeCbd buf p vs).length = buf.length := by
  induction vs generalizing buf p with
  | nil => rfl
  | cons v vs ih => rw [writeCbd, ih, writeBits_length]

/-- A field before or after the bit loadings keeps its value. -/
theorem readBits_writeCbd_of_disjoint {buf : Bytes} {p o w : Nat} {vs : List (BitVec 4)}
    (h : p + 4 * vs.length ≤ 8 * buf.length) (hd : o + w ≤ p ∨ p + 4 * vs.length ≤ o) :
    readBits (writeCbd buf p vs) o w = readBits buf o w := by
  induction vs generalizing buf p with
  | nil => rfl
  | cons v vs ih =>
    rw [List.length_cons] at h hd
    rw [writeCbd, ih (by rw [writeBits_length]; omega) (by omega),
      readBits_writeBits_of_disjoint v.toNat (by omega) (by omega)]

/-- The first bit loading is in the lowest 4 bits, whatever follows it. -/
theorem readBits_writeCbd_head {buf : Bytes} {p : Nat} {v : BitVec 4} {vs : List (BitVec 4)}
    (h : p + 4 * (vs.length + 1) ≤ 8 * buf.length) : readBits (writeCbd buf p (v :: vs)) p 4 = v.toNat := by
  rw [writeCbd, readBits_writeCbd_of_disjoint (by rw [writeBits_length]; omega) (by omega),
    readBits_writeBits v.toNat (by omega), Nat.mod_eq_of_lt v.isLt]

theorem readBits_writeCbd_of_getElem? {buf : Bytes} {p i : Nat} {v : BitVec 4} {vs : List (BitVec 4)}
    (h : p + 4 * vs.length ≤ 8 * buf.length) (hv : vs[i]? = some v) :
    readBits (writeCbd buf p vs) (p + 4 * i) 4 = v.toNat := by
  induction vs generalizing buf p i with
  | nil => simp at hv
  | cons u vs ih =>
    rw [List.length_cons] at h
    cases i with
    | zero =>
      obtain rfl : u = v := by simpa using hv
      exact readBits_writeCbd_head h
    | succ i =>
      rw [writeCbd, show p + 4 * (i + 1) = p + 4 + 4 * i by omega]
      exact ih (by rw [writeBits_length]; omega) (by simpa using hv)

theorem readCbd_writeCbd {buf : Bytes} {p : Nat} {vs : List (BitVec 4)} (h : p + 4 * vs.length ≤ 8 * buf.length) :
    readCbd (writeCbd buf p vs) p vs.length = vs := by
  induction vs generalizing buf p with
  | nil => rfl
  | cons v vs ih =>
    rw [List.length_cons] at h
    rw [List.length_cons, readCbd, readBits_writeCbd_head h, BitVec.ofNat_toNat, BitVec.setWidth_eq, writeCbd,
      ih (by rw [writeBits_length]; omega)]

/-! ## The fields before them -/

/-- An entry's bytes before its bit loadings are written: the fields of bit offsets 0 to 79, all else 0 (R348). -/
def ceHead (e : ChannelEstimation) : Bytes :=
  let b := zeros (ceLength e.cbd.length)
  let b := writeBits b e.ntmi.toNat 0 8
  let b := writeBits b e.tmi.toNat 8 8
  let b := writeBits b e.nint.toNat 16 8
  let b := writeBits b e.newTmi.toNat 24 8
  let b := writeBits b e.cbdEnc.toNat 56 8
  writeBits b e.cbd.length 64 16

theorem ceBytes_eq (e : ChannelEstimation) : ceBytes e = writeCbd (ceHead e) 80 e.cbd := rfl

@[simp] theorem ceHead_length (e : ChannelEstimation) : (ceHead e).length = ceLength e.cbd.length := by
  simp [ceHead]

@[simp] theorem readBits_zeros (n o w : Nat) : readBits (zeros n) o w = 0 := by
  calc readBits (zeros n) o w = readBits [] o w := readBits_congr (o' := o) fun j _ => by simp
    _ = 0 := by rw [readBits_eq_leNat]; simp [leNat]

/-- R349's length holds every bit loading, with less than a byte to spare. -/
theorem ceLength_bits (c : Nat) : 80 + 4 * c ≤ 8 * ceLength c := by
  rw [ceLength]
  omega

variable (e : ChannelEstimation)

/-- A field outside the ones R348 places before the bit loadings reads as 0. -/
theorem readBits_ceHead_of_disjoint {o w : Nat} (h : 32 ≤ o ∧ o + w ≤ 56 ∨ 80 ≤ o) : readBits (ceHead e) o w = 0 := by
  have hbits := ceLength_bits e.cbd.length
  simp (disch := ((try simp only [writeBits_length, zeros_length]); omega)) only
    [ceHead, readBits_writeBits_of_disjoint, readBits_zeros]

/-- The fields of R348 before the bit loadings. -/
theorem readBits_ceHead (hc : e.cbd.length < 65536) :
    readBits (ceHead e) 0 8 = e.ntmi.toNat ∧ readBits (ceHead e) 8 8 = e.tmi.toNat ∧
    readBits (ceHead e) 16 8 = e.nint.toNat ∧ readBits (ceHead e) 24 8 = e.newTmi.toNat ∧
    readBits (ceHead e) 56 8 = e.cbdEnc.toNat ∧ readBits (ceHead e) 64 16 = e.cbd.length := by
  have hbits := ceLength_bits e.cbd.length
  have hbyte (v : BitVec 8) : v.toNat % 2 ^ 8 = v.toNat := Nat.mod_eq_of_lt v.isLt
  have hcount : e.cbd.length % 2 ^ 16 = e.cbd.length := Nat.mod_eq_of_lt hc
  refine ⟨?_, ?_, ?_, ?_, ?_, ?_⟩ <;>
    simp (disch := ((try simp only [writeBits_length, zeros_length]); omega)) only
      [ceHead, readBits_writeBits_of_disjoint, readBits_writeBits, hbyte, hcount]

/-! ## The entry -/

@[simp] theorem ceBytes_length : (ceBytes e).length = ceLength e.cbd.length := by
  rw [ceBytes_eq, writeCbd_length, ceHead_length]

theorem ceHead_bits : 80 + 4 * e.cbd.length ≤ 8 * (ceHead e).length := by
  rw [ceHead_length]
  exact ceLength_bits e.cbd.length

theorem readBits_ceBytes_of_disjoint {o w : Nat} (hd : o + w ≤ 80 ∨ 80 + 4 * e.cbd.length ≤ o) :
    readBits (ceBytes e) o w = readBits (ceHead e) o w :=
  readBits_writeCbd_of_disjoint (ceHead_bits e) hd

/-- The fields of R348 before the bit loadings, in the whole entry. -/
theorem readBits_ceBytes (hc : e.cbd.length < 65536) :
    readBits (ceBytes e) 0 8 = e.ntmi.toNat ∧ readBits (ceBytes e) 8 8 = e.tmi.toNat ∧
    readBits (ceBytes e) 16 8 = e.nint.toNat ∧ readBits (ceBytes e) 24 8 = e.newTmi.toNat ∧
    readBits (ceBytes e) 56 8 = e.cbdEnc.toNat ∧ readBits (ceBytes e) 64 16 = e.cbd.length := by
  simpa (disch := omega) only [readBits_ceBytes_of_disjoint] using readBits_ceHead e hc

theorem readCe_ceBytes (hc : e.cbd.length < 65536) : readCe (ceBytes e) = some e := by
  obtain ⟨hntmi, htmi, hnint, hnewTmi, hcbdEnc, hlen⟩ := readBits_ceBytes e hc
  have hcbd : readCbd (ceBytes e) 80 e.cbd.length = e.cbd := readCbd_writeCbd (ceHead_bits e)
  have hfits : ¬ (ceLength e.cbd.length < ceLength 0 ∨ ceLength e.cbd.length < ceLength e.cbd.length) := by
    simp only [ceLength]
    omega
  simp only [readCe, ceBytes_length, hntmi, htmi, hnint, hnewTmi, hcbdEnc, hlen, hcbd, if_neg hfits,
    BitVec.ofNat_toNat, BitVec.setWidth_eq]

/-- Settles O59: the message as its bytes, and each field of the entry through the writes that miss it. -/
theorem managementMessagesReadBack : Obligations.ManagementMessagesReadBack := by
  refine ⟨fun mmtype entry => ⟨rfl, ?_, ?_, readMgmtMessage_mgmtMessage mmtype entry⟩, ?_⟩
  · rw [slice_mgmtMessage, leNat_mmtype]
  · rw [mgmtMessage_eq]
    rfl
  intro e hc field
  have hfield (o w : Nat) : field o w = readBits (ceBytes e) o w := (readBits_eq_leNat ..).symm
  have hreserved {o w : Nat} (hd : 32 ≤ o ∧ o + w ≤ 56 ∨ 80 + 4 * e.cbd.length ≤ o) :
      readBits (ceBytes e) o w = 0 := by
    rw [readBits_ceBytes_of_disjoint e (by omega), readBits_ceHead_of_disjoint e (by omega)]
  obtain ⟨hntmi, htmi, hnint, hnewTmi, hcbdEnc, hlen⟩ := readBits_ceBytes e hc
  simp only [hfield]
  exact ⟨ceBytes_length e, hntmi, htmi, hnint, hnewTmi, hreserved (by omega), hcbdEnc, hlen,
    fun i v hv => readBits_writeCbd_of_getElem? (ceHead_bits e) hv, fun _ => hreserved (.inr le_rfl),
    readCe_ceBytes e hc⟩

end Sys2Proof.Machine
end

section
/-! SUPPORT. The steps that run no instruction (60_exceptions.md R391, 70_reset_and_hazards.md R402, R403) and what
RESET leaves (R400, R401). -/

namespace Sys2Proof.Machine

/-! ## Steps that run no instruction -/

/-- With nothing delivered the block waits (70_reset_and_hazards.md R402). -/
theorem step_of_idle {s : State} (hinbox : s.inbox = []) : step s = .next s.clearPorts := by
  simp only [step, hinbox]

/-- An input earlier than the last one is refused, whatever its message is (70_reset_and_hazards.md R403). -/
theorem step_of_early {s : State} {i : Input} {later : List Input} (hinbox : s.inbox = i :: later)
    (hearly : i.now < s.now) : step s = .refused (.timeWentBack s.now i.now) := by
  simp only [step, hinbox, if_pos hearly]

/-- Settles O6: one equation of the step for each way of running no instruction. -/
theorem stepWithoutAnInstruction : Obligations.StepWithoutAnInstruction := by
  intro s
  refine ⟨fun hinbox => ?_, fun i later hinbox => ⟨step_of_early hinbox, fun htime e => ?_⟩⟩
  · rw [step_of_idle hinbox, State.clearPorts]
  · exact step_of_undecodable hinbox htime

/-! ## RESET -/

theorem exec_reset (s : State) : exec .reset s = .next s.resetBlock := rfl

theorem resetFsm_eq (r : Role) : resetFsm r = if r = .master then .waitingForApp else .waitingForSof := by
  cases r <;> rfl

/-- The state after power-up is its own reset, `timer_deadline` and the free keys included (log entry 5). -/
theorem resetBlock_resetOf (cfg : Config) : (State.resetOf cfg).resetBlock = State.resetOf cfg := rfl

/-- Settles O39: the deadline is 0 and every slot is `Stream.free`. -/
theorem resetLeavesTheResetValues : Obligations.ResetLeavesTheResetValues := by
  refine ⟨fun s => ⟨0, List.replicate s.cfg.nStreams Stream.free, List.length_replicate, fun st hst => ?_, ?_⟩,
    fun cfg => ?_⟩
  · rw [List.eq_of_mem_replicate hst]
    exact ⟨rfl, rfl, rfl, rfl⟩
  · rw [exec_reset, ← resetFsm_eq]
    rfl
  · rw [exec_reset, resetBlock_resetOf]

/-- Settles O40: RESET establishes the invariant in any state, and the state after power-up is its own reset. -/
theorem invariantHoldsAtReset : Obligations.InvariantHoldsAtReset := by
  have hinv (cfg : Config) : (State.resetOf cfg).Inv := by
    rw [← resetBlock_resetOf]
    exact inv_resetBlock (State.resetOf cfg)
  exact ⟨hinv, hinv Config.default⟩

end Sys2Proof.Machine
end

section
/-! SUPPORT. BoundsError is the answer of the four bit-field operations only (40_bitfield.md R135, 60_exceptions.md
R372): every other instruction leaves the fault record as it finds it. -/

namespace Sys2Proof.Machine

variable {s t : State}

/-! ## Shared operations -/

/-- The next state of an outcome is the one it was built from. -/
theorem boundsFault_of_next {u : State} (h : (Host.Outcome.next u : Host.Outcome State Fault Refusal) = .next t)
    (hu : u.boundsFault = s.boundsFault) : t.boundsFault = s.boundsFault := by
  injection h with h
  exact h ▸ hu

theorem RxChange.boundsFault (h : RxChange s t) : t.boundsFault = s.boundsFault := by
  obtain ⟨_, _, _, _, _, -, rfl⟩ := h
  rfl

theorem reassemble_boundsFault (s : State) (burst : Bytes) : (s.reassemble burst).boundsFault = s.boundsFault := by
  obtain ⟨_, _, _, _, _, -, h⟩ := reassemble_change s burst
  rw [h]

theorem State.Accepts.boundsFault (h : s.Accepts t) : t.boundsFault = s.boundsFault := by
  obtain ⟨_, _, _, _, -, -, -, -, rfl⟩ := h.eq_update
  rfl

theorem State.Sends.boundsFault (h : s.Sends t) : t.boundsFault = s.boundsFault := by
  rcases h with ⟨-, rfl⟩ | ⟨-, -, _, -, rfl⟩ | ⟨_, _, -, -, -, rfl⟩ <;> rfl

theorem sendPath_boundsFault (s : State) : s.sendPath.boundsFault = s.boundsFault :=
  (sendPath_sends s).boundsFault

/-! ## The state machine -/

theorem appSubmit_boundsFault {dest : Addr} {p : Bytes} (h : exec (.appSubmit dest p) s = .next t) :
    t.boundsFault = s.boundsFault := by
  replace h : execAppSubmit dest p s = .next t := h
  unfold execAppSubmit at h
  rcases acceptable_accepts s dest p none with ⟨r, ha⟩ | ⟨f, slot, ha, hacc⟩ <;> rw [ha] at h
  · exact boundsFault_of_next h rfl
  · dsimp only at h
    split at h
    · exact boundsFault_of_next h ((sendPath_boundsFault _).trans hacc.boundsFault)
    · exact boundsFault_of_next h hacc.boundsFault

theorem mgmtSubmit_boundsFault {dest : Addr} {mm : Bytes} (h : exec (.mgmtSubmit dest mm) s = .next t) :
    t.boundsFault = s.boundsFault := by
  replace h : execMgmtSubmit dest mm s = .next t := h
  unfold execMgmtSubmit at h
  rcases acceptable_accepts s dest mm (some s.draw.confounder) with ⟨r, ha⟩ | ⟨f, slot, ha, hacc⟩
    <;> rw [ha] at h
  · exact boundsFault_of_next h rfl
  · exact boundsFault_of_next h hacc.boundsFault

theorem phyRxSof_boundsFault {burst : Bytes} (h : exec (.phyRxSof burst) s = .next t) :
    t.boundsFault = s.boundsFault := by
  by_cases hf : s.fsm = .waitingForSof
  · exact boundsFault_of_next ((exec_phyRxSof hf burst).symm.trans h) (reassemble_boundsFault s burst)
  · exact boundsFault_of_next ((exec_phyRxSof_of_ne hf burst).symm.trans h) rfl

theorem phyRxSack_boundsFault {b : Bytes} (h : exec (.phyRxSack b) s = .next t) : t.boundsFault = s.boundsFault := by
  obtain ⟨-, hignored, -⟩ := eventsWithoutAHandlerAreIgnored s
  by_cases hf : s.fsm = .waitingForSack
  · cases hd : sackDecode b s.lastFrameBlockCount.toNat with
    | error r => exact boundsFault_of_next ((exec_phyRxSack_of_error hf hd).symm.trans h) rfl
    | ok e => exact boundsFault_of_next ((exec_phyRxSack_of_ok hf hd).symm.trans h) rfl
  · exact boundsFault_of_next ((hignored hf b).symm.trans h) rfl

theorem phyRxSound_boundsFault (h : exec .phyRxSound s = .next t) : t.boundsFault = s.boundsFault := by
  obtain ⟨-, -, -, -, hignored⟩ := eventsWithoutAHandlerAreIgnored s
  by_cases hf : s.fsm = .waitingForSof
  · exact boundsFault_of_next ((rxSoundClearsTheBlockErrors s hf).symm.trans h) rfl
  · exact boundsFault_of_next ((hignored hf).symm.trans h) rfl

theorem phyRxEnd_boundsFault (h : exec .phyRxEnd s = .next t) : t.boundsFault = s.boundsFault := by
  obtain ⟨-, -, hignored, -⟩ := eventsWithoutAHandlerAreIgnored s
  by_cases hsack : s.fsm = .waitingForSack
  · exact boundsFault_of_next ((exec_phyRxEnd_of_waitingForSack hsack).symm.trans h)
      (sendPath_boundsFault s.disarmTimer)
  by_cases hsof : s.fsm = .waitingForSof
  · exact boundsFault_of_next ((exec_phyRxEnd_of_waitingForSof hsof).symm.trans h) rfl
  · exact boundsFault_of_next ((hignored hsack hsof).symm.trans h) rfl

theorem phyTxEnd_boundsFault (h : exec .phyTxEnd s = .next t) : t.boundsFault = s.boundsFault := by
  obtain ⟨hsofEnd, hsackEnd⟩ := txEndArmsTheTimerOrEndsTheSack s
  obtain ⟨hignored, -⟩ := eventsWithoutAHandlerAreIgnored s
  by_cases hsof : s.fsm = .sendingSofOrSound
  · obtain ⟨deadline, -, harm⟩ := hsofEnd hsof
    exact boundsFault_of_next (harm.symm.trans h) rfl
  by_cases hsack : s.fsm = .sendingSack
  · exact boundsFault_of_next ((hsackEnd hsack).symm.trans h) rfl
  · exact boundsFault_of_next ((hignored hsof hsack).symm.trans h) rfl

theorem timerExpire_boundsFault {gen : BitVec 32} (h : exec (.timerExpire gen) s = .next t) :
    t.boundsFault = s.boundsFault := by
  replace h : execTimerExpire gen s = .next t := h
  unfold execTimerExpire at h
  split at h
  · exact boundsFault_of_next h (sendPath_boundsFault _)
  · exact boundsFault_of_next h rfl

/-! ## The datapath -/

theorem macEncode_boundsFault {dest : Addr} {p : Bytes} {c : Option Confounder}
    (h : exec (.macEncode dest p c) s = .next t) : t.boundsFault = s.boundsFault := by
  replace h : execMacEncode dest p c s = .next t := h
  unfold execMacEncode at h
  split at h <;> exact boundsFault_of_next h rfl

theorem macDecode_boundsFault {f : Bytes} (h : exec (.macDecode f) s = .next t) : t.boundsFault = s.boundsFault := by
  cases hd : macDecode s.cfg f with
  | error e => exact boundsFault_of_next ((exec_macDecode_error hd).symm.trans h) rfl
  | ok r => exact boundsFault_of_next ((exec_macDecode_ok hd).symm.trans h) rfl

theorem segment_boundsFault {slot : Nat} (h : exec (.segment slot) s = .next t) : t.boundsFault = s.boundsFault := by
  cases hs : s.streams[slot]? with
  | none => cases (exec_segment_noSuchStream hs).symm.trans h
  | some st => exact boundsFault_of_next ((exec_segment hs).symm.trans h) rfl

theorem sackDecode_boundsFault {b : Bytes} {n : Nat} (h : exec (.sackDecode b n) s = .next t) :
    t.boundsFault = s.boundsFault := by
  rw [exec_sackDecode, reportAll_sackReports] at h
  exact boundsFault_of_next h rfl

/-! ## Every instruction -/

/-- The four operations of 40_bitfield.md R130 to R133, which check the bounds of a buffer. -/
def checksBounds : Instr → Bool
  | .setField _ _ _ _ | .getField _ _ _ | .setBytes _ _ _ | .getBytes _ _ _ => true
  | _ => false

theorem exec_boundsFault {i : Instr} (hi : checksBounds i = false) (h : exec i s = .next t) :
    t.boundsFault = s.boundsFault := by
  cases i with
  | setField _ _ _ _ | getField _ _ _ | setBytes _ _ _ | getBytes _ _ _ => cases hi
  | appSubmit dest payload => exact appSubmit_boundsFault h
  | mgmtSubmit dest mm => exact mgmtSubmit_boundsFault h
  | phyRxSof payload => exact phyRxSof_boundsFault h
  | phyRxSack sackd => exact phyRxSack_boundsFault h
  | phyRxSound => exact phyRxSound_boundsFault h
  | phyRxEnd => exact phyRxEnd_boundsFault h
  | phyTxEnd => exact phyTxEnd_boundsFault h
  | timerExpire gen => exact timerExpire_boundsFault h
  | reset | sof _ | sound | sack _ | searchPpdu | appRx _ | mgmtRx _ | ready
  | crc32 _ | sackEncode _ | blockBuild _ _ _ _ => exact boundsFault_of_next h rfl
  | macEncode dest payload confounder => exact macEncode_boundsFault h
  | macDecode frame => exact macDecode_boundsFault h
  | segment slot => exact segment_boundsFault h
  | reassemble _ | phyBlockHeader _ _ => exact boundsFault_of_next h (reassemble_boundsFault s _)
  | sackDecode _ _ | sackPayload _ => exact sackDecode_boundsFault h
  | mfhData _ _ | mfhMgmt _ _ | mfhPad _ _ | mfhReserved _ _ =>
    exact boundsFault_of_next h (RxChange.deliver s _).boundsFault

/-- Settles O12: past the end each operation answers the record alone, and no other instruction writes it. -/
theorem boundsErrorEndsItsOperation : Obligations.BoundsErrorEndsItsOperation := by
  refine ⟨fun s buf v o w hw hout => ⟨?_, ?_⟩, fun s buf bytes k hout => ⟨?_, ?_⟩,
    fun i s t hset hget hsetBytes hgetBytes h => exec_boundsFault ?_ h⟩
  · rw [exec_setField hw, if_pos hout]
  · rw [exec_getField hw, if_pos hout]
  · rw [exec_setBytes, if_pos hout]
  · obtain ⟨-, hpast, -⟩ := getBytesReadsTheBytes s buf k bytes.length
    exact hpast hout
  · cases i with
    | setField buffer value bitOffset bitWidth => exact (hset _ _ _ _ rfl).elim
    | getField buffer bitOffset bitWidth => exact (hget _ _ _ rfl).elim
    | setBytes buffer bytes byteOffset => exact (hsetBytes _ _ _ rfl).elim
    | getBytes buffer byteOffset n => exact (hgetBytes _ _ _ rfl).elim
    | _ => rfl

end Sys2Proof.Machine
end
